-- ==== Sys2Proof/Word.lean ====
section
/-! DEFINITION. The two data widths of the litavm core (00_scope.md R9, 10_state.md R20, 20_memory.md R50). -/

namespace Sys2Proof

/-- An instruction word, a register cell or a 4-byte datum: 32 bits (R9). -/
abbrev Word := BitVec 32

/-- A byte of data memory or a byte-lane value: 8 bits (R27, R50). -/
abbrev Byte := BitVec 8

end Sys2Proof
end

