-- ==== Sys2Proof/Machine/Binary32.lean ====
section
/-! DEFINITION. IEEE 754 binary32 as 45_arithmetic.md R242 fixes it: round to nearest, ties to even,
subnormals kept, no flags, no traps.

A finite value is an integer number of units of 2^-149, the spacing of the subnormals, so sums and
remainders are exact integers, products and quotients are exact ratios, and one function rounds. -/

namespace Sys2Proof.Machine

/-- The sign bit. -/
def fSign (w : Word) : Bool := w.getLsbD 31

/-- The biased exponent `w[30:23]`. -/
def fExp (w : Word) : Nat := (w.extractLsb' 23 8).toNat

/-- The fraction `w[22:0]`. -/
def fFrac (w : Word) : Nat := (w.extractLsb' 0 23).toNat

/-- Exponent 0xFF and a non-zero fraction. -/
def fIsNan (w : Word) : Bool := fExp w == 255 && fFrac w != 0

/-- Exponent 0xFF and a zero fraction. -/
def fIsInf (w : Word) : Bool := fExp w == 255 && fFrac w == 0

/-- `+0.0` or `-0.0` (R259). -/
def fIsZero (w : Word) : Bool := w == 0x00000000#32 || w == 0x80000000#32

/-- The magnitude of a finite pattern in units of 2^-149: a subnormal is its fraction, a normal number
has the hidden bit and is scaled by its exponent. -/
def fMag (w : Word) : Nat :=
  if fExp w = 0 then fFrac w else (2 ^ 23 + fFrac w) * 2 ^ (fExp w - 1)

/-- The signed value of a finite pattern in units of 2^-149. -/
def fInt (w : Word) : Int := if fSign w then -(fMag w : Int) else (fMag w : Int)

/-- A sign bit over a 31-bit magnitude pattern. -/
def withSign (neg : Bool) (p : Nat) : Word := BitVec.ofNat 32 (neg.toNat * 2 ^ 31 + p)

/-- The pattern of an infinity. -/
def fInf (neg : Bool) : Word := withSign neg 0x7F800000

/-- `num / den` rounded to the nearest integer, a tie to the even one. -/
def roundHalfEven (num den : Nat) : Nat :=
  let q := num / den
  let r := num % den
  if 2 * r < den then q else if den < 2 * r then q + 1 else q + q % 2

/-- How many binary places above the unit the last place of `num / den` units lies: the significand
keeps 24 bits. -/
def ulpShift (num den : Nat) : Nat := Nat.log2 (num / den) - 23

/-- The magnitude pattern of `num / den` units of 2^-149, rounded to nearest with ties to even.  With `k`
the shift of the last place and `n` the rounded significand, the pattern is `k * 2^23 + n`: a carry out
of the significand moves the exponent up, and a value past the largest finite one is the infinity. -/
def roundMag (num den : Nat) : Nat :=
  let k := ulpShift num den
  min (k * 2 ^ 23 + roundHalfEven num (den * 2 ^ k)) 0x7F800000

/-- The pattern of the signed ratio `num / den` units of 2^-149. -/
def roundTo (neg : Bool) (num den : Nat) : Word := withSign neg (roundMag num den)

/-- `i2f(n)`: the pattern of the non-negative integer `n`, exact for `n < 2^24` (00_scope.md R13). -/
def i2f (n : Nat) : Word := roundTo false (n * 2 ^ 149) 1

/-- The pattern of an exact sum of finite values; a zero sum is `-0.0` only when both terms are
negative zeros (R242 (e)). -/
def finiteSum (negZero : Bool) (n : Int) : Word :=
  if n = 0 then withSign negZero 0 else roundTo (decide (n < 0)) n.natAbs 1

/-- `fadd(a, b)`; `none` is a NaN result (R242). -/
def fadd (a b : Word) : Option Word :=
  if fIsNan a || fIsNan b then none
  else if fIsInf a then (if fIsInf b && (fSign a != fSign b) then none else some a)
  else if fIsInf b then some b
  else some (finiteSum (fSign a && fSign b) (fInt a + fInt b))

/-- The pattern with its sign bit inverted. -/
def fneg (a : Word) : Word := a ^^^ 0x80000000#32

/-- `fsub(a, b)`: the sum with the second operand negated. -/
def fsub (a b : Word) : Option Word := fadd a (fneg b)

/-- `fmul(a, b)`. -/
def fmul (a b : Word) : Option Word :=
  let neg := fSign a != fSign b
  if fIsNan a || fIsNan b then none
  else if fIsInf a then (if fIsZero b then none else some (fInf neg))
  else if fIsInf b then (if fIsZero a then none else some (fInf neg))
  else some (roundTo neg (fMag a * fMag b) (2 ^ 149))

/-- `fdiv(a, b)`.  A zero divisor never reaches it (R242 (f)); the two arms for one give what IEEE 754
does, so that the function is total (log 14). -/
def fdiv (a b : Word) : Option Word :=
  let neg := fSign a != fSign b
  if fIsNan a || fIsNan b then none
  else if fIsInf a then (if fIsInf b then none else some (fInf neg))
  else if fIsInf b then some (withSign neg 0)
  else if fIsZero b then (if fIsZero a then none else some (fInf neg))
  else some (roundTo neg (fMag a * 2 ^ 149) (fMag b))

/-- `frem(a, b)`: the truncated remainder, with the sign of the dividend (R242), not the IEEE 754
remainder operation. -/
def frem (a b : Word) : Option Word :=
  if fIsNan a || fIsNan b then none
  else if fIsInf a || fIsZero b then none
  else if fIsInf b then some a
  else some (roundTo (fSign a) (fMag a % fMag b) 1)

/-- The place on the number line of a pattern that is no NaN: its value, where the formula of a finite
pattern puts an infinity at 2^277 units, beyond every finite value; the two zeros are one place. -/
def fKey (a : Word) : Int := fInt a

/-- `fgt(a, b)`: ordered "greater than", false when an operand is a NaN (R242). -/
def fgt (a b : Word) : Bool := !fIsNan a && !fIsNan b && decide (fKey b < fKey a)

/-- `fge(a, b)`: ordered "greater than or equal", false when an operand is a NaN (R242). -/
def fge (a b : Word) : Bool := !fIsNan a && !fIsNan b && decide (fKey b ≤ fKey a)

end Sys2Proof.Machine
end

