-- ==== Sys2Proof/Machine/Flags.lean ====
section
/-! DEFINITION. There are no flags, condition codes or predicates (10_state.md R33).  What this file holds is
the one thing that takes their place: the comparisons of compare-skip (43_control.md R219 (e)) and the
zero-divisor tests (45_arithmetic.md R259), which are computed, used at once and recorded nowhere. -/

namespace Sys2Proof.Machine

/-- `signed_32(a) >s signed_32(b)` (R210). -/
def gtWord (a b : Word) : Bool := decide (b.toInt < a.toInt)

/-- `signed_32(a) >=s signed_32(b)` (R213). -/
def geWord (a b : Word) : Bool := decide (b.toInt ≤ a.toInt)

/-- `signed_8(a) >s signed_8(b)` (R212). -/
def gtByte (a b : Byte) : Bool := decide (b.toInt < a.toInt)

/-- `signed_8(a) >=s signed_8(b)` (R215). -/
def geByte (a b : Byte) : Bool := decide (b.toInt ≤ a.toInt)

/-- The zero divisor of DIVI and MODI (R259). -/
def zeroWord (b : Word) : Bool := b == 0x00000000#32

/-- The zero divisor of DIVB and MODB: the 8-bit operand (R259). -/
def zeroByte (b : Byte) : Bool := b == 0x00#8

/-- The zero divisors of DIVF and MODF: `+0.0` and `-0.0` (R259). -/
def zeroFloat (b : Word) : Bool := fIsZero b

end Sys2Proof.Machine
end

