-- ==== Sys2Proof/Config.lean ====
section
/-! DEFINITION. The choices 00_scope.md R10 leaves to the implementation, and the values nothing fixes.

The parameters with two values (BYTE_ORDER, FLOAT_IMM, NAN_RESULT) are types here and fields of
`Machine.Params`, so that a statement over every state holds for both choices (log 1).  The values the
spec leaves open are opaque constants: no proof can see them (logs 3 and 8). -/

namespace Sys2Proof

/-- BYTE_ORDER, the byte order of 4-byte data accesses (20_memory.md R54). -/
inductive ByteOrder where
  | big
  | little
deriving DecidableEq, Repr

/-- FLOAT_IMM, how a 19-bit immediate enters the float lane (40_operands.md R147). -/
inductive FloatImm where
  | convert
  | reinterpret
deriving DecidableEq, Repr

/-- NAN_RESULT, the pattern of a NaN that float arithmetic produces (45_arithmetic.md R242 (d)). -/
inductive NanResult where
  | canonical
  | any
deriving DecidableEq, Repr

/-- The free bits of the `n`-th NaN drawn under NAN_RESULT = any (R242 (d), 93 U13).  DESIGN CHOICE: the
draws are numbered by the state's own counter; safe, since nothing is known of the bits (log 3). -/
opaque Config.freeNan : Nat → Word

/-- `fmt_float`, the text the host prints for a float print event: a total function of the 32 bits
(00_scope.md R10, 44_print.md R235).  Left free; safe (log 8). -/
opaque Config.fmtFloat : Word → List Char

/-- The character the host shows for PRINTC of a byte 0x80 to 0xFF (44_print.md R235: host-defined).
Left free; safe (log 8). -/
opaque Config.hostChar : Byte → Char

end Sys2Proof
end

