-- ==== Sys2Proof/Syntax/Operand.lean ====
section
/-! DEFINITION. The operands of an instruction word (30_encoding.md R82 to R85, R97).

Register numbers keep the width of their field, because a number that names no register is a legal
encoding that faults when it is executed (R104, 40_operands.md R145). -/

namespace Sys2Proof

/-- arg1 of the standard layout: the register itself (flag 0) or the memory datum at the address it
holds (flag 1) (R82). -/
inductive Arg1 where
  | reg (i : BitVec 4)
  | ind (i : BitVec 4)
deriving DecidableEq, Repr

/-- The four forms of arg2 (R84): a register's value, the datum at the address in a register, a 19-bit
literal, the datum of a constant-pool slot. -/
inductive Arg2 where
  | reg (i : BitVec 19)
  | ind (i : BitVec 19)
  | imm (v : BitVec 19)
  | const (k : BitVec 19)
deriving DecidableEq, Repr

/-- The operands a word of each class carries (R97, R101). -/
inductive Operands where
  | none
  | one (a : Arg2)
  | two (d : Arg1) (a : Arg2)
  | jump (t : BitVec 24)
deriving DecidableEq, Repr

/-- The four operand classes of R101. -/
inductive OpClass where
  | zero
  | one
  | two
  | jump
deriving DecidableEq, Repr

end Sys2Proof
end

