-- ==== Sys2Proof/Syntax.lean ====
section
/-! DEFINITION. The instructions of the litavm core: one constructor per row of spec/opcode_table.json
(30_encoding.md R100), with the operands its class gives it (R101): `d` is arg1, `a` is arg2, `t` the
24-bit target. -/

namespace Sys2Proof

/-- The 59 instructions (R2, R100). -/
inductive Instr where
  /-- NOOP, class 0, lane none: R170. -/
  | noop
  /-- MOVI, class 2, lane I: R171. -/
  | movi (d : Arg1) (a : Arg2)
  /-- MOVF, class 2, lane F: R172. -/
  | movf (d : Arg1) (a : Arg2)
  /-- MOVB, class 2, lane B: R173. -/
  | movb (d : Arg1) (a : Arg2)
  /-- LDCI, class 2, lane I: R174. -/
  | ldci (d : Arg1) (a : Arg2)
  /-- LDCF, class 2, lane F: R175. -/
  | ldcf (d : Arg1) (a : Arg2)
  /-- LDCB, class 2, lane B: R176. -/
  | ldcb (d : Arg1) (a : Arg2)
  /-- LDCA, class 2, lane I: R177. -/
  | ldca (d : Arg1) (a : Arg2)
  /-- PUSHI, class 1, lane I: R190. -/
  | pushi (a : Arg2)
  /-- PUSHF, class 1, lane F: R191. -/
  | pushf (a : Arg2)
  /-- PUSHB, class 1, lane B: R192. -/
  | pushb (a : Arg2)
  /-- POPI, class 1, lane I: R193. -/
  | popi (a : Arg2)
  /-- POPF, class 1, lane F: R194. -/
  | popf (a : Arg2)
  /-- POPB, class 1, lane B: R195. -/
  | popb (a : Arg2)
  /-- DUPI, class 1, lane I: R196. -/
  | dupi (a : Arg2)
  /-- DUPF, class 1, lane F: R197. -/
  | dupf (a : Arg2)
  /-- DUPB, class 1, lane B: R198. -/
  | dupb (a : Arg2)
  /-- IFI, class 2, lane I: R210. -/
  | ifi (d : Arg1) (a : Arg2)
  /-- IFF, class 2, lane F: R211. -/
  | iff (d : Arg1) (a : Arg2)
  /-- IFB, class 2, lane B: R212. -/
  | ifb (d : Arg1) (a : Arg2)
  /-- IFEI, class 2, lane I: R213. -/
  | ifei (d : Arg1) (a : Arg2)
  /-- IFEF, class 2, lane F: R214. -/
  | ifef (d : Arg1) (a : Arg2)
  /-- IFEB, class 2, lane B: R215. -/
  | ifeb (d : Arg1) (a : Arg2)
  /-- JMP, class J, lane none: R216. -/
  | jmp (t : BitVec 24)
  /-- CALL, class J, lane none: R217. -/
  | call (t : BitVec 24)
  /-- RET, class 0, lane none: R218. -/
  | ret
  /-- PRINTI, class 1, lane I: R231. -/
  | printi (a : Arg2)
  /-- PRINTF, class 1, lane F: R232. -/
  | printf (a : Arg2)
  /-- PRINTB, class 1, lane B: R233. -/
  | printb (a : Arg2)
  /-- PRINTC, class 1, lane B: R234. -/
  | printc (a : Arg2)
  /-- ADDI, class 2, lane I: R244. -/
  | addi (d : Arg1) (a : Arg2)
  /-- ADDF, class 2, lane F: R245. -/
  | addf (d : Arg1) (a : Arg2)
  /-- ADDB, class 2, lane B: R246. -/
  | addb (d : Arg1) (a : Arg2)
  /-- SUBI, class 2, lane I: R247. -/
  | subi (d : Arg1) (a : Arg2)
  /-- SUBF, class 2, lane F: R248. -/
  | subf (d : Arg1) (a : Arg2)
  /-- SUBB, class 2, lane B: R249. -/
  | subb (d : Arg1) (a : Arg2)
  /-- MULI, class 2, lane I: R250. -/
  | muli (d : Arg1) (a : Arg2)
  /-- MULF, class 2, lane F: R251. -/
  | mulf (d : Arg1) (a : Arg2)
  /-- MULB, class 2, lane B: R252. -/
  | mulb (d : Arg1) (a : Arg2)
  /-- DIVI, class 2, lane I: R253. -/
  | divi (d : Arg1) (a : Arg2)
  /-- DIVF, class 2, lane F: R254. -/
  | divf (d : Arg1) (a : Arg2)
  /-- DIVB, class 2, lane B: R255. -/
  | divb (d : Arg1) (a : Arg2)
  /-- MODI, class 2, lane I: R256. -/
  | modi (d : Arg1) (a : Arg2)
  /-- MODF, class 2, lane F: R257. -/
  | modf (d : Arg1) (a : Arg2)
  /-- MODB, class 2, lane B: R258. -/
  | modb (d : Arg1) (a : Arg2)
  /-- ORI, class 2, lane I: R272. -/
  | ori (d : Arg1) (a : Arg2)
  /-- ORB, class 2, lane B: R273. -/
  | orb (d : Arg1) (a : Arg2)
  /-- ANDI, class 2, lane I: R274. -/
  | andi (d : Arg1) (a : Arg2)
  /-- ANDB, class 2, lane B: R275. -/
  | andb (d : Arg1) (a : Arg2)
  /-- XORI, class 2, lane I: R276. -/
  | xori (d : Arg1) (a : Arg2)
  /-- XORB, class 2, lane B: R277. -/
  | xorb (d : Arg1) (a : Arg2)
  /-- NOTI, class 2, lane I: R278. -/
  | noti (d : Arg1) (a : Arg2)
  /-- NOTB, class 2, lane B: R279. -/
  | notb (d : Arg1) (a : Arg2)
  /-- SZRLI, class 2, lane I: R280. -/
  | szrli (d : Arg1) (a : Arg2)
  /-- SZRLB, class 2, lane B: R281. -/
  | szrlb (d : Arg1) (a : Arg2)
  /-- SRLI, class 2, lane I: R282. -/
  | srli (d : Arg1) (a : Arg2)
  /-- SRLB, class 2, lane B: R283. -/
  | srlb (d : Arg1) (a : Arg2)
  /-- SLLI, class 2, lane I: R284. -/
  | slli (d : Arg1) (a : Arg2)
  /-- SLLB, class 2, lane B: R285. -/
  | sllb (d : Arg1) (a : Arg2)
deriving DecidableEq, Repr

end Sys2Proof
end

