-- ==== Sys2Proof/Syntax/Opcode.lean ====
section
/-! DEFINITION. The instructions of 30_encoding.md R100 without their operands, as an enumeration of its
own: the opcode map (a parameter, 00_scope.md R10) gives each a number, a spelling and an operand class. -/

namespace Sys2Proof

/-- An instruction of R100, named as that table names it. -/
inductive Op where
  | noop | movi | movf | movb | ldci | ldcf | ldcb | ldca | pushi | pushf | pushb | popi
  | popf | popb | dupi | dupf | dupb | ifi | iff | ifb | ifei | ifef | ifeb | jmp | call
  | ret | printi | printf | printb | printc | addi | addf | addb | subi | subf | subb | muli
  | mulf | mulb | divi | divf | divb | modi | modf | modb | ori | orb | andi | andb | xori
  | xorb | noti | notb | szrli | szrlb | srli | srlb | slli | sllb
deriving DecidableEq, Repr

/-- The operand class each instruction's meaning takes (R101). -/
def Op.cls : Op → OpClass
  | .noop | .ret => .zero
  | .jmp | .call => .jump
  | .pushi | .pushf | .pushb | .popi | .popf | .popb | .dupi | .dupf | .dupb | .printi | .printf
  | .printb | .printc => .one
  | .movi | .movf | .movb | .ldci | .ldcf | .ldcb | .ldca | .ifi | .iff | .ifb | .ifei | .ifef
  | .ifeb | .addi | .addf | .addb | .subi | .subf | .subb | .muli | .mulf | .mulb | .divi
  | .divf | .divb | .modi | .modf | .modb | .ori | .orb | .andi | .andb | .xori | .xorb | .noti
  | .notb | .szrli | .szrlb | .srli | .srlb | .slli | .sllb => .two

/-- Which instruction of R100 it is. -/
def Instr.op : Instr → Op
  | .noop => .noop
  | .movi _ _ => .movi
  | .movf _ _ => .movf
  | .movb _ _ => .movb
  | .ldci _ _ => .ldci
  | .ldcf _ _ => .ldcf
  | .ldcb _ _ => .ldcb
  | .ldca _ _ => .ldca
  | .pushi _ => .pushi
  | .pushf _ => .pushf
  | .pushb _ => .pushb
  | .popi _ => .popi
  | .popf _ => .popf
  | .popb _ => .popb
  | .dupi _ => .dupi
  | .dupf _ => .dupf
  | .dupb _ => .dupb
  | .ifi _ _ => .ifi
  | .iff _ _ => .iff
  | .ifb _ _ => .ifb
  | .ifei _ _ => .ifei
  | .ifef _ _ => .ifef
  | .ifeb _ _ => .ifeb
  | .jmp _ => .jmp
  | .call _ => .call
  | .ret => .ret
  | .printi _ => .printi
  | .printf _ => .printf
  | .printb _ => .printb
  | .printc _ => .printc
  | .addi _ _ => .addi
  | .addf _ _ => .addf
  | .addb _ _ => .addb
  | .subi _ _ => .subi
  | .subf _ _ => .subf
  | .subb _ _ => .subb
  | .muli _ _ => .muli
  | .mulf _ _ => .mulf
  | .mulb _ _ => .mulb
  | .divi _ _ => .divi
  | .divf _ _ => .divf
  | .divb _ _ => .divb
  | .modi _ _ => .modi
  | .modf _ _ => .modf
  | .modb _ _ => .modb
  | .ori _ _ => .ori
  | .orb _ _ => .orb
  | .andi _ _ => .andi
  | .andb _ _ => .andb
  | .xori _ _ => .xori
  | .xorb _ _ => .xorb
  | .noti _ _ => .noti
  | .notb _ _ => .notb
  | .szrli _ _ => .szrli
  | .szrlb _ _ => .szrlb
  | .srli _ _ => .srli
  | .srlb _ _ => .srlb
  | .slli _ _ => .slli
  | .sllb _ _ => .sllb

/-- The class an operand list belongs to. -/
def Operands.cls : Operands → OpClass
  | .none => .zero
  | .one _ => .one
  | .two _ _ => .two
  | .jump _ => .jump

/-- The operands of an instruction. -/
def Instr.operands : Instr → Operands
  | .noop => .none
  | .movi d a => .two d a
  | .movf d a => .two d a
  | .movb d a => .two d a
  | .ldci d a => .two d a
  | .ldcf d a => .two d a
  | .ldcb d a => .two d a
  | .ldca d a => .two d a
  | .pushi a => .one a
  | .pushf a => .one a
  | .pushb a => .one a
  | .popi a => .one a
  | .popf a => .one a
  | .popb a => .one a
  | .dupi a => .one a
  | .dupf a => .one a
  | .dupb a => .one a
  | .ifi d a => .two d a
  | .iff d a => .two d a
  | .ifb d a => .two d a
  | .ifei d a => .two d a
  | .ifef d a => .two d a
  | .ifeb d a => .two d a
  | .jmp t => .jump t
  | .call t => .jump t
  | .ret => .none
  | .printi a => .one a
  | .printf a => .one a
  | .printb a => .one a
  | .printc a => .one a
  | .addi d a => .two d a
  | .addf d a => .two d a
  | .addb d a => .two d a
  | .subi d a => .two d a
  | .subf d a => .two d a
  | .subb d a => .two d a
  | .muli d a => .two d a
  | .mulf d a => .two d a
  | .mulb d a => .two d a
  | .divi d a => .two d a
  | .divf d a => .two d a
  | .divb d a => .two d a
  | .modi d a => .two d a
  | .modf d a => .two d a
  | .modb d a => .two d a
  | .ori d a => .two d a
  | .orb d a => .two d a
  | .andi d a => .two d a
  | .andb d a => .two d a
  | .xori d a => .two d a
  | .xorb d a => .two d a
  | .noti d a => .two d a
  | .notb d a => .two d a
  | .szrli d a => .two d a
  | .szrlb d a => .two d a
  | .srli d a => .two d a
  | .srlb d a => .two d a
  | .slli d a => .two d a
  | .sllb d a => .two d a

end Sys2Proof
end

