-- ==== Sys2Proof/WellFormed.lean ====
section
/-! DEFINITION. Well-formed instructions: the ones the assembler produces from a program that has its
constants (30_encoding.md R122, R123), namely register numbers that name a register
(40_operands.md R145) and, for the load-constant family, an arg2 of form CONST (41_move_load.md R178).

The decoder does not ask for this (30_encoding.md R104: the codec performs no validation): an
ill-formed word decodes, and executing it raises the fault the spec names. -/

namespace Sys2Proof

/-- arg1 names one of the registers 0 to 11 (R145). -/
def Arg1.wf : Arg1 → Bool
  | .reg i => i.toNat ≤ 11
  | .ind i => i.toNat ≤ 11

/-- A register-form arg2 names one of the registers 0 to 11 (R145); the other forms have no such check. -/
def Arg2.wf : Arg2 → Bool
  | .reg i => i.toNat ≤ 11
  | .ind i => i.toNat ≤ 11
  | .imm _ => true
  | .const _ => true

/-- arg2 has the form CONST (R84, R178). -/
def Arg2.isConst : Arg2 → Bool
  | .reg _ => false
  | .ind _ => false
  | .imm _ => false
  | .const _ => true

/-- Every operand of the instruction passes its check. -/
def Instr.wf : Instr → Bool
  | .noop => true
  | .movi d a => d.wf && a.wf
  | .movf d a => d.wf && a.wf
  | .movb d a => d.wf && a.wf
  | .ldci d a => d.wf && a.wf && a.isConst
  | .ldcf d a => d.wf && a.wf && a.isConst
  | .ldcb d a => d.wf && a.wf && a.isConst
  | .ldca d a => d.wf && a.wf && a.isConst
  | .pushi a => a.wf
  | .pushf a => a.wf
  | .pushb a => a.wf
  | .popi a => a.wf
  | .popf a => a.wf
  | .popb a => a.wf
  | .dupi a => a.wf
  | .dupf a => a.wf
  | .dupb a => a.wf
  | .ifi d a => d.wf && a.wf
  | .iff d a => d.wf && a.wf
  | .ifb d a => d.wf && a.wf
  | .ifei d a => d.wf && a.wf
  | .ifef d a => d.wf && a.wf
  | .ifeb d a => d.wf && a.wf
  | .jmp _ => true
  | .call _ => true
  | .ret => true
  | .printi a => a.wf
  | .printf a => a.wf
  | .printb a => a.wf
  | .printc a => a.wf
  | .addi d a => d.wf && a.wf
  | .addf d a => d.wf && a.wf
  | .addb d a => d.wf && a.wf
  | .subi d a => d.wf && a.wf
  | .subf d a => d.wf && a.wf
  | .subb d a => d.wf && a.wf
  | .muli d a => d.wf && a.wf
  | .mulf d a => d.wf && a.wf
  | .mulb d a => d.wf && a.wf
  | .divi d a => d.wf && a.wf
  | .divf d a => d.wf && a.wf
  | .divb d a => d.wf && a.wf
  | .modi d a => d.wf && a.wf
  | .modf d a => d.wf && a.wf
  | .modb d a => d.wf && a.wf
  | .ori d a => d.wf && a.wf
  | .orb d a => d.wf && a.wf
  | .andi d a => d.wf && a.wf
  | .andb d a => d.wf && a.wf
  | .xori d a => d.wf && a.wf
  | .xorb d a => d.wf && a.wf
  | .noti d a => d.wf && a.wf
  | .notb d a => d.wf && a.wf
  | .szrli d a => d.wf && a.wf
  | .szrlb d a => d.wf && a.wf
  | .srli d a => d.wf && a.wf
  | .srlb d a => d.wf && a.wf
  | .slli d a => d.wf && a.wf
  | .sllb d a => d.wf && a.wf

end Sys2Proof
end

