-- ==== Sys2Proof/Decode.lean ====
section
/-! DEFINITION. The instruction codec (30_encoding.md sections 1 to 5): the field extractors, the
decoder, and the encoder written from the same layouts.

The whole opcode map is an argument (00_scope.md R10, R100: a model should take it as configuration):
number, spelling and operand class of each instruction.  `OpcodeMap.standard` is the spec's table. -/

namespace Sys2Proof

/-! ### Field extractors (R88 to R94): total on every word, never sign-extended -/

/-- `dec_opcode(w) = w[31:26]` (R88). -/
def decOpcode (w : Word) : BitVec 6 := w.extractLsb' 26 6

/-- `dec_arg1Addr(w) = w[25]` (R89). -/
def decArg1Addr (w : Word) : Bool := w.getLsbD 25

/-- `dec_arg1Value(w) = w[24:21]` (R90). -/
def decArg1Value (w : Word) : BitVec 4 := w.extractLsb' 21 4

/-- `dec_arg2Reg(w) = w[20]` (R91). -/
def decArg2Reg (w : Word) : Bool := w.getLsbD 20

/-- `dec_arg2Addr(w) = w[19]` (R92). -/
def decArg2Addr (w : Word) : Bool := w.getLsbD 19

/-- `dec_arg2Value(w) = w[18:0]` (R93). -/
def decArg2Value (w : Word) : BitVec 19 := w.extractLsb' 0 19

/-- `dec_imm24(w) = w[23:0]` (R94). -/
def decImm24 (w : Word) : BitVec 24 := w.extractLsb' 0 24

/-! ### Operand descriptors (R82, R84, R143) -/

/-- The arg1 descriptor of a flag and a number (R82). -/
def mkArg1 (addr : Bool) (i : BitVec 4) : Arg1 :=
  if addr then .ind i else .reg i

/-- The arg2 descriptor of two flags and a value: the table of R84. -/
def mkArg2 (isReg addr : Bool) (v : BitVec 19) : Arg2 :=
  match isReg, addr with
  | true, false => .reg v
  | true, true => .ind v
  | false, true => .imm v
  | false, false => .const v

/-- arg1 of a class-2 word. -/
def decArg1 (w : Word) : Arg1 := mkArg1 (decArg1Addr w) (decArg1Value w)

/-- arg2 of a class-1 or class-2 word. -/
def decArg2 (w : Word) : Arg2 := mkArg2 (decArg2Reg w) (decArg2Addr w) (decArg2Value w)

/-- The operands of a word of a class: what R143 decodes, and nothing of the unused bits (R102). -/
def decOperands (c : OpClass) (w : Word) : Operands :=
  match c with
  | .zero => .none
  | .one => .one (decArg2 w)
  | .two => .two (decArg1 w) (decArg2 w)
  | .jump => .jump (decImm24 w)

/-! ### The opcode map (R100) -/

/-- A row of `OPCODE_MAP` (00_scope.md R10): the opcode number, the spelling of the mnemonic, the
instruction it stands for, and its operand class, which is the arity and the jump-family flag in one
(R101). -/
structure OpcodeRow where
  number : BitVec 6
  name : List Char
  op : Op
  cls : OpClass
deriving DecidableEq, Repr

/-- `OPCODE_MAP`. -/
abbrev OpcodeMap := List OpcodeRow

/-- The spec's table of R100: the 59 instructions numbered 0 to 58; 59 to 63 are unassigned (R103). -/
def OpcodeMap.standard : OpcodeMap :=
  [ ⟨0, "NOOP".toList, .noop, .zero⟩, ⟨1, "MOVI".toList, .movi, .two⟩,
    ⟨2, "MOVF".toList, .movf, .two⟩, ⟨3, "MOVB".toList, .movb, .two⟩,
    ⟨4, "LDCI".toList, .ldci, .two⟩, ⟨5, "LDCF".toList, .ldcf, .two⟩,
    ⟨6, "LDCB".toList, .ldcb, .two⟩, ⟨7, "LDCA".toList, .ldca, .two⟩,
    ⟨8, "PUSHI".toList, .pushi, .one⟩, ⟨9, "PUSHF".toList, .pushf, .one⟩,
    ⟨10, "PUSHB".toList, .pushb, .one⟩, ⟨11, "POPI".toList, .popi, .one⟩,
    ⟨12, "POPF".toList, .popf, .one⟩, ⟨13, "POPB".toList, .popb, .one⟩,
    ⟨14, "DUPI".toList, .dupi, .one⟩, ⟨15, "DUPF".toList, .dupf, .one⟩,
    ⟨16, "DUPB".toList, .dupb, .one⟩, ⟨17, "IFI".toList, .ifi, .two⟩,
    ⟨18, "IFF".toList, .iff, .two⟩, ⟨19, "IFB".toList, .ifb, .two⟩,
    ⟨20, "IFEI".toList, .ifei, .two⟩, ⟨21, "IFEF".toList, .ifef, .two⟩,
    ⟨22, "IFEB".toList, .ifeb, .two⟩, ⟨23, "JMP".toList, .jmp, .jump⟩,
    ⟨24, "CALL".toList, .call, .jump⟩, ⟨25, "RET".toList, .ret, .zero⟩,
    ⟨26, "PRINTI".toList, .printi, .one⟩, ⟨27, "PRINTF".toList, .printf, .one⟩,
    ⟨28, "PRINTB".toList, .printb, .one⟩, ⟨29, "PRINTC".toList, .printc, .one⟩,
    ⟨30, "ADDI".toList, .addi, .two⟩, ⟨31, "ADDF".toList, .addf, .two⟩,
    ⟨32, "ADDB".toList, .addb, .two⟩, ⟨33, "SUBI".toList, .subi, .two⟩,
    ⟨34, "SUBF".toList, .subf, .two⟩, ⟨35, "SUBB".toList, .subb, .two⟩,
    ⟨36, "MULI".toList, .muli, .two⟩, ⟨37, "MULF".toList, .mulf, .two⟩,
    ⟨38, "MULB".toList, .mulb, .two⟩, ⟨39, "DIVI".toList, .divi, .two⟩,
    ⟨40, "DIVF".toList, .divf, .two⟩, ⟨41, "DIVB".toList, .divb, .two⟩,
    ⟨42, "MODI".toList, .modi, .two⟩, ⟨43, "MODF".toList, .modf, .two⟩,
    ⟨44, "MODB".toList, .modb, .two⟩, ⟨45, "ORI".toList, .ori, .two⟩,
    ⟨46, "ORB".toList, .orb, .two⟩, ⟨47, "ANDI".toList, .andi, .two⟩,
    ⟨48, "ANDB".toList, .andb, .two⟩, ⟨49, "XORI".toList, .xori, .two⟩,
    ⟨50, "XORB".toList, .xorb, .two⟩, ⟨51, "NOTI".toList, .noti, .two⟩,
    ⟨52, "NOTB".toList, .notb, .two⟩, ⟨53, "SZRLI".toList, .szrli, .two⟩,
    ⟨54, "SZRLB".toList, .szrlb, .two⟩, ⟨55, "SRLI".toList, .srli, .two⟩,
    ⟨56, "SRLB".toList, .srlb, .two⟩, ⟨57, "SLLI".toList, .slli, .two⟩,
    ⟨58, "SLLB".toList, .sllb, .two⟩ ]

/-- The row of a number, if the map has one. -/
def OpcodeMap.rowAt (m : OpcodeMap) (n : BitVec 6) : Option OpcodeRow :=
  m.find? (fun row => row.number == n)

/-- The row of an instruction, if the map has one. -/
def OpcodeMap.rowOf (m : OpcodeMap) (op : Op) : Option OpcodeRow :=
  m.find? (fun row => row.op == op)

/-- The instruction a number selects, if the map assigns one.  A row of another operand class than the
instruction's meaning takes assigns none (log 2). -/
def OpcodeMap.opAt (m : OpcodeMap) (n : BitVec 6) : Option Op :=
  (m.rowAt n).bind (fun row => if row.cls = row.op.cls then some row.op else none)

/-- The constraint of R10: the map is injective (no number and no instruction stands in two rows). -/
def OpcodeMap.injective (m : OpcodeMap) : Bool :=
  decide ((m.map OpcodeRow.number).Nodup) && decide ((m.map OpcodeRow.op).Nodup)

/-- No two rows have one spelling, letters of either case (R121), the ASCII letters alone by the model's
choice (log 9). -/
def OpcodeMap.spellingsDistinct (m : OpcodeMap) : Bool :=
  decide ((m.map (fun row => row.name.map Char.toUpper)).Nodup)

/-- Every row has the operand class its instruction's meaning takes (R101, log 2). -/
def OpcodeMap.classesAgree (m : OpcodeMap) : Bool := m.all (fun row => row.cls == row.op.cls)

/-- A map that can stand as the parameter OPCODE_MAP (R10, log 2). -/
def OpcodeMap.valid (m : OpcodeMap) : Bool := m.injective && m.spellingsDistinct && m.classesAgree

/-! ### The decoder -/

/-- Why a word decodes to no instruction. -/
inductive DecodeError where
  /-- The opcode field selects no instruction (R103); executing the word raises UnrecognizedOpcode. -/
  | unrecognizedOpcode (w : Word)
deriving DecidableEq, Repr

/-- An instruction without operands. -/
def ofNone (i : Instr) : Operands → Option Instr
  | .none => some i
  | .one _ => none
  | .two _ _ => none
  | .jump _ => none

/-- An instruction of arg2 alone. -/
def ofOne (f : Arg2 → Instr) : Operands → Option Instr
  | .none => none
  | .one a => some (f a)
  | .two _ _ => none
  | .jump _ => none

/-- An instruction of arg1 and arg2. -/
def ofTwo (f : Arg1 → Arg2 → Instr) : Operands → Option Instr
  | .none => none
  | .one _ => none
  | .two d a => some (f d a)
  | .jump _ => none

/-- An instruction of a 24-bit target. -/
def ofJump (f : BitVec 24 → Instr) : Operands → Option Instr
  | .none => none
  | .one _ => none
  | .two _ _ => none
  | .jump t => some (f t)

/-- The instruction with the operands, when they are of the class its meaning takes (R101). -/
def instrOf (op : Op) : Operands → Option Instr :=
  match op with
  | .noop => ofNone .noop
  | .movi => ofTwo .movi
  | .movf => ofTwo .movf
  | .movb => ofTwo .movb
  | .ldci => ofTwo .ldci
  | .ldcf => ofTwo .ldcf
  | .ldcb => ofTwo .ldcb
  | .ldca => ofTwo .ldca
  | .pushi => ofOne .pushi
  | .pushf => ofOne .pushf
  | .pushb => ofOne .pushb
  | .popi => ofOne .popi
  | .popf => ofOne .popf
  | .popb => ofOne .popb
  | .dupi => ofOne .dupi
  | .dupf => ofOne .dupf
  | .dupb => ofOne .dupb
  | .ifi => ofTwo .ifi
  | .iff => ofTwo .iff
  | .ifb => ofTwo .ifb
  | .ifei => ofTwo .ifei
  | .ifef => ofTwo .ifef
  | .ifeb => ofTwo .ifeb
  | .jmp => ofJump .jmp
  | .call => ofJump .call
  | .ret => ofNone .ret
  | .printi => ofOne .printi
  | .printf => ofOne .printf
  | .printb => ofOne .printb
  | .printc => ofOne .printc
  | .addi => ofTwo .addi
  | .addf => ofTwo .addf
  | .addb => ofTwo .addb
  | .subi => ofTwo .subi
  | .subf => ofTwo .subf
  | .subb => ofTwo .subb
  | .muli => ofTwo .muli
  | .mulf => ofTwo .mulf
  | .mulb => ofTwo .mulb
  | .divi => ofTwo .divi
  | .divf => ofTwo .divf
  | .divb => ofTwo .divb
  | .modi => ofTwo .modi
  | .modf => ofTwo .modf
  | .modb => ofTwo .modb
  | .ori => ofTwo .ori
  | .orb => ofTwo .orb
  | .andi => ofTwo .andi
  | .andb => ofTwo .andb
  | .xori => ofTwo .xori
  | .xorb => ofTwo .xorb
  | .noti => ofTwo .noti
  | .notb => ofTwo .notb
  | .szrli => ofTwo .szrli
  | .szrlb => ofTwo .szrlb
  | .srli => ofTwo .srli
  | .srlb => ofTwo .srlb
  | .slli => ofTwo .slli
  | .sllb => ofTwo .sllb

/-- The row a word's opcode selects and the instruction it decodes to under the row's operand class (R86,
R143); none where the map assigns no instruction (R103). -/
def decodeRow (m : OpcodeMap) (w : Word) : Option (OpcodeRow × Instr) :=
  (m.rowAt (decOpcode w)).bind
    (fun row => (instrOf row.op (decOperands row.cls w)).map (fun i => (row, i)))

/-- Decode a word under an opcode map (R86, R103, R143). -/
def decode (m : OpcodeMap) (w : Word) : Except DecodeError Instr :=
  match decodeRow m w with
  | none => .error (.unrecognizedOpcode w)
  | some (_, i) => .ok i

/-! ### The encoder -/

/-- `enc_std` (R95), with `+` for the `|` of the rule: the fields do not overlap. -/
def encStd (op : BitVec 6) (a1Addr : Bool) (a1Value : BitVec 4) (a2Reg a2Addr : Bool)
    (a2Value : BitVec 19) : Word :=
  BitVec.ofNat 32 (op.toNat * 2 ^ 26 + a1Addr.toNat * 2 ^ 25 + a1Value.toNat * 2 ^ 21
    + a2Reg.toNat * 2 ^ 20 + a2Addr.toNat * 2 ^ 19 + a2Value.toNat)

/-- `enc_jmp` (R96): `w[25:24]` is written 0. -/
def encJmp (op : BitVec 6) (t : BitVec 24) : Word :=
  BitVec.ofNat 32 (op.toNat * 2 ^ 26 + t.toNat)

/-- The address flag of an arg1 (R82). -/
def Arg1.addrFlag : Arg1 → Bool
  | .reg _ => false
  | .ind _ => true

/-- The register number of an arg1 (R82). -/
def Arg1.value : Arg1 → BitVec 4
  | .reg i => i
  | .ind i => i

/-- The register flag of an arg2 (R84). -/
def Arg2.regFlag : Arg2 → Bool
  | .reg _ => true
  | .ind _ => true
  | .imm _ => false
  | .const _ => false

/-- The address-or-immediate flag of an arg2 (R84). -/
def Arg2.addrFlag : Arg2 → Bool
  | .reg _ => false
  | .ind _ => true
  | .imm _ => true
  | .const _ => false

/-- The 19-bit value of an arg2 (R83). -/
def Arg2.value : Arg2 → BitVec 19
  | .reg i => i
  | .ind i => i
  | .imm v => v
  | .const k => k

/-- The word of an opcode number and operands: the table of R97, unused fields 0 (R102). -/
def encOperands (n : BitVec 6) : Operands → Word
  | .none => encStd n false 0 false false 0
  | .one a => encStd n false 0 a.regFlag a.addrFlag a.value
  | .two d a => encStd n d.addrFlag d.value a.regFlag a.addrFlag a.value
  | .jump t => encJmp n t

/-- The word of an instruction under an opcode map; none when the map has no row for it, or one of another
operand class. -/
def encode (m : OpcodeMap) (i : Instr) : Option Word :=
  (m.rowOf i.op).bind
    (fun row => if i.operands.cls = row.cls then some (encOperands row.number i.operands) else none)

/-! ### The host's reading of a table row -/

/-- The instruction the decoder reads, under the spec's opcode map, from the low `nbits` bits of `w`
(every bit above them 0): an instruction is one 32-bit word (R80), so the bits are that word. -/
def decodeTableWord (nbits w : Nat) : Option Instr :=
  match decode OpcodeMap.standard (BitVec.ofNat 32 (w % 2 ^ nbits)) with
  | .ok i => some i
  | .error _ => none

end Sys2Proof
end

