-- ==== Sys2Proof/Machine/State.lean ====
section
/-! DEFINITION. The state of the litavm core (10_state.md), the reasons it stops, and reset.

The parameters of 00_scope.md R10 and the program artifact (10_state.md R35) are arguments of the spec's
step relation that no instruction changes; `Host.Core.step` has no other argument than the state, so they
are fields of it (log 1). -/

namespace Sys2Proof.Machine

/-- The seven fault causes of 60_exceptions.md R302, each with the `info` it records.  They are the
spec's own; a step that meets one answers a next state whose status records it (R301, log 6). -/
inductive Cause where
  /-- Code 1 (R303): the fetched word's opcode is not in OPCODE_MAP. -/
  | unrecognizedOpcode (w : Word)
  /-- Code 2 (R304): the divisor of a DIV or MOD instruction is zero. -/
  | divideByZero
  /-- Code 3 (R305): a decoded operand's register number is above 11; the number, zero-extended. -/
  | illegalRegister (i : BitVec 19)
  /-- Code 4 (R306): a load-constant word whose arg2 is not of form CONST. -/
  | illegalOperandForm (w : Word)
  /-- Code 5 (R308): a constant index at or above NCONST. -/
  | constantIndexOutOfRange (i : BitVec 19)
  /-- Code 6 (R307): an access with `unsigned(a) + n > MEM_SIZE`; its first byte address. -/
  | memoryAccessOutOfRange (a : Word)
  /-- Code 7 (R309): `pc` has bit 31 set at a fetch. -/
  | fetchOutOfRange (pc : Word)
deriving DecidableEq, Repr

/-- `status` (10_state.md R34). -/
inductive Status where
  | running
  | halted
  | faulted (cause : Cause) (fpc : Word)
deriving DecidableEq, Repr

/-- A print event of the output stream (44_print.md R230). -/
inductive OutEvent where
  | outI (v : Word)
  | outF (v : Word)
  | outB (v : Byte)
  | outC (v : Byte)
deriving DecidableEq, Repr

/-- The index of a register cell, 0 to 11 (10_state.md R20, R21). -/
abbrev RegIdx := Fin 12

/-- Data memory: (address, byte) pairs, addresses strictly rising, no pair holding what an unlisted
address reads as (`Memory.wf`). -/
abbrev Memory := List Host.Cell

/-- The parameters of R10 that the datapath reads (log 1). -/
structure Params where
  /-- MEM_SIZE, the number of bytes of data memory (20_memory.md R50). -/
  memSize : Nat
  /-- BYTE_ORDER (20_memory.md R54). -/
  byteOrder : ByteOrder
  /-- FLOAT_IMM (40_operands.md R147). -/
  floatImm : FloatImm
  /-- NAN_RESULT (45_arithmetic.md R242). -/
  nanResult : NanResult
  /-- OPCODE_MAP: number, spelling and operand class of each instruction (30_encoding.md R100). -/
  opcodes : OpcodeMap
deriving DecidableEq, Repr

/-- The parameter values 00_scope.md R10 names as defaults. -/
def Params.default : Params :=
  { memSize := 64, byteOrder := .big, floatImm := .convert, nanResult := .canonical,
    opcodes := OpcodeMap.standard }

/-- What the datapath reads of the program artifact (10_state.md R35): `IMem` and `CAT`; LEN and NCONST
are their lengths, ENTRY is 0. -/
structure Program where
  imem : List Word
  cat : List Word
deriving DecidableEq, Repr

/-- The machine's state. -/
structure State where
  /-- The register file `x[0]` to `x[11]` (10_state.md R20). -/
  regs : Vector Word 12
  /-- The data memory `Mem` (20_memory.md R50). -/
  mem : Memory
  /-- The output stream `Out`, oldest event first (10_state.md R39). -/
  out : List OutEvent
  /-- `status` (10_state.md R34). -/
  status : Status
  /-- The parameters (00_scope.md R10); never changed by a step. -/
  params : Params
  /-- The program artifact (10_state.md R35); never changed by a step. -/
  prog : Program
  /-- The MODEL's own counter of free NaN patterns drawn (log 3); not the spec's. -/
  draws : Nat
deriving DecidableEq, Repr

/-- Why no step can be taken.  A fault of the spec is not one of these: it is a next state (log 6). -/
inductive Fault where
  /-- Raised by `step` in status Halted: the run has ended normally and no step is taken
  (60_exceptions.md R312, 70_reset_and_hazards.md R335).  Safe (log 7). -/
  | machineHalted
  /-- Raised by `step` in status Faulted: the run has ended with the recorded cause and no step is taken
  (R312).  Safe (log 7). -/
  | machineFaulted (cause : Cause) (fpc : Word)
deriving DecidableEq, Repr

/-- Why an instruction is given no meaning. -/
inductive Refusal where
  /-- Raised by `exec` for an instruction of the table that has no meaning yet; no arm answers so.  Safe. -/
  | notModelled (mnemonic : String)
deriving DecidableEq, Repr

/-- The machine right after reset (10_state.md R36, 70_reset_and_hazards.md R330) with the default
parameters of R10 and no program: LEN = 0, NCONST = 0, HEAP_START = 0.  `Machine.launch` is reset with
every other choice (log 5). -/
def State.reset : State :=
  { regs := #v[63, 0, 0, 0, 0, 0, 0, 0, 0, 0, 0, 0]
    mem := []
    out := []
    status := .running
    params := Params.default
    prog := { imem := [], cat := [] }
    draws := 0 }

end Sys2Proof.Machine
end

