-- ==== Sys2Proof/Machine/Ops.lean ====
section
/-! DEFINITION. The named operations over registers, memory, the output stream and status: the primitives
of 00_scope.md R13, and `raise` (60_exceptions.md R301), the one way an instruction takes a fault. -/

namespace Sys2Proof.Machine

/-! ### Registers (10_state.md R20 to R32) -/

/-- The stack pointer is cell 0 (R22). -/
abbrev RegIdx.sp : RegIdx := 0

/-- The program counter is cell 1 (R23). -/
abbrev RegIdx.pc : RegIdx := 1

/-- The return-address register is cell 2 (R24). -/
abbrev RegIdx.ra : RegIdx := 2

/-- The heap-start marker is cell 3 (R25). -/
abbrev RegIdx.heap : RegIdx := 3

/-- `x[i]`. -/
def State.x (s : State) (i : RegIdx) : Word := s.regs[i]

/-- `x[i] <- v`. -/
def State.setX (s : State) (i : RegIdx) (v : Word) : State := { s with regs := s.regs.set i v }

/-- The program counter as it stands. -/
abbrev State.pc (s : State) : Word := s.x RegIdx.pc

/-- `pc <- t`. -/
abbrev State.setPc (s : State) (t : Word) : State := s.setX RegIdx.pc t

/-- The stack pointer as it stands. -/
abbrev State.sp (s : State) : Word := s.x RegIdx.sp

/-- `sp <- a`. -/
abbrev State.setSp (s : State) (a : Word) : State := s.setX RegIdx.sp a

/-- The fetch increment `pc <- k + 1`, made before decode and execution (R32, 40_operands.md R142). -/
def State.postFetch (s : State) : State := s.setPc (s.pc + 1)

/-- `RegRd(B, i)`: the low 8 bits (R28).  `RegRd(I, i)` and `RegRd(F, i)` are `x[i]`. -/
def State.xByte (s : State) (i : RegIdx) : Byte := (s.x i).extractLsb' 0 8

/-- `RegWr(B, i, v)`: the byte, sign-extended (R29).  `RegWr(I, i, v)` and `RegWr(F, i, v)` are
`x[i] <- v`. -/
def State.setXByte (s : State) (i : RegIdx) (v : Byte) : State := s.setX i (v.signExtend 32)

/-! ### Memory as data (20_memory.md) -/

/-- What an unlisted address reads as: memory outside the constant image is 0 at reset (R72, log 13). -/
def Memory.unlisted : Byte := 0

/-- The byte at an address. -/
def Memory.read : Memory → Nat → Byte
  | [], _ => Memory.unlisted
  | (k, v) :: rest, a => if a = k then v else Memory.read rest a

/-- Write a byte, keeping the canonical form: a byte equal to what an unlisted address reads as is
stored by listing nothing. -/
def Memory.write : Memory → Nat → Byte → Memory
  | [], a, b => if b = Memory.unlisted then [] else [(a, b)]
  | (k, v) :: rest, a, b =>
    if a < k then (if b = Memory.unlisted then (k, v) :: rest else (a, b) :: (k, v) :: rest)
    else if a = k then (if b = Memory.unlisted then rest else (a, b) :: rest)
    else (k, v) :: Memory.write rest a b

/-- The canonical form: addresses strictly rising, no pair holding the unlisted byte. -/
def Memory.wf (m : Memory) : Bool :=
  decide (m.Pairwise (fun c d => c.1 < d.1)) && m.all (fun c => c.2 != Memory.unlisted)

/-- The byte of a 4-byte datum that lies at offset `i` (0 to 3) from its address (R53). -/
def wordByte (o : ByteOrder) (v : Word) (i : Nat) : Byte :=
  match o with
  | .big => v.extractLsb' (8 * (3 - i)) 8
  | .little => v.extractLsb' (8 * i) 8

/-- The 4-byte datum made of the bytes at an address and the three above it (R52). -/
def Memory.readWord (o : ByteOrder) (m : Memory) (a : Nat) : Word :=
  match o with
  | .big => m.read a ++ m.read (a + 1) ++ m.read (a + 2) ++ m.read (a + 3)
  | .little => m.read (a + 3) ++ m.read (a + 2) ++ m.read (a + 1) ++ m.read a

/-- Store a 4-byte datum (R53). -/
def Memory.writeWord (o : ByteOrder) (m : Memory) (a : Nat) (v : Word) : Memory :=
  (((m.write a (wordByte o v 0)).write (a + 1) (wordByte o v 1)).write (a + 2) (wordByte o v 2)).write
    (a + 3) (wordByte o v 3)

/-! ### Memory accesses of the datapath -/

/-- `unsigned_32(a) + n <= MEM_SIZE`, mathematical addition (R51). -/
def State.inRange (s : State) (a : Word) (n : Nat) : Bool := a.toNat + n ≤ s.params.memSize

/-- `MemRead(a, 1)` (R52). -/
def State.memReadByte (s : State) (a : Word) : Except Cause Byte :=
  if s.inRange a 1 then .ok (s.mem.read a.toNat) else .error (.memoryAccessOutOfRange a)

/-- `MemRead(a, 4)` (R52). -/
def State.memReadWord (s : State) (a : Word) : Except Cause Word :=
  if s.inRange a 4 then .ok (s.mem.readWord s.params.byteOrder a.toNat)
  else .error (.memoryAccessOutOfRange a)

/-- `MemWrite(a, 1, v)` (R53). -/
def State.memWriteByte (s : State) (a : Word) (v : Byte) : Except Cause State :=
  if s.inRange a 1 then .ok { s with mem := s.mem.write a.toNat v }
  else .error (.memoryAccessOutOfRange a)

/-- `MemWrite(a, 4, v)`: all four bytes, or none on a range fault (R53). -/
def State.memWriteWord (s : State) (a : Word) (v : Word) : Except Cause State :=
  if s.inRange a 4 then .ok { s with mem := s.mem.writeWord s.params.byteOrder a.toNat v }
  else .error (.memoryAccessOutOfRange a)

/-- `CAT[i]`, with the fault for an index at or above NCONST (40_operands.md R146). -/
def State.constAddr (s : State) (i : BitVec 19) : Except Cause Word :=
  match s.prog.cat[i.toNat]? with
  | some a => .ok a
  | none => .error (.constantIndexOutOfRange i)

/-- `w`, the word the step fetched: `IMem[k]` with `k` the `pc` before the step (40_operands.md R140); 0
where `pc` names no word, which no step executes an instruction at (log 11). -/
def State.fetchedWord (s : State) : Word := s.prog.imem[s.pc.toNat]?.getD 0

/-! ### Output, status, faults -/

/-- `emit Out(kind, v)` (44_print.md R230). -/
def State.emit (s : State) (e : OutEvent) : State := { s with out := s.out ++ [e] }

/-- The machine halts: only `status` changes (40_operands.md R141). -/
def State.halt (s : State) : State := { s with status := .halted }

/-- `raise C(info)` seen from the state before the step: every write of the step is discarded, `pc` is
the faulting index again, and `status` records the cause and that index (60_exceptions.md R301).  For
FetchOutOfRange the index is the bad `pc` itself (R309), which is the same field. -/
def State.raise (s : State) (c : Cause) : State := { s with status := .faulted c s.pc }

/-- The fault codes of R302. -/
def Cause.code : Cause → Nat
  | .unrecognizedOpcode _ => 1
  | .divideByZero => 2
  | .illegalRegister _ => 3
  | .illegalOperandForm _ => 4
  | .constantIndexOutOfRange _ => 5
  | .memoryAccessOutOfRange _ => 6
  | .fetchOutOfRange _ => 7

/-- A step is a transaction (40_operands.md R140): the body, run on the post-fetch state, either takes
effect whole or raises a fault that leaves the state before the step. -/
def transact (s : State) (body : State → Except Cause State) :
    Host.Outcome State Fault Refusal :=
  match body s.postFetch with
  | .ok s' => .next s'
  | .error c => .next (s.raise c)

/-! ### NaN results (45_arithmetic.md R242 (d)) -/

/-- The canonical quiet NaN. -/
def canonicalNan : Word := 0x7FC00000#32

/-- A NaN pattern made of 32 free bits: exponent all ones, fraction not zero, sign and fraction as the
bits have them.  Every NaN pattern arises (log 3). -/
def nanPattern (v : Word) : Word :=
  if (v.extractLsb' 0 23) = 0#23 then v ||| canonicalNan else v ||| 0x7F800000#32

/-- The pattern of a NaN result: the canonical one, or a fresh free one under NAN_RESULT = any. -/
def State.drawNan (s : State) : Word × State :=
  match s.params.nanResult with
  | .canonical => (canonicalNan, s)
  | .any => (nanPattern (Config.freeNan s.draws), { s with draws := s.draws + 1 })

end Sys2Proof.Machine
end

