-- ==== Sys2Proof/Machine/Operands.lean ====
section
/-! DEFINITION. Operand resolution (40_operands.md): the register-index check, the source operand `A2`, the
destination operand `A1Rd` and `A1Wr`, and the shapes of the three operand classes.

The integer and the float lane move words and differ only in how an immediate enters them (R147); the
byte lane moves bytes.  So each operation stands twice, for words (with the lane) and for bytes. -/

namespace Sys2Proof.Machine

/-! ### Resolved operands (R143, R145) -/

/-- A destination descriptor `D` whose register number names a register. -/
inductive Dst where
  | reg (r : RegIdx)
  | ind (r : RegIdx)
deriving DecidableEq, Repr

/-- A source descriptor `S` whose register number, if it has one, names a register. -/
inductive Src where
  | reg (r : RegIdx)
  | ind (r : RegIdx)
  | imm (v : BitVec 19)
  | const (k : BitVec 19)
deriving DecidableEq, Repr

/-- The register a number names, or the fault IllegalRegister (R145). -/
def regIdx (i : BitVec 19) : Except Cause RegIdx :=
  if h : i.toNat < 12 then .ok ⟨i.toNat, h⟩ else .error (.illegalRegister i)

/-- The register-index check of arg1 (R145). -/
def resolve1 : Arg1 → Except Cause Dst
  | .reg i => (regIdx (i.setWidth 19)).map .reg
  | .ind i => (regIdx (i.setWidth 19)).map .ind

/-- The register-index check of arg2 (R145); the forms IMM and CONST name no register. -/
def resolve2 : Arg2 → Except Cause Src
  | .reg i => (regIdx i).map .reg
  | .ind i => (regIdx i).map .ind
  | .imm v => .ok (.imm v)
  | .const k => .ok (.const k)

/-- The implicit destination of a class-1 instruction: the same register with the same address flag, or
none (R150). -/
def Src.implicitDst : Src → Option Dst
  | .reg r => some (.reg r)
  | .ind r => some (.ind r)
  | .imm _ => none
  | .const _ => none

/-- The address an indirect destination stores to: the whole 32-bit cell, whatever the lane
(10_state.md R30, R149). -/
def Dst.addr : Dst → State → Option Word
  | .reg _, _ => none
  | .ind r, s => some (s.x r)

/-! ### The source operand (R146, R147) -/

/-- The two word lanes (R27). -/
inductive WordLane where
  | int
  | float
deriving DecidableEq, Repr

/-- `Imm(I, v)` and `Imm(F, v)` (R147). -/
def immWord (s : State) (lane : WordLane) (v : BitVec 19) : Word :=
  match lane with
  | .int => v.setWidth 32
  | .float =>
    match s.params.floatImm with
    | .convert => i2f v.toNat
    | .reinterpret => v.setWidth 32

/-- `Imm(B, v)`: the low 8 bits (R147). -/
def immByte (v : BitVec 19) : Byte := v.extractLsb' 0 8

/-- `A2(I)` and `A2(F)` (R146). -/
def srcWord (s : State) (lane : WordLane) : Src → Except Cause Word
  | .reg r => .ok (s.x r)
  | .ind r => s.memReadWord (s.x r)
  | .imm v => .ok (immWord s lane v)
  | .const k => do
    let a ← s.constAddr k
    s.memReadWord a

/-- `A2(B)` (R146). -/
def srcByte (s : State) : Src → Except Cause Byte
  | .reg r => .ok (s.xByte r)
  | .ind r => s.memReadByte (s.x r)
  | .imm v => .ok (immByte v)
  | .const k => do
    let a ← s.constAddr k
    s.memReadByte a

/-! ### The destination operand (R148, R149) -/

/-- `A1Rd(I)` and `A1Rd(F)` (R148). -/
def dstReadWord (s : State) : Dst → Except Cause Word
  | .reg r => .ok (s.x r)
  | .ind r => s.memReadWord (s.x r)

/-- `A1Rd(B)` (R148). -/
def dstReadByte (s : State) : Dst → Except Cause Byte
  | .reg r => .ok (s.xByte r)
  | .ind r => s.memReadByte (s.x r)

/-- `A1Wr(I, v)` and `A1Wr(F, v)` (R149). -/
def dstWriteWord (s : State) (d : Dst) (v : Word) : Except Cause State :=
  match d with
  | .reg r => .ok (s.setX r v)
  | .ind r => s.memWriteWord (s.x r) v

/-- `A1Wr(B, v)` (R149). -/
def dstWriteByte (s : State) (d : Dst) (v : Byte) : Except Cause State :=
  match d with
  | .reg r => .ok (s.setXByte r v)
  | .ind r => s.memWriteByte (s.x r) v

/-- `A1Wr` of a class-1 instruction in a word lane: nothing when there is no destination (R149, R150). -/
def implicitWriteWord (s : State) (S : Src) (v : Word) : Except Cause State :=
  match S.implicitDst with
  | none => .ok s
  | some d => dstWriteWord s d v

/-- `A1Wr` of a class-1 instruction in the byte lane (R149, R150). -/
def implicitWriteByte (s : State) (S : Src) (v : Byte) : Except Cause State :=
  match S.implicitDst with
  | none => .ok s
  | some d => dstWriteByte s d v

/-! ### The operand classes (R101, R143, R151 step 1) -/

/-- A class-1 instruction: arg2 is decoded and its register number checked, then the body runs on the
post-fetch state. -/
def class1 (s : State) (a : Arg2) (body : State → Src → Except Cause State) :
    Host.Outcome State Fault Refusal :=
  transact s fun t => do
    let S ← resolve2 a
    body t S

/-- A class-2 instruction: the register numbers of arg1, then of arg2 are checked (R145), then the body
runs on the post-fetch state. -/
def class2 (s : State) (d : Arg1) (a : Arg2) (body : State → Dst → Src → Except Cause State) :
    Host.Outcome State Fault Refusal :=
  transact s fun t => do
    let D ← resolve1 d
    let S ← resolve2 a
    body t D S

/-! ### Read-modify-write (45_arithmetic.md R240, 46_bitwise.md R270): arg2, then arg1, then the write -/

/-- `dest := f(dest, arg2)` in the integer lane. -/
def modifyWord (f : Word → Word → Word) (t : State) (D : Dst) (S : Src) : Except Cause State := do
  let b ← srcWord t .int S
  let a ← dstReadWord t D
  dstWriteWord t D (f a b)

/-- `dest := f(dest, arg2)` in the byte lane. -/
def modifyByte (f : Byte → Byte → Byte) (t : State) (D : Dst) (S : Src) : Except Cause State := do
  let b ← srcByte t S
  let a ← dstReadByte t D
  dstWriteByte t D (f a b)

end Sys2Proof.Machine
end

