-- ==== Sys2Proof/Machine/Arithmetic.lean ====
section
/-! DEFINITION. Arithmetic (45_arithmetic.md): the laws of the three lanes and the fifteen instructions. -/

namespace Sys2Proof.Machine

/-! ### Laws of the integer and the byte lane (R241, R243) -/

/-- `add_I` (R241). -/
def addI (a b : Word) : Word := a + b

/-- `sub_I` (R241). -/
def subI (a b : Word) : Word := a - b

/-- `mul_I`: the low 32 bits (R241). -/
def mulI (a b : Word) : Word := a * b

/-- `div_I`: the signed quotient rounded toward zero, mod 2^32 (R241). -/
def divI (a b : Word) : Word := BitVec.ofInt 32 (a.toInt.tdiv b.toInt)

/-- `mod_I`: `sa - sb * trunc(sa / sb)`, mod 2^32 (R241). -/
def modI (a b : Word) : Word := BitVec.ofInt 32 (a.toInt - b.toInt * a.toInt.tdiv b.toInt)

/-- `add_B` (R243). -/
def addB (a b : Byte) : Byte := a + b

/-- `sub_B` (R243). -/
def subB (a b : Byte) : Byte := a - b

/-- `mul_B` (R243). -/
def mulB (a b : Byte) : Byte := a * b

/-- `div_B` (R243). -/
def divB (a b : Byte) : Byte := BitVec.ofInt 8 (a.toInt.tdiv b.toInt)

/-- `mod_B` (R243). -/
def modB (a b : Byte) : Byte := BitVec.ofInt 8 (a.toInt - b.toInt * a.toInt.tdiv b.toInt)

/-! ### Shapes (R240, R259) -/

/-- A divisor test: DivideByZero when it is zero, after both operands are read and before any write
(R259). -/
def divisorCheck (zero : Bool) : Except Cause Unit :=
  if zero then .error .divideByZero else .ok ()

/-- DIVI and MODI (R240, R259). -/
def divideWord (f : Word → Word → Word) (t : State) (D : Dst) (S : Src) : Except Cause State := do
  let b ← srcWord t .int S
  let a ← dstReadWord t D
  divisorCheck (zeroWord b)
  dstWriteWord t D (f a b)

/-- DIVB and MODB (R240, R259). -/
def divideByte (f : Byte → Byte → Byte) (t : State) (D : Dst) (S : Src) : Except Cause State := do
  let b ← srcByte t S
  let a ← dstReadByte t D
  divisorCheck (zeroByte b)
  dstWriteByte t D (f a b)

/-- The pattern of a float result, with the state after a NaN was drawn if it is one (R242 (d)). -/
def floatResult (t : State) : Option Word → Word × State
  | some v => (v, t)
  | none => t.drawNan

/-- ADDF, SUBF and MULF (R240). -/
def modifyFloat (f : Word → Word → Option Word) (t : State) (D : Dst) (S : Src) :
    Except Cause State := do
  let b ← srcWord t .float S
  let a ← dstReadWord t D
  let r := floatResult t (f a b)
  dstWriteWord r.2 D r.1

/-- DIVF and MODF (R240, R259). -/
def divideFloat (f : Word → Word → Option Word) (t : State) (D : Dst) (S : Src) :
    Except Cause State := do
  let b ← srcWord t .float S
  let a ← dstReadWord t D
  divisorCheck (zeroFloat b)
  let r := floatResult t (f a b)
  dstWriteWord r.2 D r.1

/-! ### The instructions -/

/-- ADDI (R244). -/
def execAddi (d : Arg1) (a : Arg2) (s : State) : Host.Outcome State Fault Refusal :=
  class2 s d a (modifyWord addI)

/-- ADDF (R245). -/
def execAddf (d : Arg1) (a : Arg2) (s : State) : Host.Outcome State Fault Refusal :=
  class2 s d a (modifyFloat fadd)

/-- ADDB (R246). -/
def execAddb (d : Arg1) (a : Arg2) (s : State) : Host.Outcome State Fault Refusal :=
  class2 s d a (modifyByte addB)

/-- SUBI (R247). -/
def execSubi (d : Arg1) (a : Arg2) (s : State) : Host.Outcome State Fault Refusal :=
  class2 s d a (modifyWord subI)

/-- SUBF (R248). -/
def execSubf (d : Arg1) (a : Arg2) (s : State) : Host.Outcome State Fault Refusal :=
  class2 s d a (modifyFloat fsub)

/-- SUBB (R249). -/
def execSubb (d : Arg1) (a : Arg2) (s : State) : Host.Outcome State Fault Refusal :=
  class2 s d a (modifyByte subB)

/-- MULI (R250). -/
def execMuli (d : Arg1) (a : Arg2) (s : State) : Host.Outcome State Fault Refusal :=
  class2 s d a (modifyWord mulI)

/-- MULF (R251). -/
def execMulf (d : Arg1) (a : Arg2) (s : State) : Host.Outcome State Fault Refusal :=
  class2 s d a (modifyFloat fmul)

/-- MULB (R252). -/
def execMulb (d : Arg1) (a : Arg2) (s : State) : Host.Outcome State Fault Refusal :=
  class2 s d a (modifyByte mulB)

/-- DIVI (R253). -/
def execDivi (d : Arg1) (a : Arg2) (s : State) : Host.Outcome State Fault Refusal :=
  class2 s d a (divideWord divI)

/-- DIVF (R254). -/
def execDivf (d : Arg1) (a : Arg2) (s : State) : Host.Outcome State Fault Refusal :=
  class2 s d a (divideFloat fdiv)

/-- DIVB (R255). -/
def execDivb (d : Arg1) (a : Arg2) (s : State) : Host.Outcome State Fault Refusal :=
  class2 s d a (divideByte divB)

/-- MODI (R256). -/
def execModi (d : Arg1) (a : Arg2) (s : State) : Host.Outcome State Fault Refusal :=
  class2 s d a (divideWord modI)

/-- MODF (R257). -/
def execModf (d : Arg1) (a : Arg2) (s : State) : Host.Outcome State Fault Refusal :=
  class2 s d a (divideFloat frem)

/-- MODB (R258). -/
def execModb (d : Arg1) (a : Arg2) (s : State) : Host.Outcome State Fault Refusal :=
  class2 s d a (divideByte modB)

end Sys2Proof.Machine
end

