-- ==== Sys2Proof/Machine/Bitwise.lean ====
section
/-! DEFINITION. Bitwise operations and shifts (46_bitwise.md). -/

namespace Sys2Proof.Machine

/-- `amt(b) = b[4:0]` of an integer-lane operand (R271). -/
def amtWord (b : Word) : Nat := (b.extractLsb' 0 5).toNat

/-- `amt(b) = b[4:0]` of a byte-lane operand (R271). -/
def amtByte (b : Byte) : Nat := (b.extractLsb' 0 5).toNat

/-- `shru_32(a, amt(b))`: zeros enter at the top (R271). -/
def shruI (a b : Word) : Word := a >>> amtWord b

/-- `shrs_32(a, amt(b))`: copies of the sign enter at the top (R271). -/
def shrsI (a b : Word) : Word := a.sshiftRight (amtWord b)

/-- `shl_32(a, amt(b))` (R271). -/
def shlI (a b : Word) : Word := a <<< amtWord b

/-- `shru_8(a, amt(b))`: 0 when the amount is 8 or more (R271). -/
def shruB (a b : Byte) : Byte := a >>> amtByte b

/-- `shrs_8(a, amt(b))`: all copies of the sign when the amount is 7 or more (R271). -/
def shrsB (a b : Byte) : Byte := a.sshiftRight (amtByte b)

/-- `shl_8(a, amt(b))`: 0 when the amount is 8 or more (R271). -/
def shlB (a b : Byte) : Byte := a <<< amtByte b

/-- NOT in the integer lane: the complement of arg2; arg1 is written and not read (R270, R278). -/
def complementWord (t : State) (D : Dst) (S : Src) : Except Cause State := do
  let b ← srcWord t .int S
  dstWriteWord t D (~~~b)

/-- NOT in the byte lane (R270, R279). -/
def complementByte (t : State) (D : Dst) (S : Src) : Except Cause State := do
  let b ← srcByte t S
  dstWriteByte t D (~~~b)

/-- ORI (R272). -/
def execOri (d : Arg1) (a : Arg2) (s : State) : Host.Outcome State Fault Refusal :=
  class2 s d a (modifyWord (fun x y => x ||| y))

/-- ORB (R273). -/
def execOrb (d : Arg1) (a : Arg2) (s : State) : Host.Outcome State Fault Refusal :=
  class2 s d a (modifyByte (fun x y => x ||| y))

/-- ANDI (R274). -/
def execAndi (d : Arg1) (a : Arg2) (s : State) : Host.Outcome State Fault Refusal :=
  class2 s d a (modifyWord (fun x y => x &&& y))

/-- ANDB (R275). -/
def execAndb (d : Arg1) (a : Arg2) (s : State) : Host.Outcome State Fault Refusal :=
  class2 s d a (modifyByte (fun x y => x &&& y))

/-- XORI (R276). -/
def execXori (d : Arg1) (a : Arg2) (s : State) : Host.Outcome State Fault Refusal :=
  class2 s d a (modifyWord (fun x y => x ^^^ y))

/-- XORB (R277). -/
def execXorb (d : Arg1) (a : Arg2) (s : State) : Host.Outcome State Fault Refusal :=
  class2 s d a (modifyByte (fun x y => x ^^^ y))

/-- NOTI (R278). -/
def execNoti (d : Arg1) (a : Arg2) (s : State) : Host.Outcome State Fault Refusal :=
  class2 s d a complementWord

/-- NOTB (R279). -/
def execNotb (d : Arg1) (a : Arg2) (s : State) : Host.Outcome State Fault Refusal :=
  class2 s d a complementByte

/-- SZRLI (R280): logical right shift. -/
def execSzrli (d : Arg1) (a : Arg2) (s : State) : Host.Outcome State Fault Refusal :=
  class2 s d a (modifyWord shruI)

/-- SZRLB (R281): logical right shift. -/
def execSzrlb (d : Arg1) (a : Arg2) (s : State) : Host.Outcome State Fault Refusal :=
  class2 s d a (modifyByte shruB)

/-- SRLI (R282): arithmetic right shift. -/
def execSrli (d : Arg1) (a : Arg2) (s : State) : Host.Outcome State Fault Refusal :=
  class2 s d a (modifyWord shrsI)

/-- SRLB (R283): arithmetic right shift. -/
def execSrlb (d : Arg1) (a : Arg2) (s : State) : Host.Outcome State Fault Refusal :=
  class2 s d a (modifyByte shrsB)

/-- SLLI (R284): left shift. -/
def execSlli (d : Arg1) (a : Arg2) (s : State) : Host.Outcome State Fault Refusal :=
  class2 s d a (modifyWord shlI)

/-- SLLB (R285): left shift. -/
def execSllb (d : Arg1) (a : Arg2) (s : State) : Host.Outcome State Fault Refusal :=
  class2 s d a (modifyByte shlB)

end Sys2Proof.Machine
end

