-- ==== Sys2Proof/Machine/Control.lean ====
section
/-! DEFINITION. Compare-skip, jump, call and return (43_control.md). -/

namespace Sys2Proof.Machine

/-- A comparison that holds has no further effect; one that does not skips the next word (R219 (b)). -/
def skipUnless (t : State) (holds : Bool) : State :=
  if holds then t else t.setPc (t.pc + 1)

/-- Compare-skip in a word lane: arg2, then arg1, which is never written (R219 (a)). -/
def compareWord (lane : WordLane) (holds : Word → Word → Bool) (t : State) (D : Dst) (S : Src) :
    Except Cause State := do
  let b ← srcWord t lane S
  let a ← dstReadWord t D
  .ok (skipUnless t (holds a b))

/-- Compare-skip in the byte lane. -/
def compareByte (holds : Byte → Byte → Bool) (t : State) (D : Dst) (S : Src) :
    Except Cause State := do
  let b ← srcByte t S
  let a ← dstReadByte t D
  .ok (skipUnless t (holds a b))

/-- IFI (R210). -/
def execIfi (d : Arg1) (a : Arg2) (s : State) : Host.Outcome State Fault Refusal :=
  class2 s d a (compareWord .int gtWord)

/-- IFF (R211). -/
def execIff (d : Arg1) (a : Arg2) (s : State) : Host.Outcome State Fault Refusal :=
  class2 s d a (compareWord .float fgt)

/-- IFB (R212). -/
def execIfb (d : Arg1) (a : Arg2) (s : State) : Host.Outcome State Fault Refusal :=
  class2 s d a (compareByte gtByte)

/-- IFEI (R213). -/
def execIfei (d : Arg1) (a : Arg2) (s : State) : Host.Outcome State Fault Refusal :=
  class2 s d a (compareWord .int geWord)

/-- IFEF (R214). -/
def execIfef (d : Arg1) (a : Arg2) (s : State) : Host.Outcome State Fault Refusal :=
  class2 s d a (compareWord .float fge)

/-- IFEB (R215). -/
def execIfeb (d : Arg1) (a : Arg2) (s : State) : Host.Outcome State Fault Refusal :=
  class2 s d a (compareByte geByte)

/-- JMP (R216): `pc` becomes the zero-extended 24-bit target. -/
def execJmp (t : BitVec 24) (s : State) : Host.Outcome State Fault Refusal :=
  transact s fun u => .ok (u.setPc (t.setWidth 32))

/-- CALL (R217): the post-fetch `pc` goes to `r`, then `pc` becomes the target. -/
def execCall (t : BitVec 24) (s : State) : Host.Outcome State Fault Refusal :=
  transact s fun u => .ok ((u.setX RegIdx.ra u.pc).setPc (t.setWidth 32))

/-- RET (R218): `pc` becomes `r`, which keeps its value. -/
def execRet (s : State) : Host.Outcome State Fault Refusal :=
  transact s fun u => .ok (u.setPc (u.x RegIdx.ra))

end Sys2Proof.Machine
end

