-- ==== Sys2Proof/Machine/MoveLoad.lean ====
section
/-! DEFINITION. No-op, move and load-constant instructions (41_move_load.md). -/

namespace Sys2Proof.Machine

/-- NOOP (R170): only the fetch increment. -/
def execNoop (s : State) : Host.Outcome State Fault Refusal :=
  transact s fun t => .ok t

/-- The move of the word lanes: arg2's value to arg1, which is not read (R171, R172). -/
def moveWord (lane : WordLane) (t : State) (D : Dst) (S : Src) : Except Cause State := do
  let v ← srcWord t lane S
  dstWriteWord t D v

/-- The move of the byte lane (R173). -/
def moveByte (t : State) (D : Dst) (S : Src) : Except Cause State := do
  let v ← srcByte t S
  dstWriteByte t D v

/-- The form check of the load-constant family: CONST, or IllegalOperandForm with the fetched word (R178). -/
def requireConst (w : Word) : Src → Except Cause (BitVec 19)
  | .const k => .ok k
  | .reg _ => .error (.illegalOperandForm w)
  | .ind _ => .error (.illegalOperandForm w)
  | .imm _ => .error (.illegalOperandForm w)

/-- Load a constant in a word lane (R174, R175); `w` is the fetched word. -/
def loadConstWord (w : Word) (lane : WordLane) (t : State) (D : Dst) (S : Src) :
    Except Cause State := do
  let k ← requireConst w S
  let v ← srcWord t lane (.const k)
  dstWriteWord t D v

/-- Load a constant in the byte lane (R176). -/
def loadConstByte (w : Word) (t : State) (D : Dst) (S : Src) : Except Cause State := do
  let k ← requireConst w S
  let v ← srcByte t (.const k)
  dstWriteByte t D v

/-- Load a constant's address (R177): `CAT[k]` itself, data memory is not read. -/
def loadConstAddr (w : Word) (t : State) (D : Dst) (S : Src) : Except Cause State := do
  let k ← requireConst w S
  let v ← t.constAddr k
  dstWriteWord t D v

/-- MOVI (R171). -/
def execMovi (d : Arg1) (a : Arg2) (s : State) : Host.Outcome State Fault Refusal :=
  class2 s d a (moveWord .int)

/-- MOVF (R172): the pattern is copied unchanged. -/
def execMovf (d : Arg1) (a : Arg2) (s : State) : Host.Outcome State Fault Refusal :=
  class2 s d a (moveWord .float)

/-- MOVB (R173). -/
def execMovb (d : Arg1) (a : Arg2) (s : State) : Host.Outcome State Fault Refusal :=
  class2 s d a moveByte

/-- LDCI (R174, R178). -/
def execLdci (d : Arg1) (a : Arg2) (s : State) : Host.Outcome State Fault Refusal :=
  class2 s d a (loadConstWord s.fetchedWord .int)

/-- LDCF (R175, R178). -/
def execLdcf (d : Arg1) (a : Arg2) (s : State) : Host.Outcome State Fault Refusal :=
  class2 s d a (loadConstWord s.fetchedWord .float)

/-- LDCB (R176, R178). -/
def execLdcb (d : Arg1) (a : Arg2) (s : State) : Host.Outcome State Fault Refusal :=
  class2 s d a (loadConstByte s.fetchedWord)

/-- LDCA (R177, R178). -/
def execLdca (d : Arg1) (a : Arg2) (s : State) : Host.Outcome State Fault Refusal :=
  class2 s d a (loadConstAddr s.fetchedWord)

end Sys2Proof.Machine
end

