-- ==== Sys2Proof/Machine/Print.lean ====
section
/-! DEFINITION. Print (44_print.md): one event appended to the output stream; no register but `pc` and no memory
byte changes. -/

namespace Sys2Proof.Machine

/-- Print in a word lane (R231, R232). -/
def printWord (lane : WordLane) (event : Word → OutEvent) (t : State) (S : Src) :
    Except Cause State := do
  let v ← srcWord t lane S
  .ok (t.emit (event v))

/-- Print in the byte lane (R233, R234). -/
def printByte (event : Byte → OutEvent) (t : State) (S : Src) : Except Cause State := do
  let v ← srcByte t S
  .ok (t.emit (event v))

/-- PRINTI (R231). -/
def execPrinti (a : Arg2) (s : State) : Host.Outcome State Fault Refusal :=
  class1 s a (printWord .int .outI)

/-- PRINTF (R232). -/
def execPrintf (a : Arg2) (s : State) : Host.Outcome State Fault Refusal :=
  class1 s a (printWord .float .outF)

/-- PRINTB (R233). -/
def execPrintb (a : Arg2) (s : State) : Host.Outcome State Fault Refusal :=
  class1 s a (printByte .outB)

/-- PRINTC (R234). -/
def execPrintc (a : Arg2) (s : State) : Host.Outcome State Fault Refusal :=
  class1 s a (printByte .outC)

end Sys2Proof.Machine
end

