-- ==== Sys2Proof/Machine/Stack.lean ====
section
/-! DEFINITION. Push, pop and duplicate (42_stack.md).  The stack address is the whole 32-bit `sp`, arithmetic on
it wraps, and the amount is the lane width (R199). -/

namespace Sys2Proof.Machine

/-- Push in a word lane (R190, R191): arg2 is read before `sp` changes. -/
def pushWord (lane : WordLane) (t : State) (S : Src) : Except Cause State := do
  let v ← srcWord t lane S
  let u := t.setSp (t.sp - 4)
  u.memWriteWord u.sp v

/-- Push in the byte lane (R192). -/
def pushByte (t : State) (S : Src) : Except Cause State := do
  let v ← srcByte t S
  let u := t.setSp (t.sp - 1)
  u.memWriteByte u.sp v

/-- Pop in a word lane (R193, R194): the operand is resolved and its value not used, the stack is read,
`sp` is raised, and the implicit destination is written last. -/
def popWord (lane : WordLane) (t : State) (S : Src) : Except Cause State := do
  let _ ← srcWord t lane S
  let v ← t.memReadWord t.sp
  implicitWriteWord (t.setSp (t.sp + 4)) S v

/-- Pop in the byte lane (R195). -/
def popByte (t : State) (S : Src) : Except Cause State := do
  let _ ← srcByte t S
  let v ← t.memReadByte t.sp
  implicitWriteByte (t.setSp (t.sp + 1)) S v

/-- Duplicate in a word lane (R196, R197): the top of stack is read, pushed again, and written to the
implicit destination last. -/
def dupWord (lane : WordLane) (t : State) (S : Src) : Except Cause State := do
  let _ ← srcWord t lane S
  let v ← t.memReadWord t.sp
  let u := t.setSp (t.sp - 4)
  let u ← u.memWriteWord u.sp v
  implicitWriteWord u S v

/-- Duplicate in the byte lane (R198). -/
def dupByte (t : State) (S : Src) : Except Cause State := do
  let _ ← srcByte t S
  let v ← t.memReadByte t.sp
  let u := t.setSp (t.sp - 1)
  let u ← u.memWriteByte u.sp v
  implicitWriteByte u S v

/-- PUSHI (R190). -/
def execPushi (a : Arg2) (s : State) : Host.Outcome State Fault Refusal :=
  class1 s a (pushWord .int)

/-- PUSHF (R191). -/
def execPushf (a : Arg2) (s : State) : Host.Outcome State Fault Refusal :=
  class1 s a (pushWord .float)

/-- PUSHB (R192). -/
def execPushb (a : Arg2) (s : State) : Host.Outcome State Fault Refusal :=
  class1 s a pushByte

/-- POPI (R193). -/
def execPopi (a : Arg2) (s : State) : Host.Outcome State Fault Refusal :=
  class1 s a (popWord .int)

/-- POPF (R194). -/
def execPopf (a : Arg2) (s : State) : Host.Outcome State Fault Refusal :=
  class1 s a (popWord .float)

/-- POPB (R195). -/
def execPopb (a : Arg2) (s : State) : Host.Outcome State Fault Refusal :=
  class1 s a popByte

/-- DUPI (R196). -/
def execDupi (a : Arg2) (s : State) : Host.Outcome State Fault Refusal :=
  class1 s a (dupWord .int)

/-- DUPF (R197). -/
def execDupf (a : Arg2) (s : State) : Host.Outcome State Fault Refusal :=
  class1 s a (dupWord .float)

/-- DUPB (R198). -/
def execDupb (a : Arg2) (s : State) : Host.Outcome State Fault Refusal :=
  class1 s a dupByte

end Sys2Proof.Machine
end

