-- ==== Sys2Proof/Machine/Dispatch.lean ====
section
/-! DEFINITION. The meaning of each instruction: one arm per constructor of Instr, in the table's order.
`s` is the state before the step: `pc` is the index of the instruction, and the meaning makes the fetch
increment itself (log 12). -/

namespace Sys2Proof.Machine

def exec (i : Instr) (s : State) : Host.Outcome State Fault Refusal :=
  match i with
  | .noop => Sys2Proof.Machine.execNoop s
  | .movi d a => Sys2Proof.Machine.execMovi d a s
  | .movf d a => Sys2Proof.Machine.execMovf d a s
  | .movb d a => Sys2Proof.Machine.execMovb d a s
  | .ldci d a => Sys2Proof.Machine.execLdci d a s
  | .ldcf d a => Sys2Proof.Machine.execLdcf d a s
  | .ldcb d a => Sys2Proof.Machine.execLdcb d a s
  | .ldca d a => Sys2Proof.Machine.execLdca d a s
  | .pushi a => Sys2Proof.Machine.execPushi a s
  | .pushf a => Sys2Proof.Machine.execPushf a s
  | .pushb a => Sys2Proof.Machine.execPushb a s
  | .popi a => Sys2Proof.Machine.execPopi a s
  | .popf a => Sys2Proof.Machine.execPopf a s
  | .popb a => Sys2Proof.Machine.execPopb a s
  | .dupi a => Sys2Proof.Machine.execDupi a s
  | .dupf a => Sys2Proof.Machine.execDupf a s
  | .dupb a => Sys2Proof.Machine.execDupb a s
  | .ifi d a => Sys2Proof.Machine.execIfi d a s
  | .iff d a => Sys2Proof.Machine.execIff d a s
  | .ifb d a => Sys2Proof.Machine.execIfb d a s
  | .ifei d a => Sys2Proof.Machine.execIfei d a s
  | .ifef d a => Sys2Proof.Machine.execIfef d a s
  | .ifeb d a => Sys2Proof.Machine.execIfeb d a s
  | .jmp t => Sys2Proof.Machine.execJmp t s
  | .call t => Sys2Proof.Machine.execCall t s
  | .ret => Sys2Proof.Machine.execRet s
  | .printi a => Sys2Proof.Machine.execPrinti a s
  | .printf a => Sys2Proof.Machine.execPrintf a s
  | .printb a => Sys2Proof.Machine.execPrintb a s
  | .printc a => Sys2Proof.Machine.execPrintc a s
  | .addi d a => Sys2Proof.Machine.execAddi d a s
  | .addf d a => Sys2Proof.Machine.execAddf d a s
  | .addb d a => Sys2Proof.Machine.execAddb d a s
  | .subi d a => Sys2Proof.Machine.execSubi d a s
  | .subf d a => Sys2Proof.Machine.execSubf d a s
  | .subb d a => Sys2Proof.Machine.execSubb d a s
  | .muli d a => Sys2Proof.Machine.execMuli d a s
  | .mulf d a => Sys2Proof.Machine.execMulf d a s
  | .mulb d a => Sys2Proof.Machine.execMulb d a s
  | .divi d a => Sys2Proof.Machine.execDivi d a s
  | .divf d a => Sys2Proof.Machine.execDivf d a s
  | .divb d a => Sys2Proof.Machine.execDivb d a s
  | .modi d a => Sys2Proof.Machine.execModi d a s
  | .modf d a => Sys2Proof.Machine.execModf d a s
  | .modb d a => Sys2Proof.Machine.execModb d a s
  | .ori d a => Sys2Proof.Machine.execOri d a s
  | .orb d a => Sys2Proof.Machine.execOrb d a s
  | .andi d a => Sys2Proof.Machine.execAndi d a s
  | .andb d a => Sys2Proof.Machine.execAndb d a s
  | .xori d a => Sys2Proof.Machine.execXori d a s
  | .xorb d a => Sys2Proof.Machine.execXorb d a s
  | .noti d a => Sys2Proof.Machine.execNoti d a s
  | .notb d a => Sys2Proof.Machine.execNotb d a s
  | .szrli d a => Sys2Proof.Machine.execSzrli d a s
  | .szrlb d a => Sys2Proof.Machine.execSzrlb d a s
  | .srli d a => Sys2Proof.Machine.execSrli d a s
  | .srlb d a => Sys2Proof.Machine.execSrlb d a s
  | .slli d a => Sys2Proof.Machine.execSlli d a s
  | .sllb d a => Sys2Proof.Machine.execSllb d a s

end Sys2Proof.Machine
end

