-- ==== Sys2Proof/Machine/Fetch.lean ====
section
/-! DEFINITION. Fetch and decode, steps 1 and 2 of 10_state.md R32 and 40_operands.md R140, and the placing
of one word where the next fetch finds it. -/

namespace Sys2Proof.Machine

/-- What the fetch and the decode give: an instruction to execute (`.ok`), or the state of a step that
executes none (`.error`): FetchOutOfRange when `pc` has bit 31 set, Halted when `pc >= LEN` as signed
numbers, UnrecognizedOpcode when the word's opcode is not in the map (R140, R141, 30_encoding.md R103).
With bit 31 clear the signed value of `pc` is its unsigned value, so `pc >= LEN` says that `IMem` has no
such index. -/
def State.fetchInstr (s : State) : Except State Instr :=
  if s.pc.msb then .error (s.raise (.fetchOutOfRange s.pc))
  else
    match s.prog.imem[s.pc.toNat]? with
    | none => .error s.halt
    | some w =>
      match decode s.params.opcodes w with
      | .error (.unrecognizedOpcode v) => .error (s.raise (.unrecognizedOpcode v))
      | .ok i => .ok i

/-- The list with element `k` set to `w`, padded with zero words (NOOP) where it is too short. -/
def placeWord (l : List Word) (k : Nat) (w : Word) : List Word :=
  l.take k ++ List.replicate (k - l.length) 0 ++ w :: l.drop (k + 1)

/-- The state with the low `nbits` bits of `w` as the word at `pc`, the status Running, and a `pc` that no
fetch can use set to 0 (log 5). -/
def State.placeFetchWord (s : State) (nbits w : Nat) : State :=
  let t := if s.pc.msb then s.setPc 0 else s
  { t with
    status := .running
    prog := { t.prog with
      imem := placeWord t.prog.imem t.pc.toNat (BitVec.ofNat 32 (w % 2 ^ nbits)) } }

end Sys2Proof.Machine
end

