-- ==== Sys2Proof/Machine/Step.lean ====
section
/-! DEFINITION. One step (40_operands.md R140). -/

namespace Sys2Proof.Machine

/-- One step: taken only in status Running (R140); Halted and Faulted are terminal (60_exceptions.md
R312). -/
def step (s : State) : Host.Outcome State Fault Refusal :=
  match s.status with
  | .halted => .fault .machineHalted
  | .faulted c k => .fault (.machineFaulted c k)
  | .running =>
    match s.fetchInstr with
    | .error t => .next t
    | .ok i => exec i s

/-- The state with one instruction stored where `step` fetches its next one (log 5). -/
def State.withFetchWord (s : State) (nbits w : Nat) : State := s.placeFetchWord nbits w

end Sys2Proof.Machine
end

