-- ==== Sys2Proof/Machine/Text.lean ====
section
/-! DEFINITION. Numerals and letter case, shared by the assembler, the disassembler and the rendering of
printed numbers. -/

namespace Sys2Proof.Machine

/-- The character of a digit below 16; hexadecimal digits are upper case (log 9). -/
def digitChar (d : Nat) : Char :=
  if d < 10 then Char.ofNat (48 + d) else Char.ofNat (55 + d)

/-- The digits of `n` in a base, most significant first, no leading zero; `fuel` bounds their number. -/
def digitsFuel (base : Nat) : Nat → Nat → List Char
  | 0, _ => []
  | fuel + 1, n =>
    if n < base then [digitChar n] else digitsFuel base fuel (n / base) ++ [digitChar (n % base)]

/-- The decimal numeral of a number. -/
def showNat (n : Nat) : List Char := digitsFuel 10 (n + 1) n

/-- Exactly `k` hexadecimal digits of a number, most significant first. -/
def showHex : Nat → Nat → List Char
  | 0, _ => []
  | k + 1, n => showHex k (n / 16) ++ [digitChar (n % 16)]

/-- The decimal numeral of an integer, with a leading `-` when it is negative (44_print.md R235). -/
def showInt (n : Int) : List Char :=
  if n < 0 then '-' :: showNat n.natAbs else showNat n.natAbs

/-- The value of a digit character, either case for the letters. -/
def digitVal (c : Char) : Option Nat :=
  if '0' ≤ c ∧ c ≤ '9' then some (c.toNat - 48)
  else if 'A' ≤ c ∧ c ≤ 'F' then some (c.toNat - 55)
  else if 'a' ≤ c ∧ c ≤ 'f' then some (c.toNat - 87)
  else none

/-- Read digits of a base onto the number read so far. -/
def readDigits (base : Nat) : List Char → Nat → Option Nat
  | [], acc => some acc
  | c :: rest, acc =>
    match digitVal c with
    | none => none
    | some d => if d < base then readDigits base rest (acc * base + d) else none

/-- The number a non-empty string of digits of a base denotes. -/
def parseNat (base : Nat) : List Char → Option Nat
  | [] => none
  | c :: rest => readDigits base (c :: rest) 0

/-- Two texts are the same but for the case of letters.  That only the ASCII letters have a case is the model's
choice (log 9). -/
def sameText (a b : List Char) : Bool := a.map Char.toUpper == b.map Char.toUpper

end Sys2Proof.Machine
end

