-- ==== Sys2Proof/Machine/Disasm.lean ====
section
/-! DEFINITION. Disassembly (30_encoding.md R111): total, and never a fault. -/

namespace Sys2Proof.Machine

/-- `REG_NAMES`, the 12 register names in index order (00_scope.md R10). -/
abbrev RegNames := List (List Char)

/-- The names of 10_state.md R21. -/
def RegNames.standard : RegNames :=
  ["$sp".toList, "$pc".toList, "$r".toList, "$h".toList, "$a".toList, "$b".toList, "$c".toList,
    "$d".toList, "$i".toList, "$j".toList, "$k".toList, "$u".toList]

/-- The constraint of R10: 12 names, distinct whatever the case of their letters, the ASCII letters alone by
the model's choice (log 9). -/
def RegNames.valid (names : RegNames) : Bool :=
  names.length == 12 && decide ((names.map (fun t => t.map Char.toUpper)).Nodup)

/-- The name of a register number; a number above 11 renders as `$?` and the number (R111). -/
def RegNames.name (names : RegNames) (i : Nat) : List Char :=
  names[i]?.getD ("$?".toList ++ showNat i)

/-- The text of arg1 (R111). -/
def showArg1 (names : RegNames) : Arg1 → List Char
  | .reg i => names.name i.toNat
  | .ind i => '&' :: names.name i.toNat

/-- The text of arg2; a constant by its pool index, since the word does not hold its name (R111). -/
def showArg2 (names : RegNames) : Arg2 → List Char
  | .reg i => names.name i.toNat
  | .ind i => '&' :: names.name i.toNat
  | .imm v => '#' :: showNat v.toNat
  | .const k => '.' :: showNat k.toNat

/-- The operand texts of an instruction. -/
def showOperands (names : RegNames) : Operands → List (List Char)
  | .none => []
  | .one a => [showArg2 names a]
  | .two d a => [showArg1 names d, showArg2 names a]
  | .jump t => ['#' :: showNat t.toNat]

/-- One line: the mnemonic and the operands with one space before each. -/
def showLine (names : RegNames) (mnemonic : List Char) (operands : Operands) : List Char :=
  mnemonic ++ (showOperands names operands).flatMap (fun t => ' ' :: t)

/-- `disasm(w, regName, opName)` (R111), the mnemonic as the opcode map spells it: an unassigned opcode
renders as `??? 0x` and the word in eight hexadecimal digits. -/
def disasm (m : OpcodeMap) (names : RegNames) (w : Word) : List Char :=
  match decodeRow m w with
  | some (row, i) => showLine names row.name i.operands
  | none => "??? 0x".toList ++ showHex 8 w.toNat

end Sys2Proof.Machine
end

