-- ==== Sys2Proof/Machine/Loader.lean ====
section
/-! DEFINITION. The program artifact, the constant-pool image, and reset for one run (20_memory.md R62 to
R66, 10_state.md R35, 70_reset_and_hazards.md R330, R331). -/

namespace Sys2Proof.Machine

/-- A program artifact: the instruction words, the entry offset and the length it carries (10_state.md
R35), and the two constant pools in slot order, numeric constants as their 32-bit patterns and string
constants as their bytes (20_memory.md R62 to R64). -/
structure Artifact where
  words : List Word
  entry : Nat
  len : Nat
  nums : List Word
  strs : List (List Byte)
deriving DecidableEq, Repr

/-- The addresses of string constants packed from an address on, each with a zero byte after it (R64). -/
def strAddrs : Nat → List (List Byte) → List Nat
  | _, [] => []
  | a, b :: rest => a :: strAddrs (a + b.length + 1) rest

/-- The constant-address table in slot order: numeric entry `j` at `4 * j` (R63), then the strings
(R64, R65). -/
def Artifact.constAddrs (p : Artifact) : List Nat :=
  (List.range p.nums.length).map (fun j => 4 * j) ++ strAddrs (4 * p.nums.length) p.strs

/-- `CAT` (R65). -/
def Artifact.cat (p : Artifact) : List Word := p.constAddrs.map (BitVec.ofNat 32)

/-- HEAP_START: the first address after the last constant (R66). -/
def Artifact.heapStart (p : Artifact) : Nat :=
  4 * p.nums.length + (p.strs.map (fun b => b.length + 1)).sum

/-- Write numeric constants, one word each, from an address on (R63). -/
def writeWords (o : ByteOrder) (m : Memory) : Nat → List Word → Memory
  | _, [] => m
  | a, v :: rest => writeWords o (m.writeWord o a v) (a + 4) rest

/-- Write bytes from an address on. -/
def writeBytes (m : Memory) : Nat → List Byte → Memory
  | _, [] => m
  | a, b :: rest => writeBytes (m.write a b) (a + 1) rest

/-- Write string constants, each its bytes and one zero byte, packed from an address on (R64). -/
def writeStrings (m : Memory) : Nat → List (List Byte) → Memory
  | _, [] => m
  | a, b :: rest => writeStrings (writeBytes m a (b ++ [0])) (a + b.length + 1) rest

/-- The constant-pool image over memory that is otherwise as at reset (R59, R63, R64, R72). -/
def Artifact.image (p : Artifact) (o : ByteOrder) : Memory :=
  writeStrings (writeWords o [] 0 p.nums) (4 * p.nums.length) p.strs

/-- Why a launch is refused: each a broken requirement of R331 or a constraint of 00_scope.md R10.  It is
the loader's answer, not a fault of the core. -/
inductive LaunchError where
  /-- MEM_SIZE is not 1 to 2^31 (R331 item 1). -/
  | memSize
  /-- The constant image does not fit in memory (R331 item 2, R66). -/
  | imageTooLarge
  /-- More than 2^19 constants (00_scope.md R10). -/
  | tooManyConstants
  /-- A non-zero entry offset: sub-range execution (R331 item 4, 10_state.md R35). -/
  | entryNotZero
  /-- A length other than the number of words (R331 item 4, 10_state.md R35). -/
  | lengthMismatch
  /-- More than 2^31 - 1 instruction words (10_state.md R32). -/
  | programTooLong
  /-- An opcode map that cannot stand as OPCODE_MAP (00_scope.md R10, log 2). -/
  | opcodeMap
deriving DecidableEq, Repr

/-- The register file at reset: `sp = MEM_SIZE - 1`, `h = HEAP_START`, every other cell 0 (R330). -/
def resetRegs (memSize heapStart : Nat) : Vector Word 12 :=
  #v[BitVec.ofNat 32 (memSize - 1), 0, 0, BitVec.ofNat 32 heapStart, 0, 0, 0, 0, 0, 0, 0, 0]

/-- The state after reset for an artifact (R330). -/
def resetWith (p : Params) (a : Artifact) : State :=
  { regs := resetRegs p.memSize a.heapStart
    mem := a.image p.byteOrder
    out := []
    status := .running
    params := p
    prog := { imem := a.words, cat := a.cat }
    draws := 0 }

/-- Load an artifact and reset, or refuse the launch (R331). -/
def launch (p : Params) (a : Artifact) : Except LaunchError State :=
  if p.memSize = 0 ∨ 2 ^ 31 < p.memSize then .error .memSize
  else if p.memSize < a.heapStart then .error .imageTooLarge
  else if 2 ^ 19 < a.nums.length + a.strs.length then .error .tooManyConstants
  else if a.entry ≠ 0 then .error .entryNotZero
  else if a.len ≠ a.words.length then .error .lengthMismatch
  else if 2 ^ 31 ≤ a.words.length then .error .programTooLong
  else if p.opcodes.valid = false then .error .opcodeMap
  else .ok (resetWith p a)

end Sys2Proof.Machine
end

