-- ==== Sys2Proof/Machine/Assembler.lean ====
section
/-! DEFINITION. The assembler's observable behaviour (30_encoding.md R118 to R135, static faults
60_exceptions.md R315).  It is software outside the hardware block (00_scope.md R5) and gives the artifact
the loader takes.  Points no rule fixes are log 9. -/

namespace Sys2Proof.Machine

/-- A token, its quote characters dropped. -/
abbrev Token := List Char

/-- The parse faults of R315, and the refusal of a string constant outside 7-bit ASCII (20_memory.md R64,
93 U23). -/
inductive ParseFaultKind where
  | malformedTokens
  | unknownMnemonic
  /-- The token that names no register, a leading `&` dropped (R122). -/
  | unknownRegister (name : Token)
  | malformedOperand
  | immediateTooLarge
  | undefinedConstant
  | undefinedLabel
  | illegalConstant
  | nonAsciiString
deriving DecidableEq, Repr

/-- A parse fault with the 1-based number of its source line (R119, R315). -/
structure ParseFault where
  kind : ParseFaultKind
  line : Nat
deriving DecidableEq, Repr

/-! ### Lines and tokens (R118, R119) -/

/-- The lines of a text.  What ends a line is the model's choice: the line feed alone (log 9). -/
def splitLines : List Char → List (List Char)
  | [] => [[]]
  | c :: rest =>
    match c == '\n', splitLines rest with
    | true, ls => [] :: ls
    | false, l :: ls => (c :: l) :: ls
    | false, [] => [[c]]

/-- A line without its leading and trailing whitespace (R119).  That whitespace is space, tab, carriage return
and line feed, and no other character, is the model's choice (log 9). -/
def trim (l : List Char) : List Char :=
  ((l.dropWhile Char.isWhitespace).reverse.dropWhile Char.isWhitespace).reverse

/-- The scan of R119.  `quoted` is the string mode, `started` says that a token has begun, `cur` holds its
characters, last first. -/
def scan (quoted started : Bool) (cur : List Char) : List Char → List Token
  | [] => if started then [cur.reverse] else []
  | c :: rest =>
    if c = '"' then scan (!quoted) true cur rest
    else if quoted then scan true true (c :: cur) rest
    else if c = ';' then (if started then [cur.reverse] else [])
    else if c = ' ' then
      (if started then cur.reverse :: scan false false [] rest else scan false false [] rest)
    else scan false true (c :: cur) rest

/-- The tokens of a line. -/
def tokenize (l : List Char) : List Token := scan false false [] (trim l)

/-- The lines that hold tokens, each with its source line number (R119). -/
def sourceLines (src : List Char) : List (Nat × List Token) :=
  (((splitLines src).map tokenize).zipIdx 1).filterMap
    (fun p => if p.1.isEmpty then none else some (p.2, p.1))

/-- The kind of a line, by its first token (R120). -/
inductive LineKind where
  | label (name : Token) (rest : List Token)
  | constant (name : Token) (rest : List Token)
  | instruction (mnemonic : Token) (args : List Token)
deriving DecidableEq, Repr

/-- Classify a line's tokens (R120). -/
def lineKind : List Token → LineKind
  | (':' :: name) :: rest => .label (':' :: name) rest
  | ('.' :: name) :: rest => .constant ('.' :: name) rest
  | t :: rest => .instruction t rest
  | [] => .instruction [] []

/-! ### Constants, pass 1 (R125, R128, R129; 20_memory.md R62 to R64) -/

/-- A typed literal: an integer and a float never share a slot, whatever their values (R63, D28). -/
inductive Literal where
  | int (v : Word)
  | float (v : Word)
  | str (b : List Byte)
deriving DecidableEq, Repr

/-- A decimal integer with an optional sign (R129).  That `+` may stand beside `-`, and the prefixes of R124 may
not, is the model's choice (log 9). -/
def parseInt : Token → Option Int
  | '-' :: ds => (parseNat 10 ds).map (fun n => -(n : Int))
  | '+' :: ds => (parseNat 10 ds).map (fun n => (n : Int))
  | ds => (parseNat 10 ds).map (fun n => (n : Int))

/-- The exponent part of a float literal: absent, or `e` and a signed decimal number. -/
def parseExponent : List Char → Option Int
  | [] => some 0
  | 'e' :: ds => parseInt ds
  | 'E' :: ds => parseInt ds
  | _ :: _ => none

/-- The pattern of `digits * 10 ^ e`, rounded to binary32 (R129). -/
def floatOfDecimal (neg : Bool) (digits : Nat) (e : Int) : Word :=
  roundTo neg (digits * 10 ^ e.toNat * 2 ^ 149) (10 ^ (-e).toNat)

/-- An unsigned float literal: digits, a point, digits, at least one digit in all, and an optional
exponent (log 9). -/
def parseUnsignedFloat (neg : Bool) (t : Token) : Option Word :=
  let whole := t.takeWhile Char.isDigit
  match t.dropWhile Char.isDigit with
  | '.' :: rest =>
    let frac := rest.takeWhile Char.isDigit
    match parseNat 10 (whole ++ frac), parseExponent (rest.dropWhile Char.isDigit) with
    | some n, some e => some (floatOfDecimal neg n (e - frac.length))
    | _, _ => none
  | _ => none

/-- A float literal: an optional sign and an unsigned float literal. -/
def parseFloat : Token → Option Word
  | '-' :: t => parseUnsignedFloat true t
  | '+' :: t => parseUnsignedFloat false t
  | t => parseUnsignedFloat false t

/-- The bytes of a string constant: 7-bit ASCII, one byte a character (20_memory.md R64). -/
def stringBytes (t : Token) : Except ParseFaultKind Literal :=
  if t.all (fun c => c.toNat < 128) then .ok (.str (t.map (fun c => BitVec.ofNat 8 c.toNat)))
  else .error .nonAsciiString

/-- The integer parse of R129: one that fits 32-bit two's complement. -/
def parseInt32 (t : Token) : Option Word :=
  match parseInt t with
  | some n => if -(2 ^ 31) ≤ n ∧ n < 2 ^ 31 then some (BitVec.ofInt 32 n) else none
  | none => none

/-- Type a literal (R129): an integer, else a float when it holds a point, else a string.  An integer
outside 32 bits fails the integer parse, and so is a string (DEDUCED, log 9). -/
def typeLiteral (t : Token) : Except ParseFaultKind Literal :=
  match parseInt32 t with
  | some v => .ok (.int v)
  | none =>
    if t.contains '.' then
      match parseFloat t with
      | some v => .ok (.float v)
      | none => stringBytes t
    else stringBytes t

/-- The slot of a pool entry before the size of the numeric pool is known (20_memory.md R62). -/
inductive Slot where
  | num (j : Nat)
  | str (j : Nat)
deriving DecidableEq, Repr

/-- The pools and the constant names, the latest definition of a name first (D28). -/
structure Pools where
  nums : List Literal
  strs : List (List Byte)
  names : List (Token × Slot)
deriving DecidableEq, Repr

/-- The index of an element, and the list with it: an equal element's slot is reused, else the element is
appended (R128). -/
def intern {α : Type} [BEq α] (l : List α) (x : α) : Nat × List α :=
  match l.findIdx? (· == x) with
  | some j => (j, l)
  | none => (l.length, l ++ [x])

/-- Enter one constant directive (R128). -/
def Pools.add (p : Pools) (name : Token) : Literal → Pools
  | .str b =>
    let r := intern p.strs b
    { p with strs := r.2, names := (name, .str r.1) :: p.names }
  | .int v =>
    let r := intern p.nums (.int v)
    { p with nums := r.2, names := (name, .num r.1) :: p.names }
  | .float v =>
    let r := intern p.nums (.float v)
    { p with nums := r.2, names := (name, .num r.1) :: p.names }

/-- Pass 1 over the lines (R128); a directive has exactly one literal token (R129).  R315 has two rows for a
directive without a literal; the model reports an illegal constant (log 9). -/
def passConstants : Pools → List (Nat × List Token) → Except ParseFault Pools
  | p, [] => .ok p
  | p, (n, ts) :: rest =>
    match lineKind ts with
    | .constant name [lit] =>
      match typeLiteral lit with
      | .ok v => passConstants (p.add name v) rest
      | .error k => .error ⟨k, n⟩
    | .constant _ _ => .error ⟨.illegalConstant, n⟩
    | .label _ _ => passConstants p rest
    | .instruction _ _ => passConstants p rest

/-- The unified index of a constant name (R125; 20_memory.md R62). -/
def Pools.index (p : Pools) (name : Token) : Option Nat :=
  match p.names.find? (fun row => row.1 == name) with
  | some (_, .num j) => some j
  | some (_, .str j) => some (p.nums.length + j)
  | none => none

/-! ### Operands (R122 to R126) -/

/-- The index of a register name, letters of either case (R122). -/
def regNumber (names : RegNames) (t : Token) : Option Nat := names.findIdx? (sameText t)

/-- The register a token names, or the fault that names the token (R122). -/
def parseRegister (names : RegNames) (t : Token) : Except ParseFaultKind Nat :=
  match regNumber names t with
  | some i => .ok i
  | none => .error (.unknownRegister t)

/-- The arg1 token (R122). -/
def parseArg1 (names : RegNames) : Token → Except ParseFaultKind Arg1
  | '&' :: t => (parseRegister names t).map (fun i => .ind (BitVec.ofNat 4 i))
  | t => (parseRegister names t).map (fun i => .reg (BitVec.ofNat 4 i))

/-- The number of an immediate literal after its `#` (R124).  That a plus sign is no part of one is the
model's choice: `#+5` is a malformed operand (log 9). -/
def parseImmediate : Token → Option Nat
  | '0' :: 'x' :: ds => parseNat 16 ds
  | '0' :: 'b' :: ds => parseNat 2 ds
  | ds => parseNat 10 ds

/-- A number in an operand field, or the fault of one that does not fit (R124, R126). -/
def fitting (bits n : Nat) : Except ParseFaultKind (BitVec bits) :=
  if n < 2 ^ bits then .ok (BitVec.ofNat bits n) else .error .immediateTooLarge

/-- The arg2 token (R123, R124, R125); a negative immediate does not fit (D28).  That every literal with a
minus sign counts as negative, `#-0` too, is the model's choice (log 9). -/
def parseArg2 (names : RegNames) (p : Pools) (t : Token) : Except ParseFaultKind Arg2 :=
  match t with
  | '&' :: r => (parseRegister names r).map (fun i => .ind (BitVec.ofNat 19 i))
  | _ =>
    match regNumber names t with
    | some i => .ok (.reg (BitVec.ofNat 19 i))
    | none =>
      match t with
      | '#' :: '-' :: ds =>
        match parseImmediate ds with
        | some _ => .error .immediateTooLarge
        | none => .error .malformedOperand
      | '#' :: ds =>
        match parseImmediate ds with
        | some n => (fitting 19 n).map .imm
        | none => .error .malformedOperand
      | '.' :: _ =>
        match p.index t with
        | some k => (fitting 19 k).map .const
        | none => .error .undefinedConstant
      | _ => .error .malformedOperand

/-- The jump or call operand: `#` and a decimal number that fits 24 bits (R126, D28).  Two rows of R315 fit a
signed one; that `#-1` is a malformed operand is the model's choice (log 9). -/
def parseTarget : Token → Except ParseFaultKind (BitVec 24)
  | '#' :: ds =>
    match parseNat 10 ds with
    | some n => fitting 24 n
    | none => .error .malformedOperand
  | _ => .error .malformedOperand

/-! ### Instructions, pass 2 (R127, R130, R131) -/

/-- The operands of a class, from exactly as many tokens as it takes (R127). -/
def parseOperands (names : RegNames) (p : Pools) : OpClass → List Token →
    Except ParseFaultKind Operands
  | .zero, [] => .ok .none
  | .one, [a] => (parseArg2 names p a).map .one
  | .two, [d, a] => do
    let x ← parseArg1 names d
    let y ← parseArg2 names p a
    .ok (.two x y)
  | .jump, [t] => (parseTarget t).map .jump
  | .zero, _ => .error .malformedTokens
  | .one, _ => .error .malformedTokens
  | .two, _ => .error .malformedTokens
  | .jump, _ => .error .malformedTokens

/-- The row of a mnemonic, letters of either case (R121). -/
def OpcodeMap.lookup (m : OpcodeMap) (t : Token) : Option OpcodeRow :=
  m.find? (fun row => sameText t row.name)

/-- The word of an instruction line whose labels are substituted (R127). -/
def assembleTokens (m : OpcodeMap) (names : RegNames) (p : Pools) (mnemonic : Token)
    (args : List Token) : Except ParseFaultKind Word :=
  match OpcodeMap.lookup m mnemonic with
  | none => .error .unknownMnemonic
  | some row => (parseOperands names p row.cls args).map (encOperands row.number)

/-- Label names with the index of the next instruction, the latest definition of a name first (R130,
D28). -/
abbrev Labels := List (Token × Nat)

/-- Collect the labels; a label definition has no operand (R120, R130). -/
def passLabels : Labels → Nat → List (Nat × List Token) → Except ParseFault Labels
  | ls, _, [] => .ok ls
  | ls, k, (n, ts) :: rest =>
    match lineKind ts with
    | .label name [] => passLabels ((name, k) :: ls) k rest
    | .label _ _ => .error ⟨.malformedTokens, n⟩
    | .constant _ _ => passLabels ls k rest
    | .instruction _ _ => passLabels ls (k + 1) rest

/-- A label operand becomes `#` and the decimal index (R131); other tokens stay. -/
def substLabel (ls : Labels) : Token → Except ParseFaultKind Token
  | ':' :: name =>
    match ls.find? (fun row => row.1 == ':' :: name) with
    | some (_, k) => .ok ('#' :: showNat k)
    | none => .error .undefinedLabel
  | t => .ok t

/-- Pass 2 with the fixup made at once: every label is known before a word is encoded, so the placeholder
of R130 is never seen in a finished artifact (R131, R112 (b)). -/
def passWords (m : OpcodeMap) (names : RegNames) (p : Pools) (ls : Labels) :
    List (Nat × List Token) → Except ParseFault (List Word)
  | [] => .ok []
  | (n, ts) :: rest =>
    match lineKind ts with
    | .label _ _ => passWords m names p ls rest
    | .constant _ _ => passWords m names p ls rest
    | .instruction op args =>
      match args.mapM (substLabel ls) with
      | .error k => .error ⟨k, n⟩
      | .ok args' =>
        match assembleTokens m names p op args' with
        | .error k => .error ⟨k, n⟩
        | .ok w =>
          match passWords m names p ls rest with
          | .error f => .error f
          | .ok ws => .ok (w :: ws)

/-- The 32-bit pattern of a numeric constant (20_memory.md R63). -/
def Literal.pattern : Literal → Word
  | .int v => v
  | .float v => v
  | .str _ => 0

/-- Assemble a text: the whole artifact, or one parse fault and nothing (R132). -/
def assembleText (m : OpcodeMap) (names : RegNames) (src : List Char) : Except ParseFault Artifact :=
  let lines := sourceLines src
  match passConstants ⟨[], [], []⟩ lines with
  | .error f => .error f
  | .ok p =>
    match passLabels [] 0 lines with
    | .error f => .error f
    | .ok ls =>
      match passWords m names p ls lines with
      | .error f => .error f
      | .ok ws =>
        .ok { words := ws, entry := 0, len := ws.length, nums := p.nums.map Literal.pattern,
              strs := p.strs }

/-- Why there is no artifact. -/
inductive AssembleError where
  /-- A static fault of the text (R315). -/
  | parse (f : ParseFault)
  /-- A table that cannot stand as OPCODE_MAP (00_scope.md R10, log 10). -/
  | opcodeMap
  /-- A list that cannot stand as REG_NAMES (R10, log 10). -/
  | regNames
deriving DecidableEq, Repr

/-- The assembler under its two parameters (R10, R118 to R135). -/
def assemble (m : OpcodeMap) (names : RegNames) (src : List Char) : Except AssembleError Artifact :=
  if m.valid = false then .error .opcodeMap
  else if names.valid = false then .error .regNames
  else (assembleText m names src).mapError .parse

end Sys2Proof.Machine
end

