-- ==== Sys2Proof/Safety.lean ====
section
/-! DEFINITION. What a run is, what is kept along it, and when it is safe. -/

namespace Sys2Proof.Machine

/-- The machine takes no further step (10_state.md R34). -/
def State.terminal (s : State) : Prop := s.status ≠ .running

/-- No fault has ended the run. -/
def State.faultFree (s : State) : Prop := ∀ c k, s.status ≠ .faulted c k

/-- One step leads from `s` to `t`. -/
def Steps (s t : State) : Prop := step s = .next t

/-- `t` is reached from `s` in some number of steps. -/
inductive Reaches (s : State) : State → Prop where
  | refl : Reaches s s
  | tail (t u : State) : Reaches s t → Steps t u → Reaches s u

/-- The host lets the machine step until `status` is not Running, with fuel of its own
(60_exceptions.md R317). -/
def runFuel : Nat → State → State
  | 0, s => s
  | n + 1, s =>
    match step s with
    | .next t => runFuel n t
    | .fault _ => s
    | .refused _ => s

/-- What every step keeps. -/
structure State.Inv (s : State) : Prop where
  /-- Memory is in its canonical form. -/
  canonical : s.mem.wf = true
  /-- Memory lists no address outside `[0, MEM_SIZE)` (20_memory.md R50). -/
  bounded : ∀ c ∈ s.mem, c.1 < s.params.memSize
  /-- `1 <= MEM_SIZE <= 2^31` (00_scope.md R10). -/
  sized : 1 ≤ s.params.memSize ∧ s.params.memSize ≤ 2 ^ 31
  /-- A fault leaves `pc` at the recorded index (60_exceptions.md R301). -/
  faultAtPc : ∀ c k, s.status = .faulted c k → s.pc = k
  /-- Halted means `pc >= LEN` as signed numbers (40_operands.md R141). -/
  haltPastEnd : s.status = .halted → (s.prog.imem.length : Int) ≤ s.pc.toInt

/-! ### Vocabulary of statements -/

/-- The bits of a word that mean something in each operand class; the others are unused (30_encoding.md
R102). -/
def usedBits : OpClass → Word
  | .zero => 0xFC000000#32
  | .one => 0xFC1FFFFF#32
  | .two => 0xFFFFFFFF#32
  | .jump => 0xFCFFFFFF#32

/-- No operand refers to the constant pool. -/
def noConstant : Operands → Bool
  | .none => true
  | .one a => !a.isConst
  | .two _ a => !a.isConst
  | .jump _ => true

/-- `r` is the exact value `num / den` (in units of 2^-149) rounded to binary32 by roundTiesToEven
(45_arithmetic.md R242): an infinity of its sign when it lies at or past half a last place above the
largest finite value, and else a finite pattern no other finite pattern is nearer than, an even one when
another value is as near. -/
def isRounded (r : Word) (num : Int) (den : Nat) : Prop :=
  if (den : Int) * ((2 ^ 25 - 1) * 2 ^ 253) ≤ 2 * |num| then r = fInf (decide (num < 0))
  else
    fExp r ≠ 255 ∧
      ∀ q : Word, fExp q ≠ 255 →
        |fInt r * den - num| ≤ |fInt q * den - num| ∧
          (|fInt q * den - num| = |fInt r * den - num| →
            fInt q = fInt r ∨ r.getLsbD 0 = false)

/-- An access of `n` bytes through the destination is in range; a register always is (20_memory.md R51). -/
def dstFits (u : State) (D : Dst) (n : Nat) : Bool :=
  match D with
  | .reg _ => true
  | .ind r => u.inRange (u.x r) n

/-- The state with a word written to the destination (40_operands.md R149). -/
def storedWord (u : State) (D : Dst) (v : Word) : State :=
  match D with
  | .reg r => u.setX r v
  | .ind r => { u with mem := u.mem.writeWord u.params.byteOrder (u.x r).toNat v }

/-- The state with a byte written to the destination (40_operands.md R149). -/
def storedByte (u : State) (D : Dst) (v : Byte) : State :=
  match D with
  | .reg r => u.setXByte r v
  | .ind r => { u with mem := u.mem.write (u.x r).toNat v }

/-- What a float arithmetic instruction answers for a result: the result stored, or for a NaN the pattern
NAN_RESULT asks for (45_arithmetic.md R242 (d)), the draw counted when the pattern is free. -/
def floatOutcome (s : State) (D : Dst) (r : Option Word) (o : Host.Outcome State Fault Refusal) : Prop :=
  match r, s.params.nanResult with
  | some v, _ => o = .next (storedWord s.postFetch D v)
  | none, .canonical => o = .next (storedWord s.postFetch D 0x7FC00000#32)
  | none, .any =>
    ∃ p, fIsNan p = true ∧
      o = .next (storedWord { s.postFetch with draws := s.draws + 1 } D p)

/-- The address of data memory a source reads: an address in a register, or that of a constant
(40_operands.md R146). -/
def srcAddr (u : State) : Src → Option Word
  | .reg _ => none
  | .ind r => some (u.x r)
  | .imm _ => none
  | .const k => u.prog.cat[k.toNat]?

/-- The two-operand instructions of a word lane, the load-constant family apart (30_encoding.md R100,
40_operands.md R144): each reads arg2 first, and then reads or writes arg1. -/
def wordClass2 : WordLane → List (Arg1 → Arg2 → Instr)
  | .int =>
    [.movi, .ifi, .ifei, .addi, .subi, .muli, .divi, .modi, .ori, .andi, .xori, .noti, .szrli, .srli,
      .slli]
  | .float => [.movf, .iff, .ifef, .addf, .subf, .mulf, .divf, .modf]

/-- The two-operand instructions of the byte lane, LDCB apart. -/
def byteClass2 : List (Arg1 → Arg2 → Instr) :=
  [.movb, .ifb, .ifeb, .addb, .subb, .mulb, .divb, .modb, .orb, .andb, .xorb, .notb, .szrlb, .srlb,
    .sllb]

/-- The one-operand instructions of a word lane. -/
def wordClass1 : WordLane → List (Arg2 → Instr)
  | .int => [.pushi, .popi, .dupi, .printi]
  | .float => [.pushf, .popf, .dupf, .printf]

/-- The one-operand instructions of the byte lane. -/
def byteClass1 : List (Arg2 → Instr) := [.pushb, .popb, .dupb, .printb, .printc]

/-- The push of a word lane. -/
def pushOf : WordLane → Arg2 → Instr
  | .int => .pushi
  | .float => .pushf

/-- The pop of a word lane. -/
def popOf : WordLane → Arg2 → Instr
  | .int => .popi
  | .float => .popf

/-- The duplicate of a word lane. -/
def dupOf : WordLane → Arg2 → Instr
  | .int => .dupi
  | .float => .dupf

/-- The register a resolved destination names, when it is a register. -/
def Dst.regs : Dst → List RegIdx
  | .reg r => [r]
  | .ind _ => []

/-- The addresses of the `n` bytes a resolved destination stores to. -/
def Dst.bytes (u : State) (n : Nat) : Dst → List Nat
  | .reg _ => []
  | .ind r => List.range' (u.x r).toNat n

/-- The register arg1 names as a destination, when it is a register that exists. -/
def arg1Regs (d : Arg1) : List RegIdx :=
  match resolve1 d with
  | .ok D => D.regs
  | .error _ => []

/-- The addresses of the `n` bytes arg1 stores to. -/
def arg1Bytes (u : State) (n : Nat) (d : Arg1) : List Nat :=
  match resolve1 d with
  | .ok D => D.bytes u n
  | .error _ => []

/-- The register the implicit destination of a class-1 operand names (R150). -/
def implicitRegs (a : Arg2) : List RegIdx :=
  match resolve2 a with
  | .ok S => (S.implicitDst.map Dst.regs).getD []
  | .error _ => []

/-- The addresses of the `n` bytes the implicit destination of a class-1 operand stores to (R150). -/
def implicitBytes (u : State) (n : Nat) (a : Arg2) : List Nat :=
  match resolve2 a with
  | .ok S => (S.implicitDst.map (Dst.bytes u n)).getD []
  | .error _ => []

/-- The register cells an instruction may write, `pc` apart: its destination, `sp` of the stack
instructions, `r` of CALL. -/
def writtenRegs : Instr → List RegIdx
  | .noop => []
  | .movi d _ => arg1Regs d
  | .movf d _ => arg1Regs d
  | .movb d _ => arg1Regs d
  | .ldci d _ => arg1Regs d
  | .ldcf d _ => arg1Regs d
  | .ldcb d _ => arg1Regs d
  | .ldca d _ => arg1Regs d
  | .pushi _ => [RegIdx.sp]
  | .pushf _ => [RegIdx.sp]
  | .pushb _ => [RegIdx.sp]
  | .popi a => RegIdx.sp :: implicitRegs a
  | .popf a => RegIdx.sp :: implicitRegs a
  | .popb a => RegIdx.sp :: implicitRegs a
  | .dupi a => RegIdx.sp :: implicitRegs a
  | .dupf a => RegIdx.sp :: implicitRegs a
  | .dupb a => RegIdx.sp :: implicitRegs a
  | .ifi _ _ => []
  | .iff _ _ => []
  | .ifb _ _ => []
  | .ifei _ _ => []
  | .ifef _ _ => []
  | .ifeb _ _ => []
  | .jmp _ => []
  | .call _ => [RegIdx.ra]
  | .ret => []
  | .printi _ => []
  | .printf _ => []
  | .printb _ => []
  | .printc _ => []
  | .addi d _ => arg1Regs d
  | .addf d _ => arg1Regs d
  | .addb d _ => arg1Regs d
  | .subi d _ => arg1Regs d
  | .subf d _ => arg1Regs d
  | .subb d _ => arg1Regs d
  | .muli d _ => arg1Regs d
  | .mulf d _ => arg1Regs d
  | .mulb d _ => arg1Regs d
  | .divi d _ => arg1Regs d
  | .divf d _ => arg1Regs d
  | .divb d _ => arg1Regs d
  | .modi d _ => arg1Regs d
  | .modf d _ => arg1Regs d
  | .modb d _ => arg1Regs d
  | .ori d _ => arg1Regs d
  | .orb d _ => arg1Regs d
  | .andi d _ => arg1Regs d
  | .andb d _ => arg1Regs d
  | .xori d _ => arg1Regs d
  | .xorb d _ => arg1Regs d
  | .noti d _ => arg1Regs d
  | .notb d _ => arg1Regs d
  | .szrli d _ => arg1Regs d
  | .szrlb d _ => arg1Regs d
  | .srli d _ => arg1Regs d
  | .srlb d _ => arg1Regs d
  | .slli d _ => arg1Regs d
  | .sllb d _ => arg1Regs d

/-- The addresses of the bytes an instruction may store to, from the post-fetch state `u`: those of an
indirect destination, and of the stack slot of a push or duplicate. -/
def storedAddrs : Instr → State → List Nat
  | .noop, _ => []
  | .movi d _, u => arg1Bytes u 4 d
  | .movf d _, u => arg1Bytes u 4 d
  | .movb d _, u => arg1Bytes u 1 d
  | .ldci d _, u => arg1Bytes u 4 d
  | .ldcf d _, u => arg1Bytes u 4 d
  | .ldcb d _, u => arg1Bytes u 1 d
  | .ldca d _, u => arg1Bytes u 4 d
  | .pushi _, u => List.range' (u.sp - 4).toNat 4
  | .pushf _, u => List.range' (u.sp - 4).toNat 4
  | .pushb _, u => List.range' (u.sp - 1).toNat 1
  | .popi a, u => implicitBytes (u.setSp (u.sp + 4)) 4 a
  | .popf a, u => implicitBytes (u.setSp (u.sp + 4)) 4 a
  | .popb a, u => implicitBytes (u.setSp (u.sp + 1)) 1 a
  | .dupi a, u =>
    List.range' (u.sp - 4).toNat 4 ++ implicitBytes (u.setSp (u.sp - 4)) 4 a
  | .dupf a, u =>
    List.range' (u.sp - 4).toNat 4 ++ implicitBytes (u.setSp (u.sp - 4)) 4 a
  | .dupb a, u =>
    List.range' (u.sp - 1).toNat 1 ++ implicitBytes (u.setSp (u.sp - 1)) 1 a
  | .ifi _ _, _ => []
  | .iff _ _, _ => []
  | .ifb _ _, _ => []
  | .ifei _ _, _ => []
  | .ifef _ _, _ => []
  | .ifeb _ _, _ => []
  | .jmp _, _ => []
  | .call _, _ => []
  | .ret, _ => []
  | .printi _, _ => []
  | .printf _, _ => []
  | .printb _, _ => []
  | .printc _, _ => []
  | .addi d _, u => arg1Bytes u 4 d
  | .addf d _, u => arg1Bytes u 4 d
  | .addb d _, u => arg1Bytes u 1 d
  | .subi d _, u => arg1Bytes u 4 d
  | .subf d _, u => arg1Bytes u 4 d
  | .subb d _, u => arg1Bytes u 1 d
  | .muli d _, u => arg1Bytes u 4 d
  | .mulf d _, u => arg1Bytes u 4 d
  | .mulb d _, u => arg1Bytes u 1 d
  | .divi d _, u => arg1Bytes u 4 d
  | .divf d _, u => arg1Bytes u 4 d
  | .divb d _, u => arg1Bytes u 1 d
  | .modi d _, u => arg1Bytes u 4 d
  | .modf d _, u => arg1Bytes u 4 d
  | .modb d _, u => arg1Bytes u 1 d
  | .ori d _, u => arg1Bytes u 4 d
  | .orb d _, u => arg1Bytes u 1 d
  | .andi d _, u => arg1Bytes u 4 d
  | .andb d _, u => arg1Bytes u 1 d
  | .xori d _, u => arg1Bytes u 4 d
  | .xorb d _, u => arg1Bytes u 1 d
  | .noti d _, u => arg1Bytes u 4 d
  | .notb d _, u => arg1Bytes u 1 d
  | .szrli d _, u => arg1Bytes u 4 d
  | .szrlb d _, u => arg1Bytes u 1 d
  | .srli d _, u => arg1Bytes u 4 d
  | .srlb d _, u => arg1Bytes u 1 d
  | .slli d _, u => arg1Bytes u 4 d
  | .sllb d _, u => arg1Bytes u 1 d

/-- The instructions that set `pc` as their own effect (43_control.md). -/
def isControl (i : Instr) : Bool :=
  i.op ∈ [Op.ifi, .iff, .ifb, .ifei, .ifef, .ifeb, .jmp, .call, .ret]

/-- The instructions whose result may be a NaN that is drawn (45_arithmetic.md R242). -/
def isFloatArith (i : Instr) : Bool := i.op ∈ [Op.addf, .subf, .mulf, .divf, .modf]

/-- The print instructions (44_print.md). -/
def isPrint (i : Instr) : Bool := i.op ∈ [Op.printi, .printf, .printb, .printc]

end Sys2Proof.Machine
end

