-- ==== Sys2Proof/Certificates/Slice0/Obligations.lean ====
section
/-! DEFINITION. The statements for the provers.

`s` is a state before a step: `s.pc` is the index of the instruction, `s.postFetch` the state after the fetch
increment, in which operands are read (40_operands.md R142). -/

open Sys2Proof Sys2Proof.Machine

/-! ### The codec -/

/-- R98: the standard layout is a bijection between words and field tuples; the jump layout is inverted by
its extractors, and gives a word back exactly when bits 25 and 24 are 0. -/
def Obligations.CodecIsExactlyInvertible : Prop :=
  (∀ (op : BitVec 6) (a : Bool) (r : BitVec 4) (g f : Bool) (v : BitVec 19),
    decOpcode (encStd op a r g f v) = op ∧ decArg1Addr (encStd op a r g f v) = a ∧
    decArg1Value (encStd op a r g f v) = r ∧ decArg2Reg (encStd op a r g f v) = g ∧
    decArg2Addr (encStd op a r g f v) = f ∧ decArg2Value (encStd op a r g f v) = v) ∧
  (∀ (op : BitVec 6) (t : BitVec 24),
    decOpcode (encJmp op t) = op ∧ decImm24 (encJmp op t) = t) ∧
  (∀ w : Word, encStd (decOpcode w) (decArg1Addr w) (decArg1Value w) (decArg2Reg w) (decArg2Addr w)
    (decArg2Value w) = w) ∧
  (∀ w : Word, encJmp (decOpcode w) (decImm24 w) = w ↔ w.extractLsb' 24 2 = 0#2)

/-- Decode and encode agree, for every instruction with every operand and under every injective opcode
map; the spec's map is injective and gives every instruction a word. -/
def Obligations.DecodeInvertsEncodeForEveryInstruction : Prop :=
  (∀ (m : OpcodeMap) (i : Instr) (w : Word),
    m.injective = true → encode m i = some w → decode m w = .ok i) ∧
  (∀ i : Instr, ∃ w, encode OpcodeMap.standard i = some w) ∧
  OpcodeMap.standard.valid = true

/-- The encoder writes the unused bits of a word as 0 and the decoder ignores them, so a word decodes as
the canonical word with those bits cleared (the spec's own decision D4). -/
def Obligations.UnusedBitsAreIgnored : Prop :=
  ∀ (m : OpcodeMap) (w : Word) (i : Instr), m.injective = true → decode m w = .ok i →
    encode m i = some (w &&& usedBits i.op.cls) ∧
    decode m (w &&& usedBits i.op.cls) = .ok i

/-- The whole opcode table is a parameter (R10, R100): under every table that can stand as one (log 2), an
instruction's row gives the number of its word, the spelling the assembler finds it by, in letters of either
case (the spec's own decision D28; the ASCII letters alone by the model's choice, log 9), and the spelling of its
disassembly. -/
def Obligations.OpcodeMapIsAParameter : Prop :=
  ∀ (m : OpcodeMap) (names : RegNames) (row : OpcodeRow) (i : Instr),
    m.valid = true → row ∈ m → row.op = i.op →
    m.opAt row.number = some i.op ∧
    (∀ t, sameText t row.name = true → OpcodeMap.lookup m t = some row) ∧
    ∃ w, encode m i = some w ∧ decOpcode w = row.number ∧ decode m w = .ok i ∧
      disasm m names w = showLine names row.name i.operands

/-- Words written out from the spec's layouts decode to the instructions they stand for (R134). -/
def Obligations.WorkedLinesDecode : Prop :=
  decode OpcodeMap.standard 0b000001_0_0100_0_1_0000000000000000010#32 = .ok (.movi (.reg 4) (.imm 2)) ∧
  decode OpcodeMap.standard 0b011110_1_0100_0_1_0000000000000000001#32 = .ok (.addi (.ind 4) (.imm 1)) ∧
  decode OpcodeMap.standard 0b011101_0_0000_1_1_0000000000000000100#32 = .ok (.printc (.ind 4)) ∧
  decode OpcodeMap.standard 0b000111_0_0100_0_0_0000000000000000000#32 = .ok (.ldca (.reg 4) (.const 0)) ∧
  decode OpcodeMap.standard 0b010111_00_000000000000000000001001#32 = .ok (.jmp 9) ∧
  decode OpcodeMap.standard 0b011001_0_0000_0_0_0000000000000000000#32 = .ok .ret

/-! ### The step -/

/-- A step from Running at an index of the program runs the decoded instruction, and adds nothing around
it: the meaning makes the fetch increment itself (log 12). -/
def Obligations.StepRunsDecodedInstruction : Prop :=
  ∀ (s : State) (w : Word) (i : Instr),
    s.status = .running → s.pc.msb = false → s.prog.imem[s.pc.toNat]? = some w →
    decode s.params.opcodes w = .ok i → step s = exec i s

/-- A `pc` with bit 31 set faults FetchOutOfRange, reported at that `pc`; a `pc` at or beyond LEN as
signed numbers halts and changes nothing but `status` (the spec's own decision D23). -/
def Obligations.FetchOutsideProgramHaltsOrFaults : Prop :=
  ∀ s : State, s.status = .running →
    (s.pc.toInt < 0 → step s = .next { s with status := .faulted (.fetchOutOfRange s.pc) s.pc }) ∧
    ((s.prog.imem.length : Int) ≤ s.pc.toInt → step s = .next { s with status := .halted })

/-- A fetched word whose opcode the map leaves out faults UnrecognizedOpcode with the word (R303); the
spec's map leaves out exactly 59 to 63. That nothing but `status` changes is the spec's own decision D25; that
a map leaves out the number of a row whose operand class is not its instruction's is the model's choice (log
2). -/
def Obligations.UnassignedOpcodeFaults : Prop :=
  (∀ (s : State) (w : Word),
    s.status = .running → s.pc.msb = false → s.prog.imem[s.pc.toNat]? = some w →
    s.params.opcodes.opAt (decOpcode w) = none →
    step s = .next { s with status := .faulted (.unrecognizedOpcode w) s.pc }) ∧
  (∀ w : Word, OpcodeMap.standard.opAt (decOpcode w) = none ↔ 59 ≤ (decOpcode w).toNat)

/-- A step is taken exactly in status Running (R140, R312), whatever the word at `pc` is, and no
instruction is refused. -/
def Obligations.StepIsTakenExactlyWhenRunning : Prop :=
  (∀ s : State, (∃ t, step s = .next t) ↔ s.status = .running) ∧
  (∀ (s : State) (r : Refusal), step s ≠ .refused r)

/-! ### Faults -/

/-- A fault is precise: the state after it is the state before the step but for `status`, `pc` is the
recorded index, and no step follows (the spec's own decision D25; log 6). -/
def Obligations.FaultsArePrecise : Prop :=
  ∀ (s t : State) (c : Cause) (k : Word), step s = .next t → t.status = .faulted c k →
    k = s.pc ∧ t = { s with status := .faulted c s.pc } ∧ ∀ u, step t ≠ .next u

/-- The spec's own decision D21: in every class-2 word a bad arg1 index is reported first, then a bad arg2
index; in a class-1 word the arg2 index is checked; before anything else of the instruction. -/
def Obligations.RegisterIndexIsCheckedFirst : Prop :=
  ∀ (i : Instr) (s : State),
    (∀ d a, i.operands = .two d a → 11 < d.value.toNat →
      exec i s = .next (s.raise (.illegalRegister (d.value.setWidth 19)))) ∧
    (∀ d a, i.operands = .two d a → d.value.toNat ≤ 11 → a.regFlag = true → 11 < a.value.toNat →
      exec i s = .next (s.raise (.illegalRegister a.value))) ∧
    (∀ a, i.operands = .one a → a.regFlag = true → 11 < a.value.toNat →
      exec i s = .next (s.raise (.illegalRegister a.value)))

/-- The spec's own decision D20: a load-constant instruction whose arg2 is not of form CONST faults
IllegalOperandForm with the word at `pc`, before any operand is read; with CONST it is the move of its
lane. Where `pc` names no word the recorded word is the model's choice (log 11). -/
def Obligations.LoadConstantTakesOnlyConstants : Prop :=
  (∀ (s : State) (d : Arg1) (a : Arg2) (D : Dst) (S : Src),
    resolve1 d = .ok D → resolve2 a = .ok S → a.isConst = false →
    exec (.ldci d a) s = .next (s.raise (.illegalOperandForm s.fetchedWord)) ∧
    exec (.ldcf d a) s = .next (s.raise (.illegalOperandForm s.fetchedWord)) ∧
    exec (.ldcb d a) s = .next (s.raise (.illegalOperandForm s.fetchedWord)) ∧
    exec (.ldca d a) s = .next (s.raise (.illegalOperandForm s.fetchedWord))) ∧
  (∀ (s : State) (d : Arg1) (k : BitVec 19),
    exec (.ldci d (.const k)) s = exec (.movi d (.const k)) s ∧
    exec (.ldcf d (.const k)) s = exec (.movf d (.const k)) s ∧
    exec (.ldcb d (.const k)) s = exec (.movb d (.const k)) s) ∧
  (∀ (s : State) (w : Word), s.prog.imem[s.pc.toNat]? = some w → s.fetchedWord = w)

/-- A constant index at or above NCONST faults in every instruction that takes an arg2 (the spec's own
decision D22). -/
def Obligations.ConstantIndexBeyondTableFaults : Prop :=
  ∀ (i : Instr) (s : State) (k : BitVec 19), s.prog.cat.length ≤ k.toNat →
    (i.operands = .one (.const k) →
      exec i s = .next (s.raise (.constantIndexOutOfRange k))) ∧
    (∀ d, i.operands = .two d (.const k) → d.value.toNat ≤ 11 →
      exec i s = .next (s.raise (.constantIndexOutOfRange k)))

/-- With both operands readable, a zero divisor raises DivideByZero in every lane, in the float lane for
both zeros; only `status` changes (the spec's own decision D14). -/
def Obligations.ZeroDivisorFaults : Prop :=
  ∀ (s : State) (d : Arg1) (a : Arg2) (D : Dst) (S : Src),
    resolve1 d = .ok D → resolve2 a = .ok S →
    (∀ c, srcWord s.postFetch .int S = .ok 0x00000000#32 → dstReadWord s.postFetch D = .ok c →
      exec (.divi d a) s = .next { s with status := .faulted .divideByZero s.pc } ∧
      exec (.modi d a) s = .next { s with status := .faulted .divideByZero s.pc }) ∧
    (∀ c, srcByte s.postFetch S = .ok 0x00#8 → dstReadByte s.postFetch D = .ok c →
      exec (.divb d a) s = .next { s with status := .faulted .divideByZero s.pc } ∧
      exec (.modb d a) s = .next { s with status := .faulted .divideByZero s.pc }) ∧
    (∀ b c, srcWord s.postFetch .float S = .ok b → dstReadWord s.postFetch D = .ok c →
      b = 0x00000000#32 ∨ b = 0x80000000#32 →
      exec (.divf d a) s = .next { s with status := .faulted .divideByZero s.pc } ∧
      exec (.modf d a) s = .next { s with status := .faulted .divideByZero s.pc })

/-- The spec's own decisions D8 and D25: an operand's access that does not fit in memory faults with the
address of its first byte, in every lane of every instruction that makes it: the read of arg2, then the read
or the write of arg1. A load-constant instruction reads its constant, LDCA no data memory. -/
def Obligations.AccessOutsideMemoryFaults : Prop :=
  ∀ (s : State) (d : Arg1) (a : Arg2) (D : Dst) (S : Src) (p : Word),
    resolve1 d = .ok D → resolve2 a = .ok S →
    (∀ lane, srcAddr s.postFetch S = some p → s.params.memSize < p.toNat + 4 →
      (∀ f ∈ wordClass2 lane, exec (f d a) s = .next (s.raise (.memoryAccessOutOfRange p))) ∧
      (∀ f ∈ wordClass1 lane, exec (f a) s = .next (s.raise (.memoryAccessOutOfRange p)))) ∧
    (srcAddr s.postFetch S = some p → s.params.memSize < p.toNat + 1 →
      (∀ f ∈ byteClass2, exec (f d a) s = .next (s.raise (.memoryAccessOutOfRange p))) ∧
      (∀ f ∈ byteClass1, exec (f a) s = .next (s.raise (.memoryAccessOutOfRange p)))) ∧
    (∀ lane v, srcWord s.postFetch lane S = .ok v → D.addr s.postFetch = some p →
      s.params.memSize < p.toNat + 4 →
      ∀ f ∈ wordClass2 lane, exec (f d a) s = .next (s.raise (.memoryAccessOutOfRange p))) ∧
    (∀ v, srcByte s.postFetch S = .ok v → D.addr s.postFetch = some p →
      s.params.memSize < p.toNat + 1 →
      ∀ f ∈ byteClass2, exec (f d a) s = .next (s.raise (.memoryAccessOutOfRange p))) ∧
    (∀ k q, S = .const k → s.prog.cat[k.toNat]? = some q →
      (s.params.memSize < q.toNat + 4 →
        exec (.ldci d a) s = .next (s.raise (.memoryAccessOutOfRange q)) ∧
        exec (.ldcf d a) s = .next (s.raise (.memoryAccessOutOfRange q))) ∧
      (s.params.memSize < q.toNat + 1 →
        exec (.ldcb d a) s = .next (s.raise (.memoryAccessOutOfRange q))) ∧
      (D.addr s.postFetch = some p → s.params.memSize < p.toNat + 4 →
        exec (.ldca d a) s = .next (s.raise (.memoryAccessOutOfRange p)) ∧
        (q.toNat + 4 ≤ s.params.memSize →
          exec (.ldci d a) s = .next (s.raise (.memoryAccessOutOfRange p)) ∧
          exec (.ldcf d a) s = .next (s.raise (.memoryAccessOutOfRange p)))) ∧
      (D.addr s.postFetch = some p → s.params.memSize < p.toNat + 1 →
        q.toNat + 1 ≤ s.params.memSize →
        exec (.ldcb d a) s = .next (s.raise (.memoryAccessOutOfRange p))))

/-- The spec's own decisions D8 and D25: with arg2 readable, a push faults when its new top does not fit in
memory, a pop or a duplicate when the top does not, a duplicate then when its new top does not, and a pop
through `&sp` then when the raised `sp` does not; the address recorded is that of the first byte. No other
pop or duplicate faults after the stack accesses. -/
def Obligations.StackAccessOutsideMemoryFaults : Prop :=
  ∀ (s : State) (a : Arg2) (S : Src), resolve2 a = .ok S →
    (∀ lane v, srcWord s.postFetch lane S = .ok v →
      (s.params.memSize < (s.sp - 4).toNat + 4 →
        exec (pushOf lane a) s = .next (s.raise (.memoryAccessOutOfRange (s.sp - 4)))) ∧
      (s.params.memSize < s.sp.toNat + 4 →
        exec (popOf lane a) s = .next (s.raise (.memoryAccessOutOfRange s.sp)) ∧
        exec (dupOf lane a) s = .next (s.raise (.memoryAccessOutOfRange s.sp))) ∧
      (s.sp.toNat + 4 ≤ s.params.memSize →
        (s.params.memSize < (s.sp - 4).toNat + 4 →
          exec (dupOf lane a) s = .next (s.raise (.memoryAccessOutOfRange (s.sp - 4)))) ∧
        ((s.sp - 4).toNat + 4 ≤ s.params.memSize →
          ∃ t, exec (dupOf lane a) s = .next t ∧ t.status = s.status) ∧
        (S = .ind RegIdx.sp → s.params.memSize < (s.sp + 4).toNat + 4 →
          exec (popOf lane a) s = .next (s.raise (.memoryAccessOutOfRange (s.sp + 4)))) ∧
        (S ≠ .ind RegIdx.sp →
          ∃ t, exec (popOf lane a) s = .next t ∧ t.status = s.status))) ∧
    (∀ v, srcByte s.postFetch S = .ok v →
      (s.params.memSize < (s.sp - 1).toNat + 1 →
        exec (.pushb a) s = .next (s.raise (.memoryAccessOutOfRange (s.sp - 1)))) ∧
      (s.params.memSize < s.sp.toNat + 1 →
        exec (.popb a) s = .next (s.raise (.memoryAccessOutOfRange s.sp)) ∧
        exec (.dupb a) s = .next (s.raise (.memoryAccessOutOfRange s.sp))) ∧
      (s.sp.toNat + 1 ≤ s.params.memSize →
        (s.params.memSize < (s.sp - 1).toNat + 1 →
          exec (.dupb a) s = .next (s.raise (.memoryAccessOutOfRange (s.sp - 1)))) ∧
        ((s.sp - 1).toNat + 1 ≤ s.params.memSize →
          ∃ t, exec (.dupb a) s = .next t ∧ t.status = s.status) ∧
        (S = .ind RegIdx.sp → s.params.memSize < (s.sp + 1).toNat + 1 →
          exec (.popb a) s = .next (s.raise (.memoryAccessOutOfRange (s.sp + 1)))) ∧
        (S ≠ .ind RegIdx.sp →
          ∃ t, exec (.popb a) s = .next t ∧ t.status = s.status)))

/-! ### Memory and operands -/

/-- R53, with the range check that is the spec's own decision D8: a word store puts the four bytes in the
order of BYTE_ORDER and a byte store its byte; each changes those bytes alone, is read back, keeps the
canonical form, and fails as a whole when it does not fit. -/
def Obligations.StoresWriteTheirBytesAlone : Prop :=
  (∀ (s : State) (a v : Word), s.mem.wf = true →
    (s.params.memSize < a.toNat + 4 → s.memWriteWord a v = .error (.memoryAccessOutOfRange a)) ∧
    (a.toNat + 4 ≤ s.params.memSize → ∃ m : Memory,
      s.memWriteWord a v = .ok { s with mem := m } ∧ m.wf = true ∧
      ({ s with mem := m } : State).memReadWord a = .ok v ∧
      (s.params.byteOrder = .big →
        m.read a.toNat = v.extractLsb' 24 8 ∧ m.read (a.toNat + 1) = v.extractLsb' 16 8 ∧
        m.read (a.toNat + 2) = v.extractLsb' 8 8 ∧ m.read (a.toNat + 3) = v.extractLsb' 0 8) ∧
      (s.params.byteOrder = .little →
        m.read a.toNat = v.extractLsb' 0 8 ∧ m.read (a.toNat + 1) = v.extractLsb' 8 8 ∧
        m.read (a.toNat + 2) = v.extractLsb' 16 8 ∧ m.read (a.toNat + 3) = v.extractLsb' 24 8) ∧
      ∀ b, b < a.toNat ∨ a.toNat + 4 ≤ b → m.read b = s.mem.read b)) ∧
  (∀ (s : State) (a : Word) (v : Byte), s.mem.wf = true →
    (s.params.memSize < a.toNat + 1 → s.memWriteByte a v = .error (.memoryAccessOutOfRange a)) ∧
    (a.toNat + 1 ≤ s.params.memSize → ∃ m : Memory,
      s.memWriteByte a v = .ok { s with mem := m } ∧ m.wf = true ∧ m.read a.toNat = v ∧
      ∀ b, b ≠ a.toNat → m.read b = s.mem.read b))

/-- R52, with the range check that is the spec's own decision D8: a read answers the byte, or the four
bytes joined in the order of BYTE_ORDER, when the access fits in memory, and the fault otherwise. -/
def Obligations.ReadsJoinTheirBytes : Prop :=
  ∀ (s : State) (a : Word),
    s.memReadByte a =
      (if a.toNat + 1 ≤ s.params.memSize then .ok (s.mem.read a.toNat)
       else .error (.memoryAccessOutOfRange a)) ∧
    s.memReadWord a =
      (if a.toNat + 4 ≤ s.params.memSize then
        .ok (match s.params.byteOrder with
          | .big => s.mem.read a.toNat ++ s.mem.read (a.toNat + 1) ++ s.mem.read (a.toNat + 2) ++
              s.mem.read (a.toNat + 3)
          | .little => s.mem.read (a.toNat + 3) ++ s.mem.read (a.toNat + 2) ++
              s.mem.read (a.toNat + 1) ++ s.mem.read a.toNat)
       else .error (.memoryAccessOutOfRange a))

/-- A lane write of a register stores the word, or the sign-extended byte (the spec's own decision D10),
in that cell and changes nothing else; a byte-lane read gives the byte back (R28). -/
def Obligations.LaneWritesOfRegisters : Prop :=
  ∀ (s : State) (i : RegIdx) (v : Word) (b : Byte),
    (s.setX i v).x i = v ∧ (∀ j, j ≠ i → (s.setX i v).x j = s.x j) ∧
    s.setX i v = { s with regs := (s.setX i v).regs } ∧
    s.setXByte i b = s.setX i (b.signExtend 32) ∧ (s.setXByte i b).xByte i = b ∧
    s.xByte i = (s.x i).extractLsb' 0 8

/-- The spec's own decision D12: an immediate is zero-extended in the integer lane, its low 8 bits in the
byte lane, and in the float lane the number converted, exactly (or the bits, under FLOAT_IMM =
reinterpret). -/
def Obligations.ImmediatesEnterTheirLanes : Prop :=
  ∀ (s : State) (v : BitVec 19),
    srcWord s .int (.imm v) = .ok (v.setWidth 32) ∧
    srcByte s (.imm v) = .ok (v.extractLsb' 0 8) ∧
    (s.params.floatImm = .reinterpret → srcWord s .float (.imm v) = .ok (v.setWidth 32)) ∧
    (s.params.floatImm = .convert → ∃ w : Word, srcWord s .float (.imm v) = .ok w ∧
      fExp w ≠ 255 ∧ fSign w = false ∧ fInt w = v.toNat * 2 ^ 149)

/-- From the operand bits to the descriptors (R82, R84, R143): a register form names the register of its
number, for every number up to 11 (R145). That bit 19 set is an immediate where bit 20 is clear is the spec's
own decision D3. -/
def Obligations.EncodedOperandsGiveTheirDescriptors : Prop :=
  (∀ w : Word,
    (w.getLsbD 25 = false → decArg1 w = .reg (w.extractLsb' 21 4)) ∧
    (w.getLsbD 25 = true → decArg1 w = .ind (w.extractLsb' 21 4)) ∧
    (w.getLsbD 20 = true → w.getLsbD 19 = false → decArg2 w = .reg (w.extractLsb' 0 19)) ∧
    (w.getLsbD 20 = true → w.getLsbD 19 = true → decArg2 w = .ind (w.extractLsb' 0 19)) ∧
    (w.getLsbD 20 = false → w.getLsbD 19 = true → decArg2 w = .imm (w.extractLsb' 0 19)) ∧
    (w.getLsbD 20 = false → w.getLsbD 19 = false → decArg2 w = .const (w.extractLsb' 0 19))) ∧
  (∀ (i : BitVec 4) (h : i.toNat < 12),
    resolve1 (.reg i) = .ok (.reg ⟨i.toNat, h⟩) ∧ resolve1 (.ind i) = .ok (.ind ⟨i.toNat, h⟩)) ∧
  (∀ (i : BitVec 19) (h : i.toNat < 12),
    resolve2 (.reg i) = .ok (.reg ⟨i.toNat, h⟩) ∧ resolve2 (.ind i) = .ok (.ind ⟨i.toNat, h⟩)) ∧
  (∀ v : BitVec 19, resolve2 (.imm v) = .ok (.imm v) ∧ resolve2 (.const v) = .ok (.const v))

/-- The implicit destination of a one-operand instruction (R143, R150): the register of the form REG, the
memory at the register's address of the form IND (the spec's own decision D19), none of IMM and CONST. -/
def Obligations.ImplicitDestinationOfOneOperand : Prop :=
  ∀ (r : RegIdx) (v : BitVec 19),
    Src.implicitDst (.reg r) = some (.reg r) ∧ Src.implicitDst (.ind r) = some (.ind r) ∧
    Src.implicitDst (.imm v) = none ∧ Src.implicitDst (.const v) = none

/-- The four forms of arg2 in the three lanes (R146), with the fault for a constant index at or above
NCONST (the spec's own decision D22). -/
def Obligations.SourceOperandForms : Prop :=
  ∀ (s : State) (lane : WordLane) (r : RegIdx) (k : BitVec 19) (v : BitVec 19),
    srcWord s lane (.reg r) = .ok (s.x r) ∧
    srcByte s (.reg r) = .ok ((s.x r).extractLsb' 0 8) ∧
    srcWord s lane (.ind r) = s.memReadWord (s.x r) ∧
    srcByte s (.ind r) = s.memReadByte (s.x r) ∧
    srcWord s lane (.imm v) = .ok (immWord s lane v) ∧
    srcByte s (.imm v) = .ok (immByte v) ∧
    (∀ a, s.prog.cat[k.toNat]? = some a →
      srcWord s lane (.const k) = s.memReadWord a ∧ srcByte s (.const k) = s.memReadByte a) ∧
    (s.prog.cat.length ≤ k.toNat →
      srcWord s lane (.const k) = .error (.constantIndexOutOfRange k) ∧
      srcByte s (.const k) = .error (.constantIndexOutOfRange k))

/-- R148, R149: reading and writing a destination. An indirect one reads and writes memory at the whole
32-bit cell and leaves the register alone; with no destination nothing is written. -/
def Obligations.DestinationOperandForms : Prop :=
  ∀ (s : State) (r : RegIdx) (v : Word) (b : Byte),
    dstReadWord s (.reg r) = .ok (s.x r) ∧
    dstReadByte s (.reg r) = .ok ((s.x r).extractLsb' 0 8) ∧
    dstReadWord s (.ind r) = s.memReadWord (s.x r) ∧
    dstReadByte s (.ind r) = s.memReadByte (s.x r) ∧
    dstWriteWord s (.reg r) v = .ok (s.setX r v) ∧
    dstWriteByte s (.reg r) b = .ok (s.setXByte r b) ∧
    dstWriteWord s (.ind r) v = s.memWriteWord (s.x r) v ∧
    dstWriteByte s (.ind r) b = s.memWriteByte (s.x r) b ∧
    (∀ t, dstWriteWord s (.ind r) v = .ok t → t.x r = s.x r) ∧
    (∀ t, dstWriteByte s (.ind r) b = .ok t → t.x r = s.x r) ∧
    (∀ (S : Src), S.implicitDst = none →
      implicitWriteWord s S v = .ok s ∧ implicitWriteByte s S b = .ok s)

/-! ### No-op, move, load constant -/

/-- R170: NOOP is the zero word, any bits beside the opcode are ignored, and the only effect is `pc <- k +
1`. -/
def Obligations.NoopOnlyAdvances : Prop :=
  encode OpcodeMap.standard .noop = some 0x00000000#32 ∧
  (∀ w : Word, decOpcode w = 0#6 → decode OpcodeMap.standard w = .ok .noop) ∧
  ∀ s : State, exec .noop s = .next (s.setPc (s.pc + 1))

/-- The moves complete for every form of both operands: the destination holds arg2's value (R171 to R173).
-/
def Obligations.MovesComplete : Prop :=
  ∀ (s : State) (d : Arg1) (a : Arg2) (D : Dst) (S : Src),
    resolve1 d = .ok D → resolve2 a = .ok S →
    (∀ v, srcWord s.postFetch .int S = .ok v → dstFits s.postFetch D 4 = true →
      exec (.movi d a) s = .next (storedWord s.postFetch D v)) ∧
    (∀ v, srcWord s.postFetch .float S = .ok v → dstFits s.postFetch D 4 = true →
      exec (.movf d a) s = .next (storedWord s.postFetch D v)) ∧
    (∀ v, srcByte s.postFetch S = .ok v → dstFits s.postFetch D 1 = true →
      exec (.movb d a) s = .next (storedByte s.postFetch D v))

/-- The load-constant instructions complete: the datum at the constant's address, or for LDCA the address
itself, with no access to data memory but the destination's (R174 to R177). -/
def Obligations.LoadConstantsComplete : Prop :=
  ∀ (s : State) (d : Arg1) (k : BitVec 19) (D : Dst) (p : Word),
    resolve1 d = .ok D → s.prog.cat[k.toNat]? = some p →
    (p.toNat + 4 ≤ s.params.memSize → dstFits s.postFetch D 4 = true →
      exec (.ldci d (.const k)) s =
        .next (storedWord s.postFetch D (s.mem.readWord s.params.byteOrder p.toNat)) ∧
      exec (.ldcf d (.const k)) s =
        .next (storedWord s.postFetch D (s.mem.readWord s.params.byteOrder p.toNat))) ∧
    (p.toNat + 1 ≤ s.params.memSize → dstFits s.postFetch D 1 = true →
      exec (.ldcb d (.const k)) s = .next (storedByte s.postFetch D (s.mem.read p.toNat))) ∧
    (dstFits s.postFetch D 4 = true →
      exec (.ldca d (.const k)) s = .next (storedWord s.postFetch D p))

/-! ### Push, pop, duplicate -/

/-- The pushes complete when the new top fits: the value arg2 had before `sp` changed is stored there
(R190 to R192). -/
def Obligations.PushesComplete : Prop :=
  ∀ (s : State) (a : Arg2) (S : Src), resolve2 a = .ok S →
    ((s.sp - 4).toNat + 4 ≤ s.params.memSize →
      (∀ v, srcWord s.postFetch .int S = .ok v →
        exec (.pushi a) s =
          .next { s.postFetch.setSp (s.sp - 4) with
                  mem := s.mem.writeWord s.params.byteOrder (s.sp - 4).toNat v }) ∧
      (∀ v, srcWord s.postFetch .float S = .ok v →
        exec (.pushf a) s =
          .next { s.postFetch.setSp (s.sp - 4) with
                  mem := s.mem.writeWord s.params.byteOrder (s.sp - 4).toNat v })) ∧
    ((s.sp - 1).toNat + 1 ≤ s.params.memSize →
      ∀ v, srcByte s.postFetch S = .ok v →
        exec (.pushb a) s =
          .next { s.postFetch.setSp (s.sp - 1) with mem := s.mem.write (s.sp - 1).toNat v })

/-- The pops complete when the stack has a datum: `sp` rises by the lane width, then the implicit
destination, if there is one, receives the datum (R193 to R195; resolving an unused arg2 is the spec's own
decision D18). -/
def Obligations.PopsComplete : Prop :=
  ∀ (s : State) (a : Arg2) (S : Src), resolve2 a = .ok S →
    (s.sp.toNat + 4 ≤ s.params.memSize →
      (∀ x, srcWord s.postFetch .int S = .ok x →
        (S.implicitDst = none → exec (.popi a) s = .next (s.postFetch.setSp (s.sp + 4))) ∧
        (∀ D, S.implicitDst = some D → dstFits (s.postFetch.setSp (s.sp + 4)) D 4 = true →
          exec (.popi a) s = .next (storedWord (s.postFetch.setSp (s.sp + 4)) D
            (s.mem.readWord s.params.byteOrder s.sp.toNat)))) ∧
      (∀ x, srcWord s.postFetch .float S = .ok x →
        (S.implicitDst = none → exec (.popf a) s = .next (s.postFetch.setSp (s.sp + 4))) ∧
        (∀ D, S.implicitDst = some D → dstFits (s.postFetch.setSp (s.sp + 4)) D 4 = true →
          exec (.popf a) s = .next (storedWord (s.postFetch.setSp (s.sp + 4)) D
            (s.mem.readWord s.params.byteOrder s.sp.toNat))))) ∧
    (s.sp.toNat + 1 ≤ s.params.memSize →
      ∀ x, srcByte s.postFetch S = .ok x →
        (S.implicitDst = none → exec (.popb a) s = .next (s.postFetch.setSp (s.sp + 1))) ∧
        (∀ D, S.implicitDst = some D → dstFits (s.postFetch.setSp (s.sp + 1)) D 1 = true →
          exec (.popb a) s =
            .next (storedByte (s.postFetch.setSp (s.sp + 1)) D (s.mem.read s.sp.toNat))))

/-- The duplicates complete when the stack has a datum and room for another: the datum is stored at the
new top, then the implicit destination, if there is one, receives it (R196 to R198; resolving an unused
arg2 is the spec's own decision D18). -/
def Obligations.DuplicatesComplete : Prop :=
  ∀ (s : State) (a : Arg2) (S : Src), resolve2 a = .ok S →
    (s.sp.toNat + 4 ≤ s.params.memSize → (s.sp - 4).toNat + 4 ≤ s.params.memSize →
      ∀ v u, v = s.mem.readWord s.params.byteOrder s.sp.toNat →
        u = { s.postFetch.setSp (s.sp - 4) with
              mem := s.mem.writeWord s.params.byteOrder (s.sp - 4).toNat v } →
      (∀ x, srcWord s.postFetch .int S = .ok x →
        (S.implicitDst = none → exec (.dupi a) s = .next u) ∧
        (∀ D, S.implicitDst = some D → dstFits u D 4 = true →
          exec (.dupi a) s = .next (storedWord u D v))) ∧
      (∀ x, srcWord s.postFetch .float S = .ok x →
        (S.implicitDst = none → exec (.dupf a) s = .next u) ∧
        (∀ D, S.implicitDst = some D → dstFits u D 4 = true →
          exec (.dupf a) s = .next (storedWord u D v)))) ∧
    (s.sp.toNat + 1 ≤ s.params.memSize → (s.sp - 1).toNat + 1 ≤ s.params.memSize →
      ∀ v u, v = s.mem.read s.sp.toNat →
        u = { s.postFetch.setSp (s.sp - 1) with mem := s.mem.write (s.sp - 1).toNat v } →
      ∀ x, srcByte s.postFetch S = .ok x →
        (S.implicitDst = none → exec (.dupb a) s = .next u) ∧
        (∀ D, S.implicitDst = some D → dstFits u D 1 = true →
          exec (.dupb a) s = .next (storedByte u D v)))

/-- The stack round-trip (R199 (c), R193): a push and then a pop into a register other than `sp` leaves
the value pushed in the register and `sp` as it was; for words in either order and for bytes. -/
def Obligations.PushThenPopRestores : Prop :=
  ∀ (s : State) (a : Arg2) (S : Src) (i : BitVec 19) (r : RegIdx),
    s.mem.wf = true → resolve2 a = .ok S → resolve2 (.reg i) = .ok (.reg r) → r ≠ RegIdx.sp →
    (∀ v, srcWord s.postFetch .int S = .ok v → (s.sp - 4).toNat + 4 ≤ s.params.memSize →
      ∃ t u, exec (.pushi a) s = .next t ∧ exec (.popi (.reg i)) t = .next u ∧
        u.status = s.status ∧ u.x r = v ∧ u.sp = s.sp) ∧
    (∀ v, srcByte s.postFetch S = .ok v → (s.sp - 1).toNat + 1 ≤ s.params.memSize →
      ∃ t u, exec (.pushb a) s = .next t ∧ exec (.popb (.reg i)) t = .next u ∧
        u.status = s.status ∧ u.x r = v.signExtend 32 ∧ u.sp = s.sp)

/-! ### Compare-skip, jump, call, return -/

/-- The compare-skips complete: nothing but `pc` changes, which is `k + 1` when arg1 compares true with
arg2 and `k + 2` when it does not (R210 to R215; that the comparisons are signed, and ordered on floats,
is the spec's own decision D17). -/
def Obligations.CompareSkipsComplete : Prop :=
  ∀ (s : State) (d : Arg1) (a : Arg2) (D : Dst) (S : Src),
    resolve1 d = .ok D → resolve2 a = .ok S →
    (∀ b c, srcWord s.postFetch .int S = .ok b → dstReadWord s.postFetch D = .ok c →
      exec (.ifi d a) s =
        .next (s.setPc (if b.toInt < c.toInt then s.pc + 1 else s.pc + 2)) ∧
      exec (.ifei d a) s =
        .next (s.setPc (if b.toInt ≤ c.toInt then s.pc + 1 else s.pc + 2))) ∧
    (∀ b c, srcWord s.postFetch .float S = .ok b → dstReadWord s.postFetch D = .ok c →
      exec (.iff d a) s = .next (s.setPc (if fgt c b = true then s.pc + 1 else s.pc + 2)) ∧
      exec (.ifef d a) s = .next (s.setPc (if fge c b = true then s.pc + 1 else s.pc + 2))) ∧
    (∀ b c, srcByte s.postFetch S = .ok b → dstReadByte s.postFetch D = .ok c →
      exec (.ifb d a) s =
        .next (s.setPc (if b.toInt < c.toInt then s.pc + 1 else s.pc + 2)) ∧
      exec (.ifeb d a) s =
        .next (s.setPc (if b.toInt ≤ c.toInt then s.pc + 1 else s.pc + 2)))

/-- R216 to R218: JMP, CALL and RET complete in every state, and raise no fault. JMP and CALL go to the
zero-extended 24-bit target, CALL leaves the index after it in `r`, RET goes to `r`; nothing else changes.
Their words under the spec's opcode map are the base with the target in the low 24 bits, and bits 25 and
24, or all operand bits of RET, are ignored. -/
def Obligations.JumpCallReturnComplete : Prop :=
  ∀ (s : State) (w : Word) (t : BitVec 24),
    exec (.jmp t) s = .next (s.setPc (t.setWidth 32)) ∧
    exec (.call t) s = .next ((s.setX RegIdx.ra (s.pc + 1)).setPc (t.setWidth 32)) ∧
    exec .ret s = .next (s.setPc (s.x RegIdx.ra)) ∧
    encode OpcodeMap.standard (.jmp t) = some (0x5C000000#32 ||| t.setWidth 32) ∧
    encode OpcodeMap.standard (.call t) = some (0x60000000#32 ||| t.setWidth 32) ∧
    encode OpcodeMap.standard .ret = some 0x64000000#32 ∧
    (w &&& 0xFC000000#32 = 0x5C000000#32 →
      decode OpcodeMap.standard w = .ok (.jmp (w.extractLsb' 0 24))) ∧
    (w &&& 0xFC000000#32 = 0x60000000#32 →
      decode OpcodeMap.standard w = .ok (.call (w.extractLsb' 0 24))) ∧
    (w &&& 0xFC000000#32 = 0x64000000#32 → decode OpcodeMap.standard w = .ok .ret)

/-! ### Print -/

/-- The prints complete: one event with the lane's value is appended to the output stream, and beside `pc`
nothing else changes (R231 to R234). -/
def Obligations.PrintsAppendOneEvent : Prop :=
  ∀ (s : State) (a : Arg2) (S : Src), resolve2 a = .ok S →
    (∀ v, srcWord s.postFetch .int S = .ok v →
      exec (.printi a) s = .next { s.setPc (s.pc + 1) with out := s.out ++ [.outI v] }) ∧
    (∀ v, srcWord s.postFetch .float S = .ok v →
      exec (.printf a) s = .next { s.setPc (s.pc + 1) with out := s.out ++ [.outF v] }) ∧
    (∀ v, srcByte s.postFetch S = .ok v →
      exec (.printb a) s = .next { s.setPc (s.pc + 1) with out := s.out ++ [.outB v] } ∧
      exec (.printc a) s = .next { s.setPc (s.pc + 1) with out := s.out ++ [.outC v] })

/-! ### Arithmetic -/

/-- ADD, SUB and MUL of the integer and the byte lane complete for every form: the destination holds `dest
op arg2` (R240, R244, R246, R247, R249, R250, R252), modulo the lane width (the spec's own decision D13).
-/
def Obligations.AddSubMulComplete : Prop :=
  ∀ (s : State) (d : Arg1) (a : Arg2) (D : Dst) (S : Src),
    resolve1 d = .ok D → resolve2 a = .ok S →
    (∀ b c, srcWord s.postFetch .int S = .ok b → dstReadWord s.postFetch D = .ok c →
      exec (.addi d a) s = .next (storedWord s.postFetch D (c + b)) ∧
      exec (.subi d a) s = .next (storedWord s.postFetch D (c - b)) ∧
      exec (.muli d a) s = .next (storedWord s.postFetch D (c * b))) ∧
    (∀ b c, srcByte s.postFetch S = .ok b → dstReadByte s.postFetch D = .ok c →
      exec (.addb d a) s = .next (storedByte s.postFetch D (c + b)) ∧
      exec (.subb d a) s = .next (storedByte s.postFetch D (c - b)) ∧
      exec (.mulb d a) s = .next (storedByte s.postFetch D (c * b)))

/-- DIV and MOD of the integer and the byte lane complete for every non-zero divisor: the quotient rounded
toward zero, and the remainder it leaves (R240, R253, R255, R256, R258; the rounding is the spec's own
decision D13). -/
def Obligations.DivModComplete : Prop :=
  ∀ (s : State) (d : Arg1) (a : Arg2) (D : Dst) (S : Src),
    resolve1 d = .ok D → resolve2 a = .ok S →
    (∀ b c, srcWord s.postFetch .int S = .ok b → dstReadWord s.postFetch D = .ok c → b ≠ 0#32 →
      exec (.divi d a) s =
        .next (storedWord s.postFetch D (BitVec.ofInt 32 (c.toInt.tdiv b.toInt))) ∧
      exec (.modi d a) s =
        .next (storedWord s.postFetch D (BitVec.ofInt 32 (c.toInt.tmod b.toInt)))) ∧
    (∀ b c, srcByte s.postFetch S = .ok b → dstReadByte s.postFetch D = .ok c → b ≠ 0#8 →
      exec (.divb d a) s =
        .next (storedByte s.postFetch D (BitVec.ofInt 8 (c.toInt.tdiv b.toInt))) ∧
      exec (.modb d a) s =
        .next (storedByte s.postFetch D (BitVec.ofInt 8 (c.toInt.tmod b.toInt))))

/-- The laws of the integer lane, their consequences, and the sign table for 7 and 2 (the spec's own
decision D13). -/
def Obligations.IntegerLaneLaws : Prop :=
  (∀ a b : Word,
    (addI a b).toNat = (a.toNat + b.toNat) % 2 ^ 32 ∧
    ((subI a b).toNat : Int) = ((a.toNat : Int) - b.toNat) % 2 ^ 32 ∧
    (mulI a b).toNat = a.toNat * b.toNat % 2 ^ 32 ∧
    (b ≠ 0#32 →
      ((divI a b).toNat : Int) = a.toInt.tdiv b.toInt % 2 ^ 32 ∧
      ((modI a b).toNat : Int) = (a.toInt - b.toInt * a.toInt.tdiv b.toInt) % 2 ^ 32 ∧
      divI a b * b + modI a b = a ∧
      |(modI a b).toInt| < |b.toInt| ∧
      ((modI a b).toInt = 0 ∨ ((modI a b).toInt < 0 ↔ a.toInt < 0)))) ∧
  divI 0x80000000#32 0xFFFFFFFF#32 = 0x80000000#32 ∧ modI 0x80000000#32 0xFFFFFFFF#32 = 0#32 ∧
  divI 7#32 2#32 = 3#32 ∧ modI 7#32 2#32 = 1#32 ∧
  divI (-7#32) 2#32 = -3#32 ∧ modI (-7#32) 2#32 = -1#32 ∧
  divI 7#32 (-2#32) = -3#32 ∧ modI 7#32 (-2#32) = 1#32 ∧
  divI (-7#32) (-2#32) = 3#32 ∧ modI (-7#32) (-2#32) = -1#32

/-- The laws of the byte lane, with the corner -128 / -1 (the spec's own decisions D11 and D13). -/
def Obligations.ByteLaneLaws : Prop :=
  (∀ a b : Byte,
    (addB a b).toNat = (a.toNat + b.toNat) % 2 ^ 8 ∧
    ((subB a b).toNat : Int) = ((a.toNat : Int) - b.toNat) % 2 ^ 8 ∧
    (mulB a b).toNat = a.toNat * b.toNat % 2 ^ 8 ∧
    (b ≠ 0#8 →
      ((divB a b).toNat : Int) = a.toInt.tdiv b.toInt % 2 ^ 8 ∧
      ((modB a b).toNat : Int) = (a.toInt - b.toInt * a.toInt.tdiv b.toInt) % 2 ^ 8 ∧
      divB a b * b + modB a b = a ∧
      |(modB a b).toInt| < |b.toInt|)) ∧
  divB 0x80#8 0xFF#8 = 0x80#8 ∧ modB 0x80#8 0xFF#8 = 0#8

/-- The float arithmetic instructions complete for every form and every pair of patterns, but a zero
divisor of DIVF and MODF: the result, or for a NaN result the pattern NAN_RESULT asks for (R240, R242 (d),
R245, R248, R251, R254, R257). Under NAN_RESULT = any nothing is said of the pattern but that it is a NaN
(log 3). -/
def Obligations.FloatArithmeticCompletes : Prop :=
  ∀ (s : State) (d : Arg1) (a : Arg2) (D : Dst) (S : Src) (b c : Word),
    resolve1 d = .ok D → resolve2 a = .ok S →
    srcWord s.postFetch .float S = .ok b → dstReadWord s.postFetch D = .ok c →
    floatOutcome s D (fadd c b) (exec (.addf d a) s) ∧
    floatOutcome s D (fsub c b) (exec (.subf d a) s) ∧
    floatOutcome s D (fmul c b) (exec (.mulf d a) s) ∧
    (b ≠ 0x00000000#32 → b ≠ 0x80000000#32 →
      floatOutcome s D (fdiv c b) (exec (.divf d a) s) ∧
      floatOutcome s D (frem c b) (exec (.modf d a) s))

/-- Sums, differences, products and quotients of finite patterns are the exact result rounded to nearest,
ties to even (the spec's own decision D15); in units of 2^-149 a product's exact value is over 2^149 and a
quotient's is scaled by it. -/
def Obligations.FloatResultsAreRoundedToNearestEven : Prop :=
  ∀ a b : Word, fExp a ≠ 255 → fExp b ≠ 255 →
    (∃ r, fadd a b = some r ∧ isRounded r (fInt a + fInt b) 1) ∧
    (∃ r, fsub a b = some r ∧ isRounded r (fInt a - fInt b) 1) ∧
    (∃ r, fmul a b = some r ∧ isRounded r (fInt a * fInt b) (2 ^ 149)) ∧
    (0 < fInt b → ∃ r, fdiv a b = some r ∧ isRounded r (fInt a * 2 ^ 149) (fInt b).natAbs) ∧
    (fInt b < 0 → ∃ r, fdiv a b = some r ∧ isRounded r (-fInt a * 2 ^ 149) (fInt b).natAbs)

/-- The special values of float arithmetic (the spec's own decision D15): a NaN operand or an invalid
operation gives a NaN; an infinite operand dominates, and a finite dividend over an infinite divisor is a
zero of the quotient's sign; `x - x` is `+0.0`, a zero sum is `-0.0` only when both terms are, and products
and quotients, zeros included, have the sign their operands give. -/
def Obligations.FloatSpecialValues : Prop :=
  ∀ a b : Word,
    (fIsNan a = true ∨ fIsNan b = true →
      fadd a b = none ∧ fsub a b = none ∧ fmul a b = none ∧ fdiv a b = none ∧ frem a b = none) ∧
    (fExp a ≠ 255 → fsub a a = some 0x00000000#32) ∧
    (fIsInf a = true → fsub a a = none ∧ fdiv a a = none) ∧
    (fIsInf a = true → fExp b ≠ 255 →
      fadd a b = some a ∧ fadd b a = some a ∧ frem a b = none ∧ frem b a = some b ∧
      fsub a b = some a ∧ fsub b a = some (fInf (!fSign a)) ∧
      fdiv b a = some (if fSign a = fSign b then 0x00000000#32 else 0x80000000#32) ∧
      (fIsZero b = true → fmul a b = none ∧ fmul b a = none) ∧
      (fIsZero b = false → fmul a b = some (fInf (fSign a != fSign b)) ∧
        fmul b a = some (fInf (fSign a != fSign b)) ∧
        fdiv a b = some (fInf (fSign a != fSign b)))) ∧
    (fIsInf a = true → fIsInf b = true →
      fadd a b = (if fSign a = fSign b then some a else none) ∧
      fsub a b = (if fSign a = fSign b then none else some a) ∧
      fmul a b = some (fInf (fSign a != fSign b)) ∧ fdiv a b = none ∧ frem a b = none) ∧
    (fExp a ≠ 255 → fExp b ≠ 255 →
      (fInt a + fInt b = 0 → fadd a b =
        some (if fSign a = true ∧ fSign b = true then 0x80000000#32 else 0x00000000#32)) ∧
      (fInt a = fInt b → fsub a b =
        some (if fSign a = true ∧ fSign b = false then 0x80000000#32 else 0x00000000#32)) ∧
      (∀ r, fmul a b = some r → fSign r = (fSign a != fSign b)) ∧
      (fIsZero a = true ∨ fIsZero b = true → fmul a b =
        some (if fSign a = fSign b then 0x00000000#32 else 0x80000000#32)) ∧
      (fIsZero b = false →
        (∀ r, fdiv a b = some r → fSign r = (fSign a != fSign b)) ∧
        (fIsZero a = true → fdiv a b =
          some (if fSign a = fSign b then 0x00000000#32 else 0x80000000#32))))

/-- The spec's own decision D15: the float remainder of finite patterns is exact, has the sign of the
dividend and a magnitude below the divisor's, and differs from the dividend by a multiple of the divisor.
-/
def Obligations.FloatRemainderIsTruncatedAndExact : Prop :=
  ∀ a b : Word, fExp a ≠ 255 → fExp b ≠ 255 → fIsZero b = false →
    ∃ r, frem a b = some r ∧ fExp r ≠ 255 ∧ fSign r = fSign a ∧ fMag r < fMag b ∧
      fInt r = (fInt a).tmod (fInt b)

/-- The spec's own decision D17: the float comparisons are ordered, false when an operand is a NaN, the
two zeros equal, finite patterns compared by value, and an infinity beyond every finite value. -/
def Obligations.FloatComparisonsAreOrdered : Prop :=
  ∀ a b : Word,
    (fIsNan a = true ∨ fIsNan b = true → fgt a b = false ∧ fge a b = false) ∧
    (fIsZero a = true → fIsZero b = true → fgt a b = false ∧ fge a b = true) ∧
    (fExp a ≠ 255 → fExp b ≠ 255 →
      (fgt a b = true ↔ fInt b < fInt a) ∧ (fge a b = true ↔ fInt b ≤ fInt a)) ∧
    (fExp b ≠ 255 → fgt (fInf false) b = true ∧ fge (fInf false) b = true ∧
      fgt b (fInf true) = true ∧ fge b (fInf true) = true) ∧
    (fgt (fInf false) (fInf true) = true ∧ fgt a a = false) ∧
    (fIsNan a = false → fge a a = true)

/-! ### Bitwise and shifts -/

/-- OR, AND, XOR and NOT complete for every form: NOT writes the complement of arg2 and reads no
destination (R272 to R279). -/
def Obligations.BitwiseComplete : Prop :=
  ∀ (s : State) (d : Arg1) (a : Arg2) (D : Dst) (S : Src),
    resolve1 d = .ok D → resolve2 a = .ok S →
    (∀ b c, srcWord s.postFetch .int S = .ok b → dstReadWord s.postFetch D = .ok c →
      exec (.ori d a) s = .next (storedWord s.postFetch D (c ||| b)) ∧
      exec (.andi d a) s = .next (storedWord s.postFetch D (c &&& b)) ∧
      exec (.xori d a) s = .next (storedWord s.postFetch D (c ^^^ b))) ∧
    (∀ b c, srcByte s.postFetch S = .ok b → dstReadByte s.postFetch D = .ok c →
      exec (.orb d a) s = .next (storedByte s.postFetch D (c ||| b)) ∧
      exec (.andb d a) s = .next (storedByte s.postFetch D (c &&& b)) ∧
      exec (.xorb d a) s = .next (storedByte s.postFetch D (c ^^^ b))) ∧
    (∀ b, srcWord s.postFetch .int S = .ok b → dstFits s.postFetch D 4 = true →
      exec (.noti d a) s = .next (storedWord s.postFetch D (~~~b))) ∧
    (∀ b, srcByte s.postFetch S = .ok b → dstFits s.postFetch D 1 = true →
      exec (.notb d a) s = .next (storedByte s.postFetch D (~~~b)))

/-- The shifts complete for every form: the destination is shifted by the low 5 bits of arg2's lane value
(R270, R280 to R285; the amount is the spec's own decision D16). -/
def Obligations.ShiftsComplete : Prop :=
  ∀ (s : State) (d : Arg1) (a : Arg2) (D : Dst) (S : Src),
    resolve1 d = .ok D → resolve2 a = .ok S →
    (∀ b c, srcWord s.postFetch .int S = .ok b → dstReadWord s.postFetch D = .ok c →
      exec (.szrli d a) s = .next (storedWord s.postFetch D (c >>> (b.toNat % 32))) ∧
      exec (.srli d a) s = .next (storedWord s.postFetch D (c.sshiftRight (b.toNat % 32))) ∧
      exec (.slli d a) s = .next (storedWord s.postFetch D (c <<< (b.toNat % 32)))) ∧
    (∀ b c, srcByte s.postFetch S = .ok b → dstReadByte s.postFetch D = .ok c →
      exec (.szrlb d a) s = .next (storedByte s.postFetch D (c >>> (b.toNat % 32))) ∧
      exec (.srlb d a) s = .next (storedByte s.postFetch D (c.sshiftRight (b.toNat % 32))) ∧
      exec (.sllb d a) s = .next (storedByte s.postFetch D (c <<< (b.toNat % 32))))

/-- The spec's own decision D16: the shift functions of both lanes as arithmetic, with the amount
`b[4:0]`; in the byte lane an amount of 8 or more leaves zeros, or the sign. -/
def Obligations.ShiftLaws : Prop :=
  (∀ a b : Word, amtWord b = b.toNat % 32 ∧
    (shlI a b).toNat = a.toNat * 2 ^ amtWord b % 2 ^ 32 ∧
    (shruI a b).toNat = a.toNat / 2 ^ amtWord b ∧
    ((shrsI a b).toNat : Int) = a.toInt / 2 ^ amtWord b % 2 ^ 32) ∧
  (∀ a b : Byte, amtByte b = b.toNat % 32 ∧
    (shlB a b).toNat = a.toNat * 2 ^ amtByte b % 2 ^ 8 ∧
    (shruB a b).toNat = a.toNat / 2 ^ amtByte b ∧
    ((shrsB a b).toNat : Int) = a.toInt / 2 ^ amtByte b % 2 ^ 8 ∧
    (8 ≤ amtByte b → shlB a b = 0x00#8 ∧ shruB a b = 0x00#8 ∧
      shrsB a b = if a.msb then 0xFF#8 else 0x00#8))

/-! ### What every step keeps -/

/-- Every step keeps the invariant: memory canonical and inside `[0, MEM_SIZE)`, a fault at `pc`, a halt
past the end. -/
def Obligations.StepKeepsInvariant : Prop :=
  ∀ s t : State, s.Inv → step s = .next t → t.Inv

/-- The invariant holds at the model's reset state (log 5). -/
def Obligations.ResetHasInvariant : Prop := State.reset.Inv

/-- The invariant holds after every launch. -/
def Obligations.LaunchHasInvariant : Prop :=
  ∀ (p : Params) (a : Artifact) (s : State), launch p a = .ok s → s.Inv

/-- No step changes an instruction word or the constant-address table, and no fetch sees a store: with
another memory the fetch gives the same instruction (R70). That no step changes a parameter is the model's
choice of where parameters stand (log 1). -/
def Obligations.StepKeepsProgramAndParameters : Prop :=
  (∀ s t : State, step s = .next t → t.prog = s.prog ∧ t.params = s.params) ∧
  (∀ (s : State) (m : Memory) (i : Instr), s.fetchInstr = .ok i →
    ({ s with mem := m } : State).fetchInstr = .ok i)

/-- R39: the output stream is empty at reset and only ever appended to: a step that changes it has fetched
a print instruction and appends one event. No instruction reads it: with another stream before it, an
instruction does the same and appends the same. -/
def Obligations.OutputStreamIsAppendOnlyAndUnread : Prop :=
  State.reset.out = [] ∧
  (∀ s t : State, step s = .next t →
    t.out = s.out ∨
    ∃ e i w, t.out = s.out ++ [e] ∧ s.prog.imem[s.pc.toNat]? = some w ∧
      decode s.params.opcodes w = .ok i ∧ isPrint i = true) ∧
  (∀ (i : Instr) (s t : State) (o : List OutEvent), exec i s = .next t →
    ∃ l, t.out = s.out ++ l ∧ exec i { s with out := o } = .next { t with out := o ++ l })

/-! ### Frames -/

/-- Every register cell but `pc` is unchanged, unless it is one the instruction names as its destination,
`sp` of a stack instruction, or `r` of CALL. -/
def Obligations.OnlyWrittenRegistersChange : Prop :=
  ∀ (i : Instr) (s t : State), exec i s = .next t →
    ∀ j : RegIdx, j ≠ RegIdx.pc → j ∉ writtenRegs i → t.x j = s.x j

/-- Every byte of memory is unchanged, but those of the instruction's indirect destination and of the
stack slot of a push or duplicate, at the addresses the instruction computes. -/
def Obligations.OnlyStoredBytesChange : Prop :=
  ∀ (i : Instr) (s t : State), s.mem.wf = true → exec i s = .next t →
    ∀ a : Nat, a ∉ storedAddrs i s.postFetch → t.mem.read a = s.mem.read a

/-- An instruction that is no compare-skip, jump, call or return and does not name `pc` as its destination
leaves `pc = k + 1`, unless it faults (10_state.md section 2, 40_operands.md R142). -/
def Obligations.PcAdvancesByOne : Prop :=
  ∀ (i : Instr) (s t : State), exec i s = .next t → isControl i = false →
    RegIdx.pc ∉ writtenRegs i → t.pc = s.pc + 1 ∨ ∃ c, t = s.raise c

/-- The rest of the state: an instruction that does not print leaves the output stream, one that is no
float arithmetic leaves the model's counter of draws, and `status` changes only by a fault. -/
def Obligations.InstructionsLeaveTheRest : Prop :=
  ∀ (i : Instr) (s t : State), exec i s = .next t →
    (isPrint i = false → t.out = s.out) ∧
    (isFloatArith i = false ∨ s.params.nanResult = .canonical → t.draws = s.draws) ∧
    (t.status = s.status ∨ ∃ c, t = s.raise c)

/-! ### Reset and the loader -/

/-- Reset for an artifact: the registers, the output stream and `status`; the numeric constants from
address 0, the strings packed after them each with a zero byte, their addresses in CAT, and zeros above.
The zeros of `r`, of the general registers and above the constants are the spec's own decision D24 (log
4). -/
def Obligations.LaunchResetsTheMachine : Prop :=
  ∀ (p : Params) (a : Artifact) (s : State), launch p a = .ok s →
    s.sp = BitVec.ofNat 32 (p.memSize - 1) ∧ s.pc = 0#32 ∧ s.x RegIdx.ra = 0#32 ∧
    s.x RegIdx.heap = BitVec.ofNat 32 a.heapStart ∧
    (∀ r : RegIdx, 4 ≤ r.val → s.x r = 0#32) ∧
    s.out = [] ∧ s.status = .running ∧ s.params = p ∧ s.prog.imem = a.words ∧
    s.prog.cat.length = a.nums.length + a.strs.length ∧
    (∀ j v, a.nums[j]? = some v →
      s.prog.cat[j]? = some (BitVec.ofNat 32 (4 * j)) ∧ s.mem.readWord p.byteOrder (4 * j) = v) ∧
    (∀ j b q, a.strs[j]? = some b →
      q = 4 * a.nums.length + ((a.strs.take j).map (fun c => c.length + 1)).sum →
      s.prog.cat[a.nums.length + j]? = some (BitVec.ofNat 32 q) ∧
      (∀ n c, b[n]? = some c → s.mem.read (q + n) = c) ∧ s.mem.read (q + b.length) = 0#8) ∧
    (∀ q, a.heapStart ≤ q → s.mem.read q = 0#8)

/-- A launch is accepted exactly when the parameters and the artifact meet the loader's requirements
(R331, the constraints of R10, and the program bound of R32, the spec's own decision D23); otherwise it is
refused (log 10). That a table must give each instruction its own operand class is log 2. -/
def Obligations.LaunchRequirements : Prop :=
  ∀ (p : Params) (a : Artifact),
    (∃ s, launch p a = .ok s) ↔
      1 ≤ p.memSize ∧ p.memSize ≤ 2 ^ 31 ∧ a.heapStart ≤ p.memSize ∧
      a.nums.length + a.strs.length ≤ 2 ^ 19 ∧ a.entry = 0 ∧ a.len = a.words.length ∧
      a.words.length < 2 ^ 31 ∧ p.opcodes.valid = true

/-- The model's choice of reset state (log 5): the launch of the empty artifact with the default
parameters. -/
def Obligations.ResetIsTheEmptyLaunch : Prop :=
  launch Params.default { words := [], entry := 0, len := 0, nums := [], strs := [] } = .ok State.reset

/-! ### Disassembly -/

/-- The spec's own decision D29: assembling the disassembled line of a well-formed instruction that refers
to no constant gives the word back. -/
def Obligations.DisassemblyReassembles : Prop :=
  ∀ (i : Instr) (w : Word), i.wf = true → noConstant i.operands = true →
    encode OpcodeMap.standard i = some w →
    assemble OpcodeMap.standard RegNames.standard (disasm OpcodeMap.standard RegNames.standard w) =
      .ok { words := [w], entry := 0, len := 1, nums := [], strs := [] }
end

