-- ==== Sys2Proof/Laws/PerInstr.lean ====
section
/-! SUPPORT. Facts about each instruction as syntax, one lemma per constructor. -/

namespace Sys2Proof

/-- An instruction has operands of the class its meaning takes (30_encoding.md R101), and is what the
decoder makes of them. -/
def Laws.Parts.Statement (i : Instr) : Prop :=
  i.operands.cls = i.op.cls ∧ instrOf i.op i.operands = some i

theorem Laws.Parts.noop : Laws.Parts.Statement .noop :=
  ⟨rfl, rfl⟩
theorem Laws.Parts.movi (d : Arg1) (a : Arg2) : Laws.Parts.Statement (.movi d a) :=
  ⟨rfl, rfl⟩
theorem Laws.Parts.movf (d : Arg1) (a : Arg2) : Laws.Parts.Statement (.movf d a) :=
  ⟨rfl, rfl⟩
theorem Laws.Parts.movb (d : Arg1) (a : Arg2) : Laws.Parts.Statement (.movb d a) :=
  ⟨rfl, rfl⟩
theorem Laws.Parts.ldci (d : Arg1) (a : Arg2) : Laws.Parts.Statement (.ldci d a) :=
  ⟨rfl, rfl⟩
theorem Laws.Parts.ldcf (d : Arg1) (a : Arg2) : Laws.Parts.Statement (.ldcf d a) :=
  ⟨rfl, rfl⟩
theorem Laws.Parts.ldcb (d : Arg1) (a : Arg2) : Laws.Parts.Statement (.ldcb d a) :=
  ⟨rfl, rfl⟩
theorem Laws.Parts.ldca (d : Arg1) (a : Arg2) : Laws.Parts.Statement (.ldca d a) :=
  ⟨rfl, rfl⟩
theorem Laws.Parts.pushi (a : Arg2) : Laws.Parts.Statement (.pushi a) :=
  ⟨rfl, rfl⟩
theorem Laws.Parts.pushf (a : Arg2) : Laws.Parts.Statement (.pushf a) :=
  ⟨rfl, rfl⟩
theorem Laws.Parts.pushb (a : Arg2) : Laws.Parts.Statement (.pushb a) :=
  ⟨rfl, rfl⟩
theorem Laws.Parts.popi (a : Arg2) : Laws.Parts.Statement (.popi a) :=
  ⟨rfl, rfl⟩
theorem Laws.Parts.popf (a : Arg2) : Laws.Parts.Statement (.popf a) :=
  ⟨rfl, rfl⟩
theorem Laws.Parts.popb (a : Arg2) : Laws.Parts.Statement (.popb a) :=
  ⟨rfl, rfl⟩
theorem Laws.Parts.dupi (a : Arg2) : Laws.Parts.Statement (.dupi a) :=
  ⟨rfl, rfl⟩
theorem Laws.Parts.dupf (a : Arg2) : Laws.Parts.Statement (.dupf a) :=
  ⟨rfl, rfl⟩
theorem Laws.Parts.dupb (a : Arg2) : Laws.Parts.Statement (.dupb a) :=
  ⟨rfl, rfl⟩
theorem Laws.Parts.ifi (d : Arg1) (a : Arg2) : Laws.Parts.Statement (.ifi d a) :=
  ⟨rfl, rfl⟩
theorem Laws.Parts.iff (d : Arg1) (a : Arg2) : Laws.Parts.Statement (.iff d a) :=
  ⟨rfl, rfl⟩
theorem Laws.Parts.ifb (d : Arg1) (a : Arg2) : Laws.Parts.Statement (.ifb d a) :=
  ⟨rfl, rfl⟩
theorem Laws.Parts.ifei (d : Arg1) (a : Arg2) : Laws.Parts.Statement (.ifei d a) :=
  ⟨rfl, rfl⟩
theorem Laws.Parts.ifef (d : Arg1) (a : Arg2) : Laws.Parts.Statement (.ifef d a) :=
  ⟨rfl, rfl⟩
theorem Laws.Parts.ifeb (d : Arg1) (a : Arg2) : Laws.Parts.Statement (.ifeb d a) :=
  ⟨rfl, rfl⟩
theorem Laws.Parts.jmp (t : BitVec 24) : Laws.Parts.Statement (.jmp t) :=
  ⟨rfl, rfl⟩
theorem Laws.Parts.call (t : BitVec 24) : Laws.Parts.Statement (.call t) :=
  ⟨rfl, rfl⟩
theorem Laws.Parts.ret : Laws.Parts.Statement .ret :=
  ⟨rfl, rfl⟩
theorem Laws.Parts.printi (a : Arg2) : Laws.Parts.Statement (.printi a) :=
  ⟨rfl, rfl⟩
theorem Laws.Parts.printf (a : Arg2) : Laws.Parts.Statement (.printf a) :=
  ⟨rfl, rfl⟩
theorem Laws.Parts.printb (a : Arg2) : Laws.Parts.Statement (.printb a) :=
  ⟨rfl, rfl⟩
theorem Laws.Parts.printc (a : Arg2) : Laws.Parts.Statement (.printc a) :=
  ⟨rfl, rfl⟩
theorem Laws.Parts.addi (d : Arg1) (a : Arg2) : Laws.Parts.Statement (.addi d a) :=
  ⟨rfl, rfl⟩
theorem Laws.Parts.addf (d : Arg1) (a : Arg2) : Laws.Parts.Statement (.addf d a) :=
  ⟨rfl, rfl⟩
theorem Laws.Parts.addb (d : Arg1) (a : Arg2) : Laws.Parts.Statement (.addb d a) :=
  ⟨rfl, rfl⟩
theorem Laws.Parts.subi (d : Arg1) (a : Arg2) : Laws.Parts.Statement (.subi d a) :=
  ⟨rfl, rfl⟩
theorem Laws.Parts.subf (d : Arg1) (a : Arg2) : Laws.Parts.Statement (.subf d a) :=
  ⟨rfl, rfl⟩
theorem Laws.Parts.subb (d : Arg1) (a : Arg2) : Laws.Parts.Statement (.subb d a) :=
  ⟨rfl, rfl⟩
theorem Laws.Parts.muli (d : Arg1) (a : Arg2) : Laws.Parts.Statement (.muli d a) :=
  ⟨rfl, rfl⟩
theorem Laws.Parts.mulf (d : Arg1) (a : Arg2) : Laws.Parts.Statement (.mulf d a) :=
  ⟨rfl, rfl⟩
theorem Laws.Parts.mulb (d : Arg1) (a : Arg2) : Laws.Parts.Statement (.mulb d a) :=
  ⟨rfl, rfl⟩
theorem Laws.Parts.divi (d : Arg1) (a : Arg2) : Laws.Parts.Statement (.divi d a) :=
  ⟨rfl, rfl⟩
theorem Laws.Parts.divf (d : Arg1) (a : Arg2) : Laws.Parts.Statement (.divf d a) :=
  ⟨rfl, rfl⟩
theorem Laws.Parts.divb (d : Arg1) (a : Arg2) : Laws.Parts.Statement (.divb d a) :=
  ⟨rfl, rfl⟩
theorem Laws.Parts.modi (d : Arg1) (a : Arg2) : Laws.Parts.Statement (.modi d a) :=
  ⟨rfl, rfl⟩
theorem Laws.Parts.modf (d : Arg1) (a : Arg2) : Laws.Parts.Statement (.modf d a) :=
  ⟨rfl, rfl⟩
theorem Laws.Parts.modb (d : Arg1) (a : Arg2) : Laws.Parts.Statement (.modb d a) :=
  ⟨rfl, rfl⟩
theorem Laws.Parts.ori (d : Arg1) (a : Arg2) : Laws.Parts.Statement (.ori d a) :=
  ⟨rfl, rfl⟩
theorem Laws.Parts.orb (d : Arg1) (a : Arg2) : Laws.Parts.Statement (.orb d a) :=
  ⟨rfl, rfl⟩
theorem Laws.Parts.andi (d : Arg1) (a : Arg2) : Laws.Parts.Statement (.andi d a) :=
  ⟨rfl, rfl⟩
theorem Laws.Parts.andb (d : Arg1) (a : Arg2) : Laws.Parts.Statement (.andb d a) :=
  ⟨rfl, rfl⟩
theorem Laws.Parts.xori (d : Arg1) (a : Arg2) : Laws.Parts.Statement (.xori d a) :=
  ⟨rfl, rfl⟩
theorem Laws.Parts.xorb (d : Arg1) (a : Arg2) : Laws.Parts.Statement (.xorb d a) :=
  ⟨rfl, rfl⟩
theorem Laws.Parts.noti (d : Arg1) (a : Arg2) : Laws.Parts.Statement (.noti d a) :=
  ⟨rfl, rfl⟩
theorem Laws.Parts.notb (d : Arg1) (a : Arg2) : Laws.Parts.Statement (.notb d a) :=
  ⟨rfl, rfl⟩
theorem Laws.Parts.szrli (d : Arg1) (a : Arg2) : Laws.Parts.Statement (.szrli d a) :=
  ⟨rfl, rfl⟩
theorem Laws.Parts.szrlb (d : Arg1) (a : Arg2) : Laws.Parts.Statement (.szrlb d a) :=
  ⟨rfl, rfl⟩
theorem Laws.Parts.srli (d : Arg1) (a : Arg2) : Laws.Parts.Statement (.srli d a) :=
  ⟨rfl, rfl⟩
theorem Laws.Parts.srlb (d : Arg1) (a : Arg2) : Laws.Parts.Statement (.srlb d a) :=
  ⟨rfl, rfl⟩
theorem Laws.Parts.slli (d : Arg1) (a : Arg2) : Laws.Parts.Statement (.slli d a) :=
  ⟨rfl, rfl⟩
theorem Laws.Parts.sllb (d : Arg1) (a : Arg2) : Laws.Parts.Statement (.sllb d a) :=
  ⟨rfl, rfl⟩

end Sys2Proof
end

