-- ==== Sys2Proof/Laws/Codec.lean ====
section
/-! SUPPORT. The codec: the field extractors and the encoder as arithmetic on numbers, with which a codec
fact is a goal for omega, and what a decoding that succeeds says. -/

namespace Sys2Proof

theorem decOpcode_toNat (w : Word) : (decOpcode w).toNat = w.toNat / 2 ^ 26 % 2 ^ 6 := by
  simp [decOpcode, BitVec.extractLsb'_toNat, Nat.shiftRight_eq_div_pow]

theorem decArg1Value_toNat (w : Word) : (decArg1Value w).toNat = w.toNat / 2 ^ 21 % 2 ^ 4 := by
  simp [decArg1Value, BitVec.extractLsb'_toNat, Nat.shiftRight_eq_div_pow]

theorem decArg2Value_toNat (w : Word) : (decArg2Value w).toNat = w.toNat % 2 ^ 19 := by
  simp [decArg2Value, BitVec.extractLsb'_toNat]

theorem decImm24_toNat (w : Word) : (decImm24 w).toNat = w.toNat % 2 ^ 24 := by
  simp [decImm24, BitVec.extractLsb'_toNat]

/-- A bit of a word as a number. -/
theorem getLsbD_toNat (w : Word) (k : Nat) : (w.getLsbD k).toNat = w.toNat / 2 ^ k % 2 := by
  rw [← BitVec.testBit_toNat, Nat.testBit_eq_decide_div_mod_eq]
  rcases Nat.mod_two_eq_zero_or_one (w.toNat / 2 ^ k) with h | h <;> simp [h]

theorem decArg1Addr_toNat (w : Word) : (decArg1Addr w).toNat = w.toNat / 2 ^ 25 % 2 :=
  getLsbD_toNat w 25

theorem decArg2Reg_toNat (w : Word) : (decArg2Reg w).toNat = w.toNat / 2 ^ 20 % 2 :=
  getLsbD_toNat w 20

theorem decArg2Addr_toNat (w : Word) : (decArg2Addr w).toNat = w.toNat / 2 ^ 19 % 2 :=
  getLsbD_toNat w 19

/-- The fields of the standard layout fill 32 bits and do not overlap (R81, R95). -/
theorem encStd_toNat (op : BitVec 6) (a : Bool) (r : BitVec 4) (g f : Bool) (v : BitVec 19) :
    (encStd op a r g f v).toNat =
      op.toNat * 2 ^ 26 + a.toNat * 2 ^ 25 + r.toNat * 2 ^ 21 + g.toNat * 2 ^ 20 + f.toNat * 2 ^ 19
        + v.toNat := by
  have h1 := op.isLt
  have h2 := r.isLt
  have h3 := v.isLt
  have h4 := Bool.toNat_le a
  have h5 := Bool.toNat_le g
  have h6 := Bool.toNat_le f
  rw [encStd, BitVec.toNat_ofNat]
  omega

/-- The fields of the jump layout leave bits 25 and 24 zero (R96). -/
theorem encJmp_toNat (op : BitVec 6) (t : BitVec 24) :
    (encJmp op t).toNat = op.toNat * 2 ^ 26 + t.toNat := by
  have h1 := op.isLt
  have h2 := t.isLt
  rw [encJmp, BitVec.toNat_ofNat]
  omega

/-- The low `k` bits of a word. -/
theorem and_low_toNat (w : Word) (k : Nat) (hk : k ≤ 32) :
    (w &&& BitVec.ofNat 32 (2 ^ k - 1)).toNat = w.toNat % 2 ^ k := by
  have h1 : 2 ^ k ≤ 2 ^ 32 := Nat.pow_le_pow_right (by omega) hk
  have h2 := Nat.two_pow_pos k
  rw [BitVec.toNat_and, BitVec.toNat_ofNat, Nat.mod_eq_of_lt (by omega), Nat.and_two_pow_sub_one_eq_mod]

/-- The opcode bits of a word alone. -/
theorem and_opcode_toNat (w : Word) : (w &&& 0xFC000000#32).toNat = w.toNat / 2 ^ 26 * 2 ^ 26 := by
  have h : w &&& 0xFC000000#32 = (w >>> 26) <<< 26 := by
    apply BitVec.eq_of_getLsbD_eq
    intro i hi
    interval_cases i <;> simp
  have hw := w.isLt
  rw [h]
  simp [Nat.shiftLeft_eq, Nat.shiftRight_eq_div_pow]
  omega

/-- The opcode bits of a word with other bits below them. -/
theorem and_opcode_or_toNat (w m : Word) (h : m &&& 0xFC000000#32 = 0#32) :
    (w &&& (0xFC000000#32 ||| m)).toNat = w.toNat / 2 ^ 26 * 2 ^ 26 + (w &&& m).toNat := by
  rw [← and_opcode_toNat, ← BitVec.toNat_add_of_lt]
  · congr 1
    rw [BitVec.add_eq_or_of_and_eq_zero, BitVec.and_or_distrib_left]
    rw [show w &&& 0xFC000000#32 &&& (w &&& m) = w &&& w &&& (m &&& 0xFC000000#32) by ac_rfl, h]
    simp
  · have hw := w.isLt
    have h0 : (w &&& m) &&& 0xFC000000#32 = 0#32 := by
      rw [BitVec.and_assoc, h]
      simp
    have h1 := and_opcode_toNat (w &&& m)
    rw [h0] at h1
    rw [and_opcode_toNat]
    simp only [BitVec.toNat_ofNat, Nat.zero_mod] at h1
    omega

/-! ### What a decoding says -/

/-- The operands of a word of a class belong to that class. -/
@[simp] theorem decOperands_cls (c : OpClass) (w : Word) : (decOperands c w).cls = c := by
  cases c <;> rfl

/-- An instruction is made of its name and its operands, of the class its meaning takes. -/
theorem instrOf_eq_some (op : Op) (o : Operands) (i : Instr) :
    instrOf op o = some i ↔ i.op = op ∧ i.operands = o := by
  constructor
  · intro h
    cases op <;> cases o <;>
      simp only [instrOf, ofNone, ofOne, ofTwo, ofJump, reduceCtorEq, Option.some.injEq] at h <;>
      subst h <;> exact ⟨rfl, rfl⟩
  · rintro ⟨rfl, rfl⟩
    cases i <;> rfl

/-- Operands make an instruction exactly when they are of the class its meaning takes. -/
theorem instrOf_isSome (op : Op) (o : Operands) : (instrOf op o).isSome = (o.cls == op.cls) := by
  cases op <;> cases o <;> rfl

/-- A word decodes to an instruction exactly when the row of its opcode stands for the instruction and the
row's class gives its operands; the row's class is then the instruction's. -/
theorem decode_eq_ok (m : OpcodeMap) (w : Word) (i : Instr) :
    decode m w = .ok i ↔
      ∃ row, m.rowAt (decOpcode w) = some row ∧ row.op = i.op ∧ row.cls = i.op.cls ∧
        decOperands row.cls w = i.operands := by
  have hc : i.operands.cls = i.op.cls := by cases i <;> rfl
  simp only [decode, decodeRow]
  cases hr : m.rowAt (decOpcode w) with
  | none => simp
  | some row =>
    cases hi : instrOf row.op (decOperands row.cls w) with
    | none =>
      have hn : ¬ (i.op = row.op ∧ i.operands = decOperands row.cls w) := by
        rw [← instrOf_eq_some, hi]
        simp
      simp [hi]
      intro h1 _ h2
      exact hn ⟨h1.symm, h2.symm⟩
    | some j =>
      obtain ⟨h1, h2⟩ := (instrOf_eq_some _ _ _).1 hi
      simp [hi]
      constructor
      · rintro rfl
        refine ⟨h1.symm, ?_, h2.symm⟩
        rw [← hc, h2, decOperands_cls]
      · rintro ⟨h3, _, h4⟩
        have := (instrOf_eq_some row.op (decOperands row.cls w) i).2 ⟨h3.symm, h4.symm⟩
        simpa [hi] using this

/-- A word decodes to no instruction exactly when the map assigns its opcode none (R103). -/
theorem decode_eq_error (m : OpcodeMap) (w : Word) :
    decode m w = .error (.unrecognizedOpcode w) ↔ m.opAt (decOpcode w) = none := by
  simp only [decode, decodeRow, OpcodeMap.opAt]
  cases hr : m.rowAt (decOpcode w) with
  | none => simp
  | some row =>
    have h := instrOf_isSome row.op (decOperands row.cls w)
    rw [decOperands_cls] at h
    cases hi : instrOf row.op (decOperands row.cls w) <;> rw [hi] at h <;> simp_all

end Sys2Proof
end

