-- ==== Sys2Proof/Laws/Memory.lean ====
section
/-! SUPPORT. The laws of data memory: read after write, what a write leaves alone, and that every memory
operation keeps the canonical form. -/

namespace Sys2Proof.Machine

/-- Reading after a byte write. -/
theorem Memory.read_write (m : Memory) (a b : Nat) (v : Byte) (h : m.Pairwise (fun c d => c.1 < d.1)) :
    (m.write a v).read b = if b = a then v else m.read b := by
  induction m with
  | nil =>
    by_cases hv : v = Memory.unlisted <;> by_cases hb : b = a <;>
      simp [Memory.write, Memory.read, hv, hb]
  | cons c rest ih =>
    obtain ⟨k, w⟩ := c
    obtain ⟨hk, hr⟩ := List.pairwise_cons.1 h
    have low : ∀ x, x ≤ k → Memory.read rest x = Memory.unlisted := by
      intro x hx
      clear ih h hr
      induction rest with
      | nil => rfl
      | cons d rest ih =>
        have hd := hk d (by simp)
        simp only at hd
        have : x ≠ d.1 := by omega
        simp only [Memory.read, this, if_false]
        exact ih (fun e he => hk e (by simp [he]))
    simp only [Memory.write]
    split
    · rename_i hak
      split
      · rename_i hv
        by_cases hb : b = a
        · subst hb
          simp [Memory.read, hv, low b (by omega), Nat.ne_of_lt hak]
        · simp [hb]
      · by_cases hb : b = a <;> simp [Memory.read, hb]
    · split
      · subst_vars
        split <;> by_cases hb : b = k <;> simp_all [Memory.read]
      · rename_i h1 h2
        simp only [Memory.read]
        by_cases hb : b = k
        · have : k ≠ a := fun e => h2 e.symm
          simp [hb, this]
        · simp [hb, ih hr]

/-- A byte write keeps every listed address but the written one. -/
theorem Memory.mem_write {m : Memory} {a : Nat} {v : Byte} {c : Host.Cell} (h : c ∈ m.write a v) :
    c ∈ m ∨ (c = (a, v) ∧ v ≠ Memory.unlisted) := by
  induction m with
  | nil =>
    simp only [Memory.write] at h
    split at h <;> simp_all
  | cons d rest ih =>
    obtain ⟨k, w⟩ := d
    simp only [Memory.write] at h
    split at h
    · split at h
      · exact .inl h
      · rcases List.mem_cons.1 h with rfl | h
        · simp_all
        · exact .inl h
    · split at h
      · split at h
        · exact .inl (List.mem_cons_of_mem _ h)
        · rcases List.mem_cons.1 h with rfl | h
          · simp_all
          · exact .inl (List.mem_cons_of_mem _ h)
      · rcases List.mem_cons.1 h with rfl | h
        · simp
        · rcases ih h with h | h <;> simp_all

theorem Memory.wf_iff (m : Memory) : m.wf = true ↔
    m.Pairwise (fun c d => c.1 < d.1) ∧ ∀ c ∈ m, c.2 ≠ Memory.unlisted := by
  simp [Memory.wf]

/-- A byte write keeps the canonical form. -/
theorem Memory.write_wf (m : Memory) (a : Nat) (v : Byte) (h : m.wf = true) :
    (m.write a v).wf = true := by
  rw [Memory.wf_iff] at h ⊢
  obtain ⟨h1, h2⟩ := h
  refine ⟨?_, ?_⟩
  · clear h2
    induction m with
    | nil =>
      simp only [Memory.write]
      split <;> simp
    | cons c rest ih =>
      obtain ⟨k, w⟩ := c
      obtain ⟨hk, hr⟩ := List.pairwise_cons.1 h1
      simp only [Memory.write]
      split
      · split
        · exact h1
        · refine List.pairwise_cons.2 ⟨?_, h1⟩
          intro d hd
          rcases List.mem_cons.1 hd with rfl | hd
          · assumption
          · have := hk d hd
            simp only at this ⊢
            omega
      · split
        · split
          · exact hr
          · subst_vars
            exact List.pairwise_cons.2 ⟨hk, hr⟩
        · refine List.pairwise_cons.2 ⟨?_, ih hr⟩
          intro d hd
          rcases Memory.mem_write hd with hd | ⟨rfl, _⟩
          · exact hk d hd
          · simp only
            omega
  · intro c hc
    rcases Memory.mem_write hc with hc | ⟨rfl, hv⟩
    · exact h2 c hc
    · exact hv

/-- A word write keeps the canonical form. -/
theorem Memory.writeWord_wf (o : ByteOrder) (m : Memory) (a : Nat) (v : Word) (h : m.wf = true) :
    (m.writeWord o a v).wf = true :=
  Memory.write_wf _ _ _ (Memory.write_wf _ _ _ (Memory.write_wf _ _ _ (Memory.write_wf _ _ _ h)))

/-- Reading a byte after a word write in canonical memory. -/
theorem Memory.read_writeWord (o : ByteOrder) (m : Memory) (a b : Nat) (v : Word) (h : m.wf = true) :
    (m.writeWord o a v).read b =
      if a ≤ b ∧ b < a + 4 then wordByte o v (b - a) else m.read b := by
  have p : ∀ {n : Memory}, n.wf = true → n.Pairwise (fun c d => c.1 < d.1) :=
    fun hn => ((Memory.wf_iff _).1 hn).1
  have h1 := Memory.write_wf m a (wordByte o v 0) h
  have h2 := Memory.write_wf _ (a + 1) (wordByte o v 1) h1
  have h3 := Memory.write_wf _ (a + 2) (wordByte o v 2) h2
  unfold Memory.writeWord
  rw [Memory.read_write _ _ _ _ (p h3), Memory.read_write _ _ _ _ (p h2),
    Memory.read_write _ _ _ _ (p h1), Memory.read_write _ _ _ _ (p h)]
  by_cases c3 : b = a + 3
  · simp [c3]
  by_cases c2 : b = a + 2
  · simp [c2]
  by_cases c1 : b = a + 1
  · simp [c1]
  by_cases c0 : b = a
  · simp [c0]
  have : ¬(a ≤ b ∧ b < a + 4) := by omega
  simp [c3, c2, c1, c0, this]

/-- The four bytes of a word, put together in either order, are the word. -/
theorem wordByte_join (v : Word) :
    (wordByte .big v 0 ++ wordByte .big v 1 ++ wordByte .big v 2 ++ wordByte .big v 3 : Word) = v ∧
    (wordByte .little v 3 ++ wordByte .little v 2 ++ wordByte .little v 1 ++ wordByte .little v 0 : Word)
      = v := by
  constructor <;>
  · apply BitVec.eq_of_getLsbD_eq
    intro i hi
    simp only [wordByte, BitVec.getLsbD_append, BitVec.getLsbD_extractLsb']
    by_cases h1 : i < 8
    · simp [h1]
    by_cases h2 : i < 16
    · have e : 8 + (i - 8) = i := by omega
      simp [h1, show i - 8 < 8 by omega, e]
    by_cases h3 : i < 24
    · have e : 16 + (i - 8 - 8) = i := by omega
      simp [h1, show ¬ i - 8 < 8 by omega, show i - 8 - 8 < 8 by omega, e]
    · have e : 24 + (i - 8 - 8 - 8) = i := by omega
      simp [h1, show ¬ i - 8 < 8 by omega, show ¬ i - 8 - 8 < 8 by omega,
        show i - 8 - 8 - 8 < 8 by omega, e]

/-- Reading a word back. -/
theorem Memory.readWord_writeWord (o : ByteOrder) (m : Memory) (a : Nat) (v : Word) (h : m.wf = true) :
    (m.writeWord o a v).readWord o a = v := by
  cases o <;> simp only [Memory.readWord, Memory.read_writeWord _ _ _ _ _ h]
  · simpa using (wordByte_join v).1
  · simpa using (wordByte_join v).2

/-! ### Accesses of the datapath: everything each can do -/

/-- A byte read answers the byte when the address is in range, and the fault otherwise. -/
theorem State.memReadByte_ok {s : State} {a : Word} {v : Byte} :
    s.memReadByte a = .ok v ↔ s.inRange a 1 = true ∧ v = s.mem.read a.toNat := by
  unfold State.memReadByte
  split <;> rename_i h <;> simp [h, eq_comm]

theorem State.memReadByte_error {s : State} {a : Word} {c : Cause} :
    s.memReadByte a = .error c ↔ s.inRange a 1 = false ∧ c = .memoryAccessOutOfRange a := by
  unfold State.memReadByte
  split <;> rename_i h <;> simp [h, eq_comm]

/-- A word read answers the word when all four bytes are in range, and the fault otherwise. -/
theorem State.memReadWord_ok {s : State} {a v : Word} :
    s.memReadWord a = .ok v ↔
      s.inRange a 4 = true ∧ v = s.mem.readWord s.params.byteOrder a.toNat := by
  unfold State.memReadWord
  split <;> rename_i h <;> simp [h, eq_comm]

theorem State.memReadWord_error {s : State} {a : Word} {c : Cause} :
    s.memReadWord a = .error c ↔ s.inRange a 4 = false ∧ c = .memoryAccessOutOfRange a := by
  unfold State.memReadWord
  split <;> rename_i h <;> simp [h, eq_comm]

/-- A byte write changes memory alone, when the address is in range. -/
theorem State.memWriteByte_ok {s t : State} {a : Word} {v : Byte} :
    s.memWriteByte a v = .ok t ↔
      s.inRange a 1 = true ∧ t = { s with mem := s.mem.write a.toNat v } := by
  unfold State.memWriteByte
  split <;> rename_i h <;> simp [h, eq_comm]

theorem State.memWriteByte_error {s : State} {a : Word} {v : Byte} {c : Cause} :
    s.memWriteByte a v = .error c ↔ s.inRange a 1 = false ∧ c = .memoryAccessOutOfRange a := by
  unfold State.memWriteByte
  split <;> rename_i h <;> simp [h, eq_comm]

/-- A word write changes memory alone, when all four bytes are in range. -/
theorem State.memWriteWord_ok {s t : State} {a v : Word} :
    s.memWriteWord a v = .ok t ↔
      s.inRange a 4 = true ∧
        t = { s with mem := s.mem.writeWord s.params.byteOrder a.toNat v } := by
  unfold State.memWriteWord
  split <;> rename_i h <;> simp [h, eq_comm]

theorem State.memWriteWord_error {s : State} {a v : Word} {c : Cause} :
    s.memWriteWord a v = .error c ↔ s.inRange a 4 = false ∧ c = .memoryAccessOutOfRange a := by
  unfold State.memWriteWord
  split <;> rename_i h <;> simp [h, eq_comm]

theorem State.inRange_iff {s : State} {a : Word} {n : Nat} :
    s.inRange a n = true ↔ a.toNat + n ≤ s.params.memSize := by
  simp [State.inRange]

end Sys2Proof.Machine
end

