-- ==== Sys2Proof/Laws/State.lean ====
section
/-! SUPPORT. One lemma per field per update of the state, so that no later proof unfolds a record update. -/

namespace Sys2Proof.Machine

/-! ### Register writes -/

@[simp] theorem State.x_setX_self (s : State) (i : RegIdx) (v : Word) : (s.setX i v).x i = v := by
  simp [State.x, State.setX]

theorem State.x_setX (s : State) (i j : RegIdx) (v : Word) :
    (s.setX i v).x j = if j = i then v else s.x j := by
  by_cases h : j = i
  · simp [h]
  · have h' : (i : Nat) ≠ j := fun e => h (Fin.ext e.symm)
    simp [State.x, State.setX, h, Vector.getElem_set_ne, h']

@[simp] theorem State.x_setX_ne (s : State) (i j : RegIdx) (v : Word) (h : j ≠ i) :
    (s.setX i v).x j = s.x j := by
  simp [State.x_setX, h]

/-- Of two writes of one cell the last one stands. -/
@[simp] theorem State.setX_setX (s : State) (i : RegIdx) (v w : Word) :
    (s.setX i v).setX i w = s.setX i w := by
  simp only [State.setX]
  congr 1
  ext j hj
  by_cases h : (i : Nat) = j <;> simp [h]

@[simp] theorem State.setX_mem (s : State) (i : RegIdx) (v : Word) : (s.setX i v).mem = s.mem := rfl
@[simp] theorem State.setX_out (s : State) (i : RegIdx) (v : Word) : (s.setX i v).out = s.out := rfl
@[simp] theorem State.setX_status (s : State) (i : RegIdx) (v : Word) :
    (s.setX i v).status = s.status := rfl
@[simp] theorem State.setX_params (s : State) (i : RegIdx) (v : Word) :
    (s.setX i v).params = s.params := rfl
@[simp] theorem State.setX_prog (s : State) (i : RegIdx) (v : Word) : (s.setX i v).prog = s.prog := rfl
@[simp] theorem State.setX_draws (s : State) (i : RegIdx) (v : Word) :
    (s.setX i v).draws = s.draws := rfl
@[simp] theorem State.setX_inRange (s : State) (i : RegIdx) (v a : Word) (n : Nat) :
    (s.setX i v).inRange a n = s.inRange a n := rfl

theorem State.setXByte_eq (s : State) (i : RegIdx) (v : Byte) :
    s.setXByte i v = s.setX i (v.signExtend 32) := rfl

/-! ### The fetch increment -/

theorem State.x_postFetch (s : State) (j : RegIdx) :
    s.postFetch.x j = if j = RegIdx.pc then s.pc + 1 else s.x j := by
  simp [State.postFetch, State.x_setX]

@[simp] theorem State.postFetch_pc (s : State) : s.postFetch.x RegIdx.pc = s.x RegIdx.pc + 1 := by
  simp [State.postFetch]
@[simp] theorem State.postFetch_sp (s : State) : s.postFetch.x RegIdx.sp = s.x RegIdx.sp := by
  rw [State.x_postFetch, if_neg (by decide)]
@[simp] theorem State.postFetch_ra (s : State) : s.postFetch.x RegIdx.ra = s.x RegIdx.ra := by
  rw [State.x_postFetch, if_neg (by decide)]
@[simp] theorem State.postFetch_mem (s : State) : s.postFetch.mem = s.mem := rfl
@[simp] theorem State.postFetch_out (s : State) : s.postFetch.out = s.out := rfl
@[simp] theorem State.postFetch_status (s : State) : s.postFetch.status = s.status := rfl
@[simp] theorem State.postFetch_params (s : State) : s.postFetch.params = s.params := rfl
@[simp] theorem State.postFetch_prog (s : State) : s.postFetch.prog = s.prog := rfl
@[simp] theorem State.postFetch_draws (s : State) : s.postFetch.draws = s.draws := rfl
@[simp] theorem State.postFetch_inRange (s : State) (a : Word) (n : Nat) :
    s.postFetch.inRange a n = s.inRange a n := rfl

/-! ### A new memory -/

@[simp] theorem State.x_withMem (s : State) (m : Memory) (j : RegIdx) :
    ({ s with mem := m } : State).x j = s.x j := rfl
@[simp] theorem State.withMem_inRange (s : State) (m : Memory) (a : Word) (n : Nat) :
    ({ s with mem := m } : State).inRange a n = s.inRange a n := rfl

/-! ### Output -/

@[simp] theorem State.x_emit (s : State) (e : OutEvent) (j : RegIdx) : (s.emit e).x j = s.x j := rfl
@[simp] theorem State.emit_out (s : State) (e : OutEvent) : (s.emit e).out = s.out ++ [e] := rfl
@[simp] theorem State.emit_mem (s : State) (e : OutEvent) : (s.emit e).mem = s.mem := rfl
@[simp] theorem State.emit_status (s : State) (e : OutEvent) : (s.emit e).status = s.status := rfl
@[simp] theorem State.emit_params (s : State) (e : OutEvent) : (s.emit e).params = s.params := rfl
@[simp] theorem State.emit_prog (s : State) (e : OutEvent) : (s.emit e).prog = s.prog := rfl
@[simp] theorem State.emit_draws (s : State) (e : OutEvent) : (s.emit e).draws = s.draws := rfl

/-! ### Faults and halting -/

@[simp] theorem State.x_raise (s : State) (c : Cause) (j : RegIdx) : (s.raise c).x j = s.x j := rfl
@[simp] theorem State.raise_mem (s : State) (c : Cause) : (s.raise c).mem = s.mem := rfl
@[simp] theorem State.raise_out (s : State) (c : Cause) : (s.raise c).out = s.out := rfl
@[simp] theorem State.raise_status (s : State) (c : Cause) :
    (s.raise c).status = .faulted c s.pc := rfl
@[simp] theorem State.raise_params (s : State) (c : Cause) : (s.raise c).params = s.params := rfl
@[simp] theorem State.raise_prog (s : State) (c : Cause) : (s.raise c).prog = s.prog := rfl
@[simp] theorem State.raise_draws (s : State) (c : Cause) : (s.raise c).draws = s.draws := rfl

@[simp] theorem State.x_halt (s : State) (j : RegIdx) : s.halt.x j = s.x j := rfl
@[simp] theorem State.halt_mem (s : State) : s.halt.mem = s.mem := rfl
@[simp] theorem State.halt_out (s : State) : s.halt.out = s.out := rfl
@[simp] theorem State.halt_status (s : State) : s.halt.status = .halted := rfl
@[simp] theorem State.halt_params (s : State) : s.halt.params = s.params := rfl
@[simp] theorem State.halt_prog (s : State) : s.halt.prog = s.prog := rfl
@[simp] theorem State.halt_draws (s : State) : s.halt.draws = s.draws := rfl

/-! ### NaN draws -/

theorem State.drawNan_canonical (s : State) (h : s.params.nanResult = .canonical) :
    s.drawNan = (canonicalNan, s) := by
  simp [State.drawNan, h]

theorem State.drawNan_any (s : State) (h : s.params.nanResult = .any) :
    s.drawNan = (nanPattern (Config.freeNan s.draws), { s with draws := s.draws + 1 }) := by
  simp [State.drawNan, h]

/-- A draw changes the counter of draws and nothing else. -/
theorem State.drawNan_state (s : State) :
    s.drawNan.2 = { s with draws := s.drawNan.2.draws } := by
  unfold State.drawNan
  split <;> rfl

end Sys2Proof.Machine
end

