-- ==== Sys2Proof/Laws/Operands.lean ====
section
/-! SUPPORT. What each shared operation can do, said once: each lemma takes apart "it answers next t" (or
`.ok t`).  The provers cite these instead of unfolding. -/

namespace Sys2Proof.Machine

/-! ### Sequencing -/

/-- A sequence succeeds when its first part does and the rest does with its value. -/
theorem bind_eq_ok {ε α β : Type} {x : Except ε α} {f : α → Except ε β} {b : β} :
    (x >>= f) = .ok b ↔ ∃ a, x = .ok a ∧ f a = .ok b := by
  cases x <;> simp [bind, Except.bind]

/-- A sequence fails with the first fault met. -/
theorem bind_eq_error {ε α β : Type} {x : Except ε α} {f : α → Except ε β} {e : ε} :
    (x >>= f) = .error e ↔ x = .error e ∨ ∃ a, x = .ok a ∧ f a = .error e := by
  cases x <;> simp [bind, Except.bind]

/-! ### Transactions (40_operands.md R140, 60_exceptions.md R301) -/

/-- A step's transaction takes effect whole, or leaves the state before the step with its fault. -/
theorem transact_next {s t : State} {body : State → Except Cause State} :
    transact s body = .next t ↔
      body s.postFetch = .ok t ∨ ∃ c, body s.postFetch = .error c ∧ t = s.raise c := by
  unfold transact
  split <;> rename_i h <;> simp [h, eq_comm]

/-- A transaction always answers a next state. -/
theorem transact_answers (s : State) (body : State → Except Cause State) :
    ∃ t, transact s body = .next t := by
  unfold transact
  split <;> exact ⟨_, rfl⟩

theorem class1_eq (s : State) (a : Arg2) (body : State → Src → Except Cause State) :
    class1 s a body = transact s (fun t => resolve2 a >>= body t) := rfl

theorem class2_eq (s : State) (d : Arg1) (a : Arg2)
    (body : State → Dst → Src → Except Cause State) :
    class2 s d a body =
      transact s (fun t => resolve1 d >>= fun D => resolve2 a >>= fun S => body t D S) := rfl

/-- With its operand resolved, a class-1 instruction is the transaction of its body. -/
theorem class1_resolved {s : State} {a : Arg2} {S : Src} (h : resolve2 a = .ok S)
    (body : State → Src → Except Cause State) :
    class1 s a body = transact s (fun t => body t S) := by
  simp [class1_eq, h, bind, Except.bind]

/-- With its operands resolved, a class-2 instruction is the transaction of its body. -/
theorem class2_resolved {s : State} {d : Arg1} {a : Arg2} {D : Dst} {S : Src}
    (hd : resolve1 d = .ok D) (ha : resolve2 a = .ok S)
    (body : State → Dst → Src → Except Cause State) :
    class2 s d a body = transact s (fun t => body t D S) := by
  simp [class2_eq, hd, ha, bind, Except.bind]

/-- A class-1 instruction runs its body on a resolved operand, or raises a fault. -/
theorem class1_next {s t : State} {a : Arg2} {body : State → Src → Except Cause State}
    (h : class1 s a body = .next t) :
    (∃ S, resolve2 a = .ok S ∧ body s.postFetch S = .ok t) ∨ ∃ c, t = s.raise c := by
  rcases transact_next.1 h with h | ⟨c, _, rfl⟩
  · obtain ⟨S, h1, h2⟩ := bind_eq_ok.1 h
    exact .inl ⟨S, h1, h2⟩
  · exact .inr ⟨c, rfl⟩

/-- A class-2 instruction runs its body on resolved operands, or raises a fault. -/
theorem class2_next {s t : State} {d : Arg1} {a : Arg2}
    {body : State → Dst → Src → Except Cause State} (h : class2 s d a body = .next t) :
    (∃ D S, resolve1 d = .ok D ∧ resolve2 a = .ok S ∧ body s.postFetch D S = .ok t) ∨
      ∃ c, t = s.raise c := by
  rcases transact_next.1 h with h | ⟨c, _, rfl⟩
  · obtain ⟨D, h1, h2⟩ := bind_eq_ok.1 h
    obtain ⟨S, h3, h4⟩ := bind_eq_ok.1 h2
    exact .inl ⟨D, S, h1, h3, h4⟩
  · exact .inr ⟨c, rfl⟩

/-! ### Destinations (40_operands.md R148, R149) -/

/-- A word write succeeds when the destination fits, and then stores the word there. -/
theorem dstWriteWord_ok {u t : State} {D : Dst} {v : Word} :
    dstWriteWord u D v = .ok t ↔ dstFits u D 4 = true ∧ t = storedWord u D v := by
  cases D with
  | reg r => simp [dstWriteWord, dstFits, storedWord, eq_comm]
  | ind r => simp [dstWriteWord, dstFits, storedWord, State.memWriteWord_ok]

/-- A byte write succeeds when the destination fits, and then stores the byte there. -/
theorem dstWriteByte_ok {u t : State} {D : Dst} {v : Byte} :
    dstWriteByte u D v = .ok t ↔ dstFits u D 1 = true ∧ t = storedByte u D v := by
  cases D with
  | reg r => simp [dstWriteByte, dstFits, storedByte, eq_comm]
  | ind r => simp [dstWriteByte, dstFits, storedByte, State.memWriteByte_ok]

/-- A destination that can be read as a word can be written as one. -/
theorem dstFits_of_readWord {u : State} {D : Dst} {v : Word} (h : dstReadWord u D = .ok v) :
    dstFits u D 4 = true := by
  cases D with
  | reg r => rfl
  | ind r => exact (State.memReadWord_ok.1 h).1

/-- A destination that can be read as a byte can be written as one. -/
theorem dstFits_of_readByte {u : State} {D : Dst} {v : Byte} (h : dstReadByte u D = .ok v) :
    dstFits u D 1 = true := by
  cases D with
  | reg r => rfl
  | ind r => exact (State.memReadByte_ok.1 h).1

/-! ### The bodies: what each can do when it raises no fault -/

theorem modifyWord_ok {f : Word → Word → Word} {u t : State} {D : Dst} {S : Src} :
    modifyWord f u D S = .ok t ↔
      ∃ b a, srcWord u .int S = .ok b ∧ dstReadWord u D = .ok a ∧ t = storedWord u D (f a b) := by
  simp only [modifyWord, bind_eq_ok, dstWriteWord_ok]
  constructor
  · rintro ⟨b, hb, a, ha, _, rfl⟩
    exact ⟨b, a, hb, ha, rfl⟩
  · rintro ⟨b, a, hb, ha, rfl⟩
    exact ⟨b, hb, a, ha, dstFits_of_readWord ha, rfl⟩

theorem modifyByte_ok {f : Byte → Byte → Byte} {u t : State} {D : Dst} {S : Src} :
    modifyByte f u D S = .ok t ↔
      ∃ b a, srcByte u S = .ok b ∧ dstReadByte u D = .ok a ∧ t = storedByte u D (f a b) := by
  simp only [modifyByte, bind_eq_ok, dstWriteByte_ok]
  constructor
  · rintro ⟨b, hb, a, ha, _, rfl⟩
    exact ⟨b, a, hb, ha, rfl⟩
  · rintro ⟨b, a, hb, ha, rfl⟩
    exact ⟨b, hb, a, ha, dstFits_of_readByte ha, rfl⟩

theorem moveWord_ok {lane : WordLane} {u t : State} {D : Dst} {S : Src} :
    moveWord lane u D S = .ok t ↔
      ∃ v, srcWord u lane S = .ok v ∧ dstFits u D 4 = true ∧ t = storedWord u D v := by
  simp only [moveWord, bind_eq_ok, dstWriteWord_ok]

theorem moveByte_ok {u t : State} {D : Dst} {S : Src} :
    moveByte u D S = .ok t ↔
      ∃ v, srcByte u S = .ok v ∧ dstFits u D 1 = true ∧ t = storedByte u D v := by
  simp only [moveByte, bind_eq_ok, dstWriteByte_ok]

theorem requireConst_ok {w : Word} {S : Src} {k : BitVec 19} :
    requireConst w S = .ok k ↔ S = .const k := by
  cases S <;> simp [requireConst]

theorem loadConstWord_ok {w : Word} {lane : WordLane} {u t : State} {D : Dst} {S : Src} :
    loadConstWord w lane u D S = .ok t ↔
      ∃ k v, S = .const k ∧ srcWord u lane (.const k) = .ok v ∧ dstFits u D 4 = true ∧
        t = storedWord u D v := by
  simp only [loadConstWord, bind_eq_ok, dstWriteWord_ok, requireConst_ok]
  constructor
  · rintro ⟨k, hk, v, hv, h⟩
    exact ⟨k, v, hk, hv, h⟩
  · rintro ⟨k, v, hk, hv, h⟩
    exact ⟨k, hk, v, hv, h⟩

theorem loadConstByte_ok {w : Word} {u t : State} {D : Dst} {S : Src} :
    loadConstByte w u D S = .ok t ↔
      ∃ k v, S = .const k ∧ srcByte u (.const k) = .ok v ∧ dstFits u D 1 = true ∧
        t = storedByte u D v := by
  simp only [loadConstByte, bind_eq_ok, dstWriteByte_ok, requireConst_ok]
  constructor
  · rintro ⟨k, hk, v, hv, h⟩
    exact ⟨k, v, hk, hv, h⟩
  · rintro ⟨k, v, hk, hv, h⟩
    exact ⟨k, hk, v, hv, h⟩

theorem loadConstAddr_ok {w : Word} {u t : State} {D : Dst} {S : Src} :
    loadConstAddr w u D S = .ok t ↔
      ∃ k v, S = .const k ∧ u.constAddr k = .ok v ∧ dstFits u D 4 = true ∧
        t = storedWord u D v := by
  simp only [loadConstAddr, bind_eq_ok, dstWriteWord_ok, requireConst_ok]
  constructor
  · rintro ⟨k, hk, v, hv, h⟩
    exact ⟨k, v, hk, hv, h⟩
  · rintro ⟨k, v, hk, hv, h⟩
    exact ⟨k, hk, v, hv, h⟩

theorem complementWord_ok {u t : State} {D : Dst} {S : Src} :
    complementWord u D S = .ok t ↔
      ∃ b, srcWord u .int S = .ok b ∧ dstFits u D 4 = true ∧ t = storedWord u D (~~~b) := by
  simp only [complementWord, bind_eq_ok, dstWriteWord_ok]

theorem complementByte_ok {u t : State} {D : Dst} {S : Src} :
    complementByte u D S = .ok t ↔
      ∃ b, srcByte u S = .ok b ∧ dstFits u D 1 = true ∧ t = storedByte u D (~~~b) := by
  simp only [complementByte, bind_eq_ok, dstWriteByte_ok]

theorem divisorCheck_ok {z : Bool} {x : Unit} : divisorCheck z = .ok x ↔ z = false := by
  cases z <;> simp [divisorCheck]

theorem divideWord_ok {f : Word → Word → Word} {u t : State} {D : Dst} {S : Src} :
    divideWord f u D S = .ok t ↔
      ∃ b a, srcWord u .int S = .ok b ∧ dstReadWord u D = .ok a ∧ zeroWord b = false ∧
        t = storedWord u D (f a b) := by
  simp only [divideWord, bind_eq_ok, dstWriteWord_ok, divisorCheck_ok]
  constructor
  · rintro ⟨b, hb, a, ha, _, hz, _, rfl⟩
    exact ⟨b, a, hb, ha, hz, rfl⟩
  · rintro ⟨b, a, hb, ha, hz, rfl⟩
    exact ⟨b, hb, a, ha, (), hz, dstFits_of_readWord ha, rfl⟩

theorem divideByte_ok {f : Byte → Byte → Byte} {u t : State} {D : Dst} {S : Src} :
    divideByte f u D S = .ok t ↔
      ∃ b a, srcByte u S = .ok b ∧ dstReadByte u D = .ok a ∧ zeroByte b = false ∧
        t = storedByte u D (f a b) := by
  simp only [divideByte, bind_eq_ok, dstWriteByte_ok, divisorCheck_ok]
  constructor
  · rintro ⟨b, hb, a, ha, _, hz, _, rfl⟩
    exact ⟨b, a, hb, ha, hz, rfl⟩
  · rintro ⟨b, a, hb, ha, hz, rfl⟩
    exact ⟨b, hb, a, ha, (), hz, dstFits_of_readByte ha, rfl⟩

/-- A float result changes at most the counter of draws. -/
theorem floatResult_state (u : State) (r : Option Word) :
    (floatResult u r).2 = { u with draws := (floatResult u r).2.draws } := by
  cases r with
  | some v => rfl
  | none => exact State.drawNan_state u

theorem dstFits_floatResult (u : State) (r : Option Word) (D : Dst) (n : Nat) :
    dstFits (floatResult u r).2 D n = dstFits u D n := by
  rw [floatResult_state]
  cases D <;> rfl

theorem modifyFloat_ok {f : Word → Word → Option Word} {u t : State} {D : Dst} {S : Src} :
    modifyFloat f u D S = .ok t ↔
      ∃ b a, srcWord u .float S = .ok b ∧ dstReadWord u D = .ok a ∧
        t = storedWord (floatResult u (f a b)).2 D (floatResult u (f a b)).1 := by
  simp only [modifyFloat, bind_eq_ok, dstWriteWord_ok, dstFits_floatResult]
  constructor
  · rintro ⟨b, hb, a, ha, _, rfl⟩
    exact ⟨b, a, hb, ha, rfl⟩
  · rintro ⟨b, a, hb, ha, rfl⟩
    exact ⟨b, hb, a, ha, dstFits_of_readWord ha, rfl⟩

theorem divideFloat_ok {f : Word → Word → Option Word} {u t : State} {D : Dst} {S : Src} :
    divideFloat f u D S = .ok t ↔
      ∃ b a, srcWord u .float S = .ok b ∧ dstReadWord u D = .ok a ∧ zeroFloat b = false ∧
        t = storedWord (floatResult u (f a b)).2 D (floatResult u (f a b)).1 := by
  simp only [divideFloat, bind_eq_ok, dstWriteWord_ok, dstFits_floatResult, divisorCheck_ok]
  constructor
  · rintro ⟨b, hb, a, ha, _, hz, _, rfl⟩
    exact ⟨b, a, hb, ha, hz, rfl⟩
  · rintro ⟨b, a, hb, ha, hz, rfl⟩
    exact ⟨b, hb, a, ha, (), hz, dstFits_of_readWord ha, rfl⟩

theorem compareWord_ok {lane : WordLane} {f : Word → Word → Bool} {u t : State} {D : Dst} {S : Src} :
    compareWord lane f u D S = .ok t ↔
      ∃ b a, srcWord u lane S = .ok b ∧ dstReadWord u D = .ok a ∧ t = skipUnless u (f a b) := by
  simp only [compareWord, bind_eq_ok, Except.ok.injEq]
  constructor
  · rintro ⟨b, hb, a, ha, rfl⟩
    exact ⟨b, a, hb, ha, rfl⟩
  · rintro ⟨b, a, hb, ha, rfl⟩
    exact ⟨b, hb, a, ha, rfl⟩

theorem compareByte_ok {f : Byte → Byte → Bool} {u t : State} {D : Dst} {S : Src} :
    compareByte f u D S = .ok t ↔
      ∃ b a, srcByte u S = .ok b ∧ dstReadByte u D = .ok a ∧ t = skipUnless u (f a b) := by
  simp only [compareByte, bind_eq_ok, Except.ok.injEq]
  constructor
  · rintro ⟨b, hb, a, ha, rfl⟩
    exact ⟨b, a, hb, ha, rfl⟩
  · rintro ⟨b, a, hb, ha, rfl⟩
    exact ⟨b, hb, a, ha, rfl⟩

theorem printWord_ok {lane : WordLane} {e : Word → OutEvent} {u t : State} {S : Src} :
    printWord lane e u S = .ok t ↔ ∃ v, srcWord u lane S = .ok v ∧ t = u.emit (e v) := by
  simp only [printWord, bind_eq_ok, Except.ok.injEq, @eq_comm State t]

theorem printByte_ok {e : Byte → OutEvent} {u t : State} {S : Src} :
    printByte e u S = .ok t ↔ ∃ v, srcByte u S = .ok v ∧ t = u.emit (e v) := by
  simp only [printByte, bind_eq_ok, Except.ok.injEq, @eq_comm State t]

theorem implicitWriteWord_ok {u t : State} {S : Src} {v : Word} :
    implicitWriteWord u S v = .ok t ↔
      (S.implicitDst = none ∧ t = u) ∨
        ∃ D, S.implicitDst = some D ∧ dstFits u D 4 = true ∧ t = storedWord u D v := by
  unfold implicitWriteWord
  split <;> rename_i h <;> simp [h, dstWriteWord_ok, @eq_comm State t]

theorem implicitWriteByte_ok {u t : State} {S : Src} {v : Byte} :
    implicitWriteByte u S v = .ok t ↔
      (S.implicitDst = none ∧ t = u) ∨
        ∃ D, S.implicitDst = some D ∧ dstFits u D 1 = true ∧ t = storedByte u D v := by
  unfold implicitWriteByte
  split <;> rename_i h <;> simp [h, dstWriteByte_ok, @eq_comm State t]

theorem pushWord_ok {lane : WordLane} {u t : State} {S : Src} :
    pushWord lane u S = .ok t ↔
      ∃ v, srcWord u lane S = .ok v ∧ u.inRange (u.sp - 4) 4 = true ∧
        t = { u.setSp (u.sp - 4) with
              mem := u.mem.writeWord u.params.byteOrder (u.sp - 4).toNat v } := by
  simp only [pushWord, bind_eq_ok, State.memWriteWord_ok, State.x_setX_self, State.setX_inRange,
    State.setX_mem, State.setX_params]

theorem pushByte_ok {u t : State} {S : Src} :
    pushByte u S = .ok t ↔
      ∃ v, srcByte u S = .ok v ∧ u.inRange (u.sp - 1) 1 = true ∧
        t = { u.setSp (u.sp - 1) with mem := u.mem.write (u.sp - 1).toNat v } := by
  simp only [pushByte, bind_eq_ok, State.memWriteByte_ok, State.x_setX_self, State.setX_inRange,
    State.setX_mem]

theorem popWord_ok {lane : WordLane} {u t : State} {S : Src} :
    popWord lane u S = .ok t ↔
      ∃ x v, srcWord u lane S = .ok x ∧ u.memReadWord u.sp = .ok v ∧
        implicitWriteWord (u.setSp (u.sp + 4)) S v = .ok t := by
  simp only [popWord, bind_eq_ok]
  constructor
  · rintro ⟨x, hx, v, hv, h⟩
    exact ⟨x, v, hx, hv, h⟩
  · rintro ⟨x, v, hx, hv, h⟩
    exact ⟨x, hx, v, hv, h⟩

theorem popByte_ok {u t : State} {S : Src} :
    popByte u S = .ok t ↔
      ∃ x v, srcByte u S = .ok x ∧ u.memReadByte u.sp = .ok v ∧
        implicitWriteByte (u.setSp (u.sp + 1)) S v = .ok t := by
  simp only [popByte, bind_eq_ok]
  constructor
  · rintro ⟨x, hx, v, hv, h⟩
    exact ⟨x, v, hx, hv, h⟩
  · rintro ⟨x, v, hx, hv, h⟩
    exact ⟨x, hx, v, hv, h⟩

theorem dupWord_ok {lane : WordLane} {u t : State} {S : Src} :
    dupWord lane u S = .ok t ↔
      ∃ x v, srcWord u lane S = .ok x ∧ u.memReadWord u.sp = .ok v ∧
        u.inRange (u.sp - 4) 4 = true ∧
        implicitWriteWord
          { u.setSp (u.sp - 4) with
            mem := u.mem.writeWord u.params.byteOrder (u.sp - 4).toNat v } S v = .ok t := by
  simp only [dupWord, bind_eq_ok, State.memWriteWord_ok, State.x_setX_self, State.setX_inRange,
    State.setX_mem, State.setX_params]
  constructor
  · rintro ⟨x, hx, v, hv, w, ⟨hr, rfl⟩, h⟩
    exact ⟨x, v, hx, hv, hr, h⟩
  · rintro ⟨x, v, hx, hv, hr, h⟩
    exact ⟨x, hx, v, hv, _, ⟨hr, rfl⟩, h⟩

theorem dupByte_ok {u t : State} {S : Src} :
    dupByte u S = .ok t ↔
      ∃ x v, srcByte u S = .ok x ∧ u.memReadByte u.sp = .ok v ∧
        u.inRange (u.sp - 1) 1 = true ∧
        implicitWriteByte
          { u.setSp (u.sp - 1) with mem := u.mem.write (u.sp - 1).toNat v } S v = .ok t := by
  simp only [dupByte, bind_eq_ok, State.memWriteByte_ok, State.x_setX_self, State.setX_inRange,
    State.setX_mem]
  constructor
  · rintro ⟨x, hx, v, hv, w, ⟨hr, rfl⟩, h⟩
    exact ⟨x, v, hx, hv, hr, h⟩
  · rintro ⟨x, v, hx, hv, hr, h⟩
    exact ⟨x, hx, v, hv, _, ⟨hr, rfl⟩, h⟩

/-! ### Fetch and step -/

/-- A step from Running executes the fetched instruction or makes the fetch's own state. -/
theorem step_next {s t : State} (h : step s = .next t) :
    s.status = .running ∧ (s.fetchInstr = .error t ∨ ∃ i, s.fetchInstr = .ok i ∧ exec i s = .next t) := by
  unfold step at h
  split at h
  · cases h
  · cases h
  · rename_i hs
    refine ⟨hs, ?_⟩
    split at h
    · rename_i u hu
      cases h
      exact .inl hu
    · rename_i i hi
      exact .inr ⟨i, hi, h⟩

/-- A fetch that gives no instruction raises a fault or halts past the end. -/
theorem fetchInstr_error {s t : State} (h : s.fetchInstr = .error t) :
    (∃ c, t = s.raise c) ∨
      (t = s.halt ∧ s.pc.msb = false ∧ s.prog.imem.length ≤ s.pc.toNat) := by
  unfold State.fetchInstr at h
  split at h
  · cases h
    exact .inl ⟨_, rfl⟩
  · rename_i hm
    split at h
    · rename_i hn
      cases h
      exact .inr ⟨rfl, by simpa using hm, by simpa using hn⟩
    · split at h
      · cases h
        exact .inl ⟨_, rfl⟩
      · cases h

end Sys2Proof.Machine
end

