-- ==== Sys2Proof/Machine/Render.lean ====
section
/-! DEFINITION. The console text of the output stream (44_print.md R235).  The machine produces events
(R230); the text is the host's. -/

namespace Sys2Proof.Machine

/-- The character of PRINTC: ASCII up to 0x7F, host-defined above (R235, log 8). -/
def charOfByte (v : Byte) : Char :=
  if v.toNat < 128 then Char.ofNat v.toNat else Config.hostChar v

/-- The text of one event: a signed decimal numeral and a line feed, `fmt_float` and a line feed, or one
character and no line feed (R235). -/
def renderEvent : OutEvent → List Char
  | .outI v => showInt v.toInt ++ ['\n']
  | .outF v => Config.fmtFloat v ++ ['\n']
  | .outB v => showInt v.toInt ++ ['\n']
  | .outC v => [charOfByte v]

/-- The text of a stream of events, in order. -/
def renderOut (out : List OutEvent) : List Char := out.flatMap renderEvent

end Sys2Proof.Machine
end

