-- ==== Sys2Proof/Tests/Slice0.lean ====
section
/-! SUPPORT. Tests.  Words and expected results are those of the spec's own examples and tables
(95_test_vectors.md and the instruction rules), never the model's answers.  Each `witness_` theorem gives a
state and operands that meet the hypotheses of the statement it names. -/

namespace Sys2Proof.Tests

open Sys2Proof.Machine

/-- Reset with one word as the program, some registers, some bytes of memory and a constant table. -/
def start (w : Nat) (regs mem : List (Nat × Nat)) (cat : List Nat) : State :=
  let s : State := { State.reset with prog := ⟨[BitVec.ofNat 32 w], cat.map (BitVec.ofNat 32)⟩ }
  let s := regs.foldl (fun s p => s.setX (Fin.ofNat 12 p.1) (BitVec.ofNat 32 p.2)) s
  mem.foldl (fun s p => { s with mem := s.mem.write p.1 (BitVec.ofNat 8 p.2) }) s

/-- What holds of the start state and the state one step later. -/
def after (w : Nat) (regs mem : List (Nat × Nat)) (cat : List Nat) (p : State → State → Bool) : Bool :=
  match step (start w regs mem cat) with
  | .next r => p (start w regs mem cat) r
  | .fault _ => false
  | .refused _ => false

/-- The bytes from an address on. -/
def bytesAre (r : State) (a : Nat) (l : List Nat) : Bool :=
  (l.zipIdx a).all fun p => r.mem.read p.2 == BitVec.ofNat 8 p.1

/-! ### Decoding: the word of each instruction, field by field (opcode, arg1 flag and register, arg2 flags,
arg2 value; for JMP and CALL opcode, unused, target) -/

/-- `NOOP` is 0x00000000. -/
theorem test_decode_noop :
    decode OpcodeMap.standard 0b000000_0_0000_0_0_0000000000000000000#32 = .ok .noop := by
  decide

/-- `MOVI $a .n` is 0x04800000. -/
theorem test_decode_movi :
    decode OpcodeMap.standard 0b000001_0_0100_0_0_0000000000000000000#32 = .ok (.movi (.reg 4) (.const 0)) := by
  decide

/-- `MOVF $a #16` is 0x08880010. -/
theorem test_decode_movf :
    decode OpcodeMap.standard 0b000010_0_0100_0_1_0000000000000010000#32 = .ok (.movf (.reg 4) (.imm 16)) := by
  decide

/-- `MOVB $a $b` is 0x0C900005. -/
theorem test_decode_movb :
    decode OpcodeMap.standard 0b000011_0_0100_1_0_0000000000000000101#32 = .ok (.movb (.reg 4) (.reg 5)) := by
  decide

/-- `LDCI $a .s` is 0x10800002. -/
theorem test_decode_ldci :
    decode OpcodeMap.standard 0b000100_0_0100_0_0_0000000000000000010#32 = .ok (.ldci (.reg 4) (.const 2)) := by
  decide

/-- `LDCF $a .f` is 0x14800001. -/
theorem test_decode_ldcf :
    decode OpcodeMap.standard 0b000101_0_0100_0_0_0000000000000000001#32 = .ok (.ldcf (.reg 4) (.const 1)) := by
  decide

/-- `LDCB $a .s` is 0x18800002. -/
theorem test_decode_ldcb :
    decode OpcodeMap.standard 0b000110_0_0100_0_0_0000000000000000010#32 = .ok (.ldcb (.reg 4) (.const 2)) := by
  decide

/-- `LDCA $a $b` is 0x1C900005. -/
theorem test_decode_ldca :
    decode OpcodeMap.standard 0b000111_0_0100_1_0_0000000000000000101#32 = .ok (.ldca (.reg 4) (.reg 5)) := by
  decide

/-- `PUSHI #5` is 0x20080005. -/
theorem test_decode_pushi :
    decode OpcodeMap.standard 0b001000_0_0000_0_1_0000000000000000101#32 = .ok (.pushi (.imm 5)) := by
  decide

/-- `PUSHF #3` is 0x24080003. -/
theorem test_decode_pushf :
    decode OpcodeMap.standard 0b001001_0_0000_0_1_0000000000000000011#32 = .ok (.pushf (.imm 3)) := by
  decide

/-- `PUSHB $a` is 0x28100004. -/
theorem test_decode_pushb :
    decode OpcodeMap.standard 0b001010_0_0000_1_0_0000000000000000100#32 = .ok (.pushb (.reg 4)) := by
  decide

/-- `POPI &$b` is 0x2C180005. -/
theorem test_decode_popi :
    decode OpcodeMap.standard 0b001011_0_0000_1_1_0000000000000000101#32 = .ok (.popi (.ind 5)) := by
  decide

/-- `POPF $a` is 0x30100004. -/
theorem test_decode_popf :
    decode OpcodeMap.standard 0b001100_0_0000_1_0_0000000000000000100#32 = .ok (.popf (.reg 4)) := by
  decide

/-- `POPB $a` is 0x34100004. -/
theorem test_decode_popb :
    decode OpcodeMap.standard 0b001101_0_0000_1_0_0000000000000000100#32 = .ok (.popb (.reg 4)) := by
  decide

/-- `DUPI $a` is 0x38100004. -/
theorem test_decode_dupi :
    decode OpcodeMap.standard 0b001110_0_0000_1_0_0000000000000000100#32 = .ok (.dupi (.reg 4)) := by
  decide

/-- `DUPF $a` is 0x3C100004. -/
theorem test_decode_dupf :
    decode OpcodeMap.standard 0b001111_0_0000_1_0_0000000000000000100#32 = .ok (.dupf (.reg 4)) := by
  decide

/-- `DUPB $a` is 0x40100004. -/
theorem test_decode_dupb :
    decode OpcodeMap.standard 0b010000_0_0000_1_0_0000000000000000100#32 = .ok (.dupb (.reg 4)) := by
  decide

/-- `IFI $b $a` is 0x44B00004. -/
theorem test_decode_ifi :
    decode OpcodeMap.standard 0b010001_0_0101_1_0_0000000000000000100#32 = .ok (.ifi (.reg 5) (.reg 4)) := by
  decide

/-- `IFF $a $b` is 0x48900005. -/
theorem test_decode_iff :
    decode OpcodeMap.standard 0b010010_0_0100_1_0_0000000000000000101#32 = .ok (.iff (.reg 4) (.reg 5)) := by
  decide

/-- `IFB $a #0x80` is 0x4C880080. -/
theorem test_decode_ifb :
    decode OpcodeMap.standard 0b010011_0_0100_0_1_0000000000010000000#32 = .ok (.ifb (.reg 4) (.imm 128)) := by
  decide

/-- `IFEI $a $b` is 0x50900005. -/
theorem test_decode_ifei :
    decode OpcodeMap.standard 0b010100_0_0100_1_0_0000000000000000101#32 = .ok (.ifei (.reg 4) (.reg 5)) := by
  decide

/-- `IFEF $a $a` is 0x54900004. -/
theorem test_decode_ifef :
    decode OpcodeMap.standard 0b010101_0_0100_1_0_0000000000000000100#32 = .ok (.ifef (.reg 4) (.reg 4)) := by
  decide

/-- `IFEB $a #0xFF` is 0x588800FF. -/
theorem test_decode_ifeb :
    decode OpcodeMap.standard 0b010110_0_0100_0_1_0000000000011111111#32 = .ok (.ifeb (.reg 4) (.imm 255)) := by
  decide

/-- `JMP #0` is 0x5C000000. -/
theorem test_decode_jmp :
    decode OpcodeMap.standard 0b010111_00_000000000000000000000000#32 = .ok (.jmp 0) := by
  decide

/-- `CALL #3` is 0x60000003. -/
theorem test_decode_call :
    decode OpcodeMap.standard 0b011000_00_000000000000000000000011#32 = .ok (.call 3) := by
  decide

/-- `RET` is 0x64000000. -/
theorem test_decode_ret :
    decode OpcodeMap.standard 0b011001_0_0000_0_0_0000000000000000000#32 = .ok .ret := by
  decide

/-- `PRINTI $a` is 0x68100004. -/
theorem test_decode_printi :
    decode OpcodeMap.standard 0b011010_0_0000_1_0_0000000000000000100#32 = .ok (.printi (.reg 4)) := by
  decide

/-- `PRINTF #3` is 0x6C080003. -/
theorem test_decode_printf :
    decode OpcodeMap.standard 0b011011_0_0000_0_1_0000000000000000011#32 = .ok (.printf (.imm 3)) := by
  decide

/-- `PRINTB $a` is 0x70100004. -/
theorem test_decode_printb :
    decode OpcodeMap.standard 0b011100_0_0000_1_0_0000000000000000100#32 = .ok (.printb (.reg 4)) := by
  decide

/-- `PRINTC &$a` is 0x74180004. -/
theorem test_decode_printc :
    decode OpcodeMap.standard 0b011101_0_0000_1_1_0000000000000000100#32 = .ok (.printc (.ind 4)) := by
  decide

/-- `ADDI $a $b` is 0x78900005. -/
theorem test_decode_addi :
    decode OpcodeMap.standard 0b011110_0_0100_1_0_0000000000000000101#32 = .ok (.addi (.reg 4) (.reg 5)) := by
  decide

/-- `ADDF $a #1` is 0x7C880001. -/
theorem test_decode_addf :
    decode OpcodeMap.standard 0b011111_0_0100_0_1_0000000000000000001#32 = .ok (.addf (.reg 4) (.imm 1)) := by
  decide

/-- `ADDB &$a #1` is 0x82880001. -/
theorem test_decode_addb :
    decode OpcodeMap.standard 0b100000_1_0100_0_1_0000000000000000001#32 = .ok (.addb (.ind 4) (.imm 1)) := by
  decide

/-- `SUBI $a $b` is 0x84900005. -/
theorem test_decode_subi :
    decode OpcodeMap.standard 0b100001_0_0100_1_0_0000000000000000101#32 = .ok (.subi (.reg 4) (.reg 5)) := by
  decide

/-- `SUBF $a $b` is 0x88900005. -/
theorem test_decode_subf :
    decode OpcodeMap.standard 0b100010_0_0100_1_0_0000000000000000101#32 = .ok (.subf (.reg 4) (.reg 5)) := by
  decide

/-- `SUBB $a $b` is 0x8C900005. -/
theorem test_decode_subb :
    decode OpcodeMap.standard 0b100011_0_0100_1_0_0000000000000000101#32 = .ok (.subb (.reg 4) (.reg 5)) := by
  decide

/-- `MULI $a $b` is 0x90900005. -/
theorem test_decode_muli :
    decode OpcodeMap.standard 0b100100_0_0100_1_0_0000000000000000101#32 = .ok (.muli (.reg 4) (.reg 5)) := by
  decide

/-- `MULF $a $b` is 0x94900005. -/
theorem test_decode_mulf :
    decode OpcodeMap.standard 0b100101_0_0100_1_0_0000000000000000101#32 = .ok (.mulf (.reg 4) (.reg 5)) := by
  decide

/-- `MULB $a $b` is 0x98900005. -/
theorem test_decode_mulb :
    decode OpcodeMap.standard 0b100110_0_0100_1_0_0000000000000000101#32 = .ok (.mulb (.reg 4) (.reg 5)) := by
  decide

/-- `DIVI $a #0` is 0x9C880000. -/
theorem test_decode_divi :
    decode OpcodeMap.standard 0b100111_0_0100_0_1_0000000000000000000#32 = .ok (.divi (.reg 4) (.imm 0)) := by
  decide

/-- `DIVF $a $b` is 0xA0900005. -/
theorem test_decode_divf :
    decode OpcodeMap.standard 0b101000_0_0100_1_0_0000000000000000101#32 = .ok (.divf (.reg 4) (.reg 5)) := by
  decide

/-- `DIVB $a $b` is 0xA4900005. -/
theorem test_decode_divb :
    decode OpcodeMap.standard 0b101001_0_0100_1_0_0000000000000000101#32 = .ok (.divb (.reg 4) (.reg 5)) := by
  decide

/-- `MODI $a $b` is 0xA8900005. -/
theorem test_decode_modi :
    decode OpcodeMap.standard 0b101010_0_0100_1_0_0000000000000000101#32 = .ok (.modi (.reg 4) (.reg 5)) := by
  decide

/-- `MODF $a $b` is 0xAC900005. -/
theorem test_decode_modf :
    decode OpcodeMap.standard 0b101011_0_0100_1_0_0000000000000000101#32 = .ok (.modf (.reg 4) (.reg 5)) := by
  decide

/-- `MODB $a $b` is 0xB0900005. -/
theorem test_decode_modb :
    decode OpcodeMap.standard 0b101100_0_0100_1_0_0000000000000000101#32 = .ok (.modb (.reg 4) (.reg 5)) := by
  decide

/-- `ORI $a #0x7FFFF` is 0xB48FFFFF. -/
theorem test_decode_ori :
    decode OpcodeMap.standard 0b101101_0_0100_0_1_1111111111111111111#32 = .ok (.ori (.reg 4) (.imm 524287)) := by
  decide

/-- `ORB $a $b` is 0xB8900005. -/
theorem test_decode_orb :
    decode OpcodeMap.standard 0b101110_0_0100_1_0_0000000000000000101#32 = .ok (.orb (.reg 4) (.reg 5)) := by
  decide

/-- `ANDI $a #0xFF` is 0xBC8800FF. -/
theorem test_decode_andi :
    decode OpcodeMap.standard 0b101111_0_0100_0_1_0000000000011111111#32 = .ok (.andi (.reg 4) (.imm 255)) := by
  decide

/-- `ANDB $a #0x0F` is 0xC088000F. -/
theorem test_decode_andb :
    decode OpcodeMap.standard 0b110000_0_0100_0_1_0000000000000001111#32 = .ok (.andb (.reg 4) (.imm 15)) := by
  decide

/-- `XORI $a $a` is 0xC4900004. -/
theorem test_decode_xori :
    decode OpcodeMap.standard 0b110001_0_0100_1_0_0000000000000000100#32 = .ok (.xori (.reg 4) (.reg 4)) := by
  decide

/-- `XORB $a #0xFF` is 0xC88800FF. -/
theorem test_decode_xorb :
    decode OpcodeMap.standard 0b110010_0_0100_0_1_0000000000011111111#32 = .ok (.xorb (.reg 4) (.imm 255)) := by
  decide

/-- `NOTI $a $b` is 0xCC900005. -/
theorem test_decode_noti :
    decode OpcodeMap.standard 0b110011_0_0100_1_0_0000000000000000101#32 = .ok (.noti (.reg 4) (.reg 5)) := by
  decide

/-- `NOTB $a #0xFF` is 0xD08800FF. -/
theorem test_decode_notb :
    decode OpcodeMap.standard 0b110100_0_0100_0_1_0000000000011111111#32 = .ok (.notb (.reg 4) (.imm 255)) := by
  decide

/-- `SZRLI $a $b` is 0xD4900005. -/
theorem test_decode_szrli :
    decode OpcodeMap.standard 0b110101_0_0100_1_0_0000000000000000101#32 = .ok (.szrli (.reg 4) (.reg 5)) := by
  decide

/-- `SZRLB $a #1` is 0xD8880001. -/
theorem test_decode_szrlb :
    decode OpcodeMap.standard 0b110110_0_0100_0_1_0000000000000000001#32 = .ok (.szrlb (.reg 4) (.imm 1)) := by
  decide

/-- `SRLI $a #31` is 0xDC88001F. -/
theorem test_decode_srli :
    decode OpcodeMap.standard 0b110111_0_0100_0_1_0000000000000011111#32 = .ok (.srli (.reg 4) (.imm 31)) := by
  decide

/-- `SRLB $a #1` is 0xE0880001. -/
theorem test_decode_srlb :
    decode OpcodeMap.standard 0b111000_0_0100_0_1_0000000000000000001#32 = .ok (.srlb (.reg 4) (.imm 1)) := by
  decide

/-- `SLLI &$a #8` is 0xE6880008. -/
theorem test_decode_slli :
    decode OpcodeMap.standard 0b111001_1_0100_0_1_0000000000000001000#32 = .ok (.slli (.ind 4) (.imm 8)) := by
  decide

/-- `SLLB $a #7` is 0xE8880007. -/
theorem test_decode_sllb :
    decode OpcodeMap.standard 0b111010_0_0100_0_1_0000000000000000111#32 = .ok (.sllb (.reg 4) (.imm 7)) := by
  decide

/-- The low bit of every field is the one next to its neighbour (R87). -/
theorem test_fields : decOpcode 0x04000000#32 = 1 ∧ decArg1Addr 0x02000000#32 = true ∧
    decArg1Value 0x00200000#32 = 1 ∧ decArg2Reg 0x00100000#32 = true ∧
    decArg2Addr 0x00080000#32 = true ∧ decArg2Value 0x00000001#32 = 1 ∧
    decArg2Value 0x0007FFFF#32 = 0x7FFFF#19 := by
  decide

/-- Opcodes 59 and 63 select no instruction (R103). -/
theorem test_decode_unassigned :
    decode OpcodeMap.standard 0b111011_00000000000000000000000000#32 =
      .error (.unrecognizedOpcode 0xEC000000#32) ∧
    decode OpcodeMap.standard 0xFFFFFFFF#32 = .error (.unrecognizedOpcode 0xFFFFFFFF#32) := by
  decide

theorem test_decodeTableWord : decodeTableWord 32 0x78900005 = some (.addi (.reg 4) (.reg 5)) ∧
    decodeTableWord 32 0xFC000000 = none := by
  decide

/-- `MOVI $a #2` placed at reset runs as the first instruction. -/
theorem test_withFetchWord :
    (match step (State.reset.withFetchWord 32 0x04880002) with
      | .next r => r.x 4 == 2 && r.pc == 1
      | .fault _ => false
      | .refused _ => false) = true := by
  decide

/-! ### WellFormed: one ill-formed term for each check -/

theorem test_wf_accepts : Instr.wf (.addi (.reg 11) (.ind 11)) = true ∧
    Instr.wf (.ldca (.ind 11) (.const 524287)) = true := by
  decide

theorem test_wf_arg1_register : Instr.wf (.addi (.reg 12) (.reg 5)) = false ∧
    Instr.wf (.addi (.ind 12) (.reg 5)) = false := by
  decide

theorem test_wf_arg2_register : Instr.wf (.addi (.reg 4) (.reg 12)) = false ∧
    Instr.wf (.pushi (.ind 524287)) = false := by
  decide

theorem test_wf_constant_form : Instr.wf (.ldci (.reg 4) (.imm 0)) = false ∧
    Instr.wf (.ldca (.reg 4) (.reg 5)) = false := by
  decide

/-! ### One step of each instruction -/

theorem test_noop_1 :
    after 0x03FFFFFF [] [] [] (fun s r => r == s.setPc 1) = true := by
  decide

theorem test_movi_1 :
    after 0x04980005 [(5, 0x10)] [(3, 7), (16, 0xCA), (17, 0xFE), (18, 0xBA), (19, 0xBE)] [0]
      (fun _ r => r.x 4 == 0xCAFEBABE) = true := by
  decide

theorem test_movi_2 :
    after 0x06B00004 [(4, 0x11223344), (5, 0x14)] [] []
      (fun _ r => bytesAre r 20 [0x11, 0x22, 0x33, 0x44] && r.x 5 == 0x14) = true := by
  decide

theorem test_movf_1 :
    after 0x08900005 [(5, 0x10)] [(3, 7), (16, 0xCA), (17, 0xFE), (18, 0xBA), (19, 0xBE)] [0]
      (fun _ r => r.x 4 == 0x10) = true := by
  decide

theorem test_movf_2 :
    after 0x08880010 [(5, 0x10)] [(3, 7), (16, 0xCA), (17, 0xFE), (18, 0xBA), (19, 0xBE)] [0]
      (fun _ r => r.x 4 == 0x41800000) = true := by
  decide

theorem test_movb_1 :
    after 0x0C980005 [(5, 0x10)] [(3, 7), (16, 0xCA), (17, 0xFE), (18, 0xBA), (19, 0xBE)] [0]
      (fun _ r => r.x 4 == 0xFFFFFFCA) = true := by
  decide

theorem test_movb_2 :
    after 0x0EB00004 [(4, 0x11223344), (5, 0x14)] [] [] (fun _ r => r.mem == [(20,0x44)]) = true := by
  decide

theorem test_ldci_1 :
    after 0x10800000 [] [(3, 7), (4, 0x40), (5, 0x20), (8, 0x48), (9, 0x69)] [0, 4, 8]
      (fun _ r => r.x 4 == 7) = true := by
  decide

theorem test_ldci_2 :
    after 0x11880001 [] [] [] (fun s r => r == s.raise (.illegalRegister 12) && r.pc == 0) = true := by
  decide

theorem test_ldcf_1 :
    after 0x14800001 [] [(3, 7), (4, 0x40), (5, 0x20), (8, 0x48), (9, 0x69)] [0, 4, 8]
      (fun _ r => r.x 4 == 0x40200000) = true := by
  decide

theorem test_ldcb_1 :
    after 0x18800002 [] [(3, 7), (4, 0x40), (5, 0x20), (8, 0x48), (9, 0x69)] [0, 4, 8]
      (fun _ r => r.x 4 == 0x48) = true := by
  decide

theorem test_ldcb_2 :
    after 0x18800000 [] [(3, 7), (4, 0x40), (5, 0x20), (8, 0x48), (9, 0x69)] [0, 4, 8]
      (fun _ r => r.x 4 == 0) = true := by
  decide

theorem test_ldca_1 :
    after 0x1C800002 [] [(3, 7), (4, 0x40), (5, 0x20), (8, 0x48), (9, 0x69)] [0, 4, 8]
      (fun _ r => r.x 4 == 8) = true := by
  decide

theorem test_ldca_2 :
    after 0x1C800000 [] [] []
      (fun s r => r == s.raise (.constantIndexOutOfRange 0) && r.pc == 0) = true := by
  decide

theorem test_pushi_1 :
    after 0x20080005 [] [] [] (fun _ r => r.sp == 0x3B && r.mem == [(62,5)]) = true := by
  decide

theorem test_pushi_2 :
    after 0x20080005 [(0, 3)] [] []
      (fun _ r => r.status == .faulted (.memoryAccessOutOfRange 0xFFFFFFFF) 0 && r.sp == 3) = true := by
  decide

theorem test_pushf_1 :
    after 0x24080003 [] [] [] (fun _ r => r.sp == 0x3B && bytesAre r 59 [0x40, 0x40, 0, 0]) = true := by
  decide

theorem test_pushb_1 :
    after 0x28100004 [(4, 0x1234)] [] [] (fun _ r => r.sp == 0x3E && r.mem == [(62,0x34)]) = true := by
  decide

theorem test_pushb_2 :
    after 0x28080041 [] [] [] (fun _ r => r.sp == 0x3E && r.mem == [(62,0x41)]) = true := by
  decide

theorem test_popi_1 :
    after 0x2C100004 [(0, 0x3B)] [(59, 0xDE), (60, 0xAD), (61, 0xBE), (62, 0xEF)] []
      (fun s r => r.x 4 == 0xDEADBEEF && r.sp == 0x3F && r.mem == s.mem) = true := by
  decide

theorem test_popi_2 :
    after 0x2C100004 [] [] [] (fun _ r => r.status == .faulted (.memoryAccessOutOfRange 63) 0) = true := by
  decide

theorem test_popf_1 :
    after 0x30100004 [(0, 0x3B)] [(59, 0x40), (60, 0x20), (61, 0), (62, 0)] []
      (fun _ r => r.sp == 0x3F && r.x 4 == 0x40200000) = true := by
  decide

theorem test_popb_1 :
    after 0x34100004 [(0, 0x3E)] [(62, 0x80)] []
      (fun _ r => r.sp == 0x3F && r.x 4 == 0xFFFFFF80) = true := by
  decide

theorem test_popb_2 :
    after 0x34100004 [] [] [] (fun _ r => r.sp == 0x40 && r.x 4 == 0) = true := by
  decide

theorem test_dupi_1 :
    after 0x38100004 [(0, 0x3B)] [(59, 0), (60, 0), (61, 0), (62, 9)] []
      (fun _ r => r.sp == 0x37 && r.x 4 == 9 && bytesAre r 55 [0, 0, 0, 9]) = true := by
  decide

theorem test_dupi_2 :
    after 0x38080000 [(0, 0x3B)] [(59, 0), (60, 0), (61, 0), (62, 9)] []
      (fun _ r => r.sp == 0x37 && r.x 4 == 0 && bytesAre r 55 [0, 0, 0, 9]) = true := by
  decide

theorem test_dupf_1 :
    after 0x3C100004 [(0, 0x3B)] [(59, 0x40), (60, 0x20), (61, 0), (62, 0)] []
      (fun _ r => r.sp == 0x37 && r.x 4 == 0x40200000 && bytesAre r 55 [0x40, 0x20, 0, 0]) = true := by
  decide

theorem test_dupb_1 :
    after 0x40100004 [(0, 0x3E)] [(62, 0x7F)] []
      (fun _ r => r.sp == 0x3D && r.x 4 == 0x7F && bytesAre r 61 [0x7F]) = true := by
  decide

theorem test_ifi_1 :
    after 0x44900005 [(4, 5), (5, 3)] [] [] (fun s r => r == s.setPc 1) = true := by
  decide

theorem test_ifi_2 :
    after 0x44880000 [(4, 1)] [] [] (fun s r => r == s.setPc 1) = true := by
  decide

theorem test_iff_1 :
    after 0x48900005 [(4, 0x3FC00000), (5, 0x3F800000)] [] [] (fun s r => r == s.setPc 1) = true := by
  decide

theorem test_iff_2 :
    after 0x48900005 [(5, 0x80000000)] [] [] (fun s r => r == s.setPc 2) = true := by
  decide

theorem test_ifb_1 :
    after 0x4C880080 [] [] [] (fun s r => r == s.setPc 1) = true := by
  decide

theorem test_ifb_2 :
    after 0x4E880000 [(4, 0x10)] [] [] (fun s r => r == s.setPc 2) = true := by
  decide

theorem test_ifei_1 :
    after 0x50880000 [(4, 0)] [] [] (fun s r => r == s.setPc 1) = true := by
  decide

theorem test_ifei_2 :
    after 0x50900005 [(4, 4), (5, 5)] [] [] (fun s r => r == s.setPc 2) = true := by
  decide

theorem test_ifef_1 :
    after 0x54900005 [(4, 0x80000000)] [] [] (fun s r => r == s.setPc 1) = true := by
  decide

theorem test_ifef_2 :
    after 0x54900004 [(4, 0x7FC00000)] [] [] (fun s r => r == s.setPc 2) = true := by
  decide

theorem test_ifeb_1 :
    after 0x588800FF [(4, 0xFFFFFFFF)] [] [] (fun s r => r == s.setPc 1) = true := by
  decide

theorem test_ifeb_2 :
    after 0x58900005 [(4, 0x80), (5, 0x7F)] [] [] (fun s r => r == s.setPc 2) = true := by
  decide

theorem test_jmp_1 :
    after 0x5C000005 [] [] [] (fun s r => r == s.setPc 5) = true := by
  decide

theorem test_jmp_2 :
    after 0x5C000064 [] [] [] (fun s r => r == s.setPc 100) = true := by
  decide

theorem test_call_1 :
    after 0x60000000 [] [] [] (fun s r => r == s.setX 2 1) = true := by
  decide

theorem test_ret_1 :
    after 0x64000000 [(2, 6)] [] [] (fun s r => r == s.setPc 6) = true := by
  decide

theorem test_ret_2 :
    after 0x67FFFFFF [(2, 6)] [] [] (fun s r => r == s.setPc 6) = true := by
  decide

theorem test_printi_1 :
    after 0x68100004 [(4, 5)] [] [] (fun s r => r == (s.setPc 1).emit (.outI 5)) = true := by
  decide

theorem test_printi_2 :
    after 0x6810000C [] [] [] (fun s r => r == s.raise (.illegalRegister 12) && r.pc == 0) = true := by
  decide

theorem test_printf_1 :
    after 0x6C100004 [(4, 0x40200000)] [] []
      (fun s r => r == (s.setPc 1).emit (.outF 0x40200000)) = true := by
  decide

theorem test_printf_2 :
    after 0x6C080003 [] [] [] (fun s r => r == (s.setPc 1).emit (.outF 0x40400000)) = true := by
  decide

theorem test_printb_1 :
    after 0x70100004 [(4, 0x1FF)] [] [] (fun s r => r == (s.setPc 1).emit (.outB 0xFF)) = true := by
  decide

theorem test_printb_2 :
    after 0x70180004 [(4, 0x10)] [(16, 0x80)] []
      (fun s r => r == (s.setPc 1).emit (.outB 0x80)) = true := by
  decide

theorem test_printc_1 :
    after 0x74080048 [] [] [] (fun s r => r == (s.setPc 1).emit (.outC 0x48)) = true := by
  decide

theorem test_printc_2 :
    after 0x74180004 [(4, 8)] [(8, 0x48)] [] (fun s r => r == (s.setPc 1).emit (.outC 0x48)) = true := by
  decide

theorem test_addi_1 :
    after 0x78900005 [(4, 2), (5, 3)] [] [] (fun _ r => r.x 4 == 5 && r.pc == 1) = true := by
  decide

theorem test_addi_2 :
    after 0x7A880001 [(4, 0x10)] [(16, 0xFF), (17, 0xFF), (18, 0xFF), (19, 0xFF)] []
      (fun _ r => bytesAre r 16 [0, 0, 0, 0] && r.x 4 == 0x10) = true := by
  decide

theorem test_addf_1 :
    after 0x7C900005 [(4, 0x3FC00000), (5, 0x40200000)] [] []
      (fun _ r => r.x 4 == 0x40800000 && r.pc == 1) = true := by
  decide

theorem test_addf_2 :
    after 0x7C880001 [(4, 0x4B800000)] [] [] (fun _ r => r.x 4 == 0x4B800000 && r.pc == 1) = true := by
  decide

theorem test_addb_1 :
    after 0x80900005 [(4, 0x7F), (5, 1)] [] [] (fun _ r => r.x 4 == 0xFFFFFF80 && r.pc == 1) = true := by
  decide

theorem test_addb_2 :
    after 0x82880001 [(4, 0x10)] [(16, 0x11), (17, 0x22), (18, 0x33), (19, 0x44)] []
      (fun _ r => bytesAre r 16 [0x12, 0x22, 0x33, 0x44] && r.x 4 == 0x10) = true := by
  decide

theorem test_subi_1 :
    after 0x84880001 [(4, 0)] [] [] (fun _ r => r.x 4 == 0xFFFFFFFF && r.pc == 1) = true := by
  decide

theorem test_subi_2 :
    after 0x84900005 [(4, 0x80000000), (5, 1)] [] []
      (fun _ r => r.x 4 == 0x7FFFFFFF && r.pc == 1) = true := by
  decide

theorem test_subf_1 :
    after 0x88900005 [(4, 0x40200000), (5, 0x3FC00000)] [] []
      (fun _ r => r.x 4 == 0x3F800000 && r.pc == 1) = true := by
  decide

theorem test_subf_2 :
    after 0x88900004 [(4, 0x7F800000)] [] [] (fun _ r => r.x 4 == 0x7FC00000 && r.pc == 1) = true := by
  decide

theorem test_subb_1 :
    after 0x8C880001 [(4, 0x80)] [] [] (fun _ r => r.x 4 == 0x7F && r.pc == 1) = true := by
  decide

theorem test_subb_2 :
    after 0x8C900005 [(4, 0), (5, 1)] [] [] (fun _ r => r.x 4 == 0xFFFFFFFF && r.pc == 1) = true := by
  decide

theorem test_muli_1 :
    after 0x90900005 [(4, 7), (5, 0xFFFFFFFD)] [] []
      (fun _ r => r.x 4 == 0xFFFFFFEB && r.pc == 1) = true := by
  decide

theorem test_muli_2 :
    after 0x90880003 [(4, 0x55555556)] [] [] (fun _ r => r.x 4 == 2 && r.pc == 1) = true := by
  decide

theorem test_mulf_1 :
    after 0x94900005 [(4, 0x40200000), (5, 0x40000000)] [] []
      (fun _ r => r.x 4 == 0x40A00000 && r.pc == 1) = true := by
  decide

theorem test_mulf_2 :
    after 0x94900005 [(4, 0x800000), (5, 0x3F000000)] [] []
      (fun _ r => r.x 4 == 0x400000 && r.pc == 1) = true := by
  decide

theorem test_mulb_1 :
    after 0x98900005 [(4, 0x10), (5, 0x10)] [] [] (fun _ r => r.x 4 == 0 && r.pc == 1) = true := by
  decide

theorem test_mulb_2 :
    after 0x98880003 [(4, 0x64)] [] [] (fun _ r => r.x 4 == 0x2C && r.pc == 1) = true := by
  decide

theorem test_divi_1 :
    after 0x9C900005 [(4, 7), (5, 2)] [] [] (fun _ r => r.x 4 == 3 && r.pc == 1) = true := by
  decide

theorem test_divi_2 :
    after 0x9C800005 [(4, 7)] [] []
      (fun s r => r == s.raise (.constantIndexOutOfRange 5) && r.pc == 0) = true := by
  decide

theorem test_divf_1 :
    after 0xA0900005 [(4, 0x40A00000), (5, 0x40000000)] [] []
      (fun _ r => r.x 4 == 0x40200000 && r.pc == 1) = true := by
  decide

theorem test_divf_2 :
    after 0xA0880000 [(4, 0x3F800000)] [] []
      (fun _ r => r.status == .faulted .divideByZero 0 && r.x 4 == 0x3F800000 && r.pc == 0) = true := by
  decide

theorem test_divb_1 :
    after 0xA4900005 [(4, 0xF9), (5, 2)] [] [] (fun _ r => r.x 4 == 0xFFFFFFFD && r.pc == 1) = true := by
  decide

theorem test_divb_2 :
    after 0xA4880100 [(4, 5)] [] []
      (fun _ r => r.status == .faulted .divideByZero 0 && r.x 4 == 5 && r.pc == 0) = true := by
  decide

theorem test_modi_1 :
    after 0xA8900005 [(4, 7), (5, 2)] [] [] (fun _ r => r.x 4 == 1 && r.pc == 1) = true := by
  decide

theorem test_modi_2 :
    after 0xA8880000 [(4, 7)] [] []
      (fun _ r => r.status == .faulted .divideByZero 0 && r.x 4 == 7 && r.pc == 0) = true := by
  decide

theorem test_modf_1 :
    after 0xAC900005 [(4, 0x40B00000), (5, 0x40000000)] [] []
      (fun _ r => r.x 4 == 0x3FC00000 && r.pc == 1) = true := by
  decide

theorem test_modf_2 :
    after 0xAC880000 [(4, 0x40B00000)] [] []
      (fun _ r => r.status == .faulted .divideByZero 0 && r.x 4 == 0x40B00000 && r.pc == 0) = true := by
  decide

theorem test_modb_1 :
    after 0xB0900005 [(4, 0xF9), (5, 2)] [] [] (fun _ r => r.x 4 == 0xFFFFFFFF && r.pc == 1) = true := by
  decide

theorem test_modb_2 :
    after 0xB0880000 [(4, 0x64)] [] []
      (fun _ r => r.status == .faulted .divideByZero 0 && r.x 4 == 0x64 && r.pc == 0) = true := by
  decide

theorem test_ori_1 :
    after 0xB4900005 [(4, 0xF0F0F0F0), (5, 0xF0F0F0F)] [] []
      (fun _ r => r.x 4 == 0xFFFFFFFF && r.pc == 1) = true := by
  decide

theorem test_ori_2 :
    after 0xB48FFFFF [(4, 0xFFF00000)] [] [] (fun _ r => r.x 4 == 0xFFF7FFFF && r.pc == 1) = true := by
  decide

theorem test_orb_1 :
    after 0xB8900005 [(4, 0x12345601), (5, 0x80)] [] []
      (fun _ r => r.x 4 == 0xFFFFFF81 && r.pc == 1) = true := by
  decide

theorem test_orb_2 :
    after 0xBA880001 [(4, 0x10)] [(16, 0x10)] []
      (fun _ r => bytesAre r 16 [0x11] && r.x 4 == 0x10) = true := by
  decide

theorem test_andi_1 :
    after 0xBC900005 [(4, 0xFFFF0000), (5, 0xFFFF00)] [] []
      (fun _ r => r.x 4 == 0xFF0000 && r.pc == 1) = true := by
  decide

theorem test_andi_2 :
    after 0xBC8800FF [(4, 0x12345678)] [] [] (fun _ r => r.x 4 == 0x78 && r.pc == 1) = true := by
  decide

theorem test_andb_1 :
    after 0xC088000F [(4, 0x1234ABCD)] [] [] (fun _ r => r.x 4 == 0xD && r.pc == 1) = true := by
  decide

theorem test_xori_1 :
    after 0xC4900005 [(4, 0xAAAAAAAA), (5, 0xFFFFFFFF)] [] []
      (fun _ r => r.x 4 == 0x55555555 && r.pc == 1) = true := by
  decide

theorem test_xori_2 :
    after 0xC4900004 [(4, 0x12345678)] [] [] (fun _ r => r.x 4 == 0 && r.pc == 1) = true := by
  decide

theorem test_xorb_1 :
    after 0xC88800FF [(4, 0xF)] [] [] (fun _ r => r.x 4 == 0xFFFFFFF0 && r.pc == 1) = true := by
  decide

theorem test_noti_1 :
    after 0xCC900005 [(4, 0x11111111)] [] [] (fun _ r => r.x 4 == 0xFFFFFFFF && r.pc == 1) = true := by
  decide

theorem test_noti_2 :
    after 0xCC900004 [(4, 0xFFFF)] [] [] (fun _ r => r.x 4 == 0xFFFF0000 && r.pc == 1) = true := by
  decide

theorem test_notb_1 :
    after 0xD0900005 [(4, 0), (5, 0xF)] [] [] (fun _ r => r.x 4 == 0xFFFFFFF0 && r.pc == 1) = true := by
  decide

theorem test_notb_2 :
    after 0xD2900005 [(4, 0x10), (5, 0xF)] [(16, 0xAA)] []
      (fun _ r => bytesAre r 16 [0xF0] && r.x 4 == 0x10) = true := by
  decide

theorem test_szrli_1 :
    after 0xD4880004 [(4, 0x80000010)] [] [] (fun _ r => r.x 4 == 0x8000001 && r.pc == 1) = true := by
  decide

theorem test_szrli_2 :
    after 0xD4900005 [(4, 0xFFFFFFFF), (5, 0x1F)] [] [] (fun _ r => r.x 4 == 1 && r.pc == 1) = true := by
  decide

theorem test_szrlb_1 :
    after 0xD8880001 [(4, 0x80)] [] [] (fun _ r => r.x 4 == 0x40 && r.pc == 1) = true := by
  decide

theorem test_szrlb_2 :
    after 0xD8880008 [(4, 0xFF)] [] [] (fun _ r => r.x 4 == 0 && r.pc == 1) = true := by
  decide

theorem test_srli_1 :
    after 0xDC880004 [(4, 0x80000010)] [] [] (fun _ r => r.x 4 == 0xF8000001 && r.pc == 1) = true := by
  decide

theorem test_srli_2 :
    after 0xDC88001F [(4, 0x80000000)] [] [] (fun _ r => r.x 4 == 0xFFFFFFFF && r.pc == 1) = true := by
  decide

theorem test_srlb_1 :
    after 0xE0880001 [(4, 0x80)] [] [] (fun _ r => r.x 4 == 0xFFFFFFC0 && r.pc == 1) = true := by
  decide

theorem test_srlb_2 :
    after 0xE0880008 [(4, 0x7F)] [] [] (fun _ r => r.x 4 == 0 && r.pc == 1) = true := by
  decide

theorem test_slli_1 :
    after 0xE4880004 [(4, 0xFFFFFFF)] [] [] (fun _ r => r.x 4 == 0xFFFFFFF0 && r.pc == 1) = true := by
  decide

theorem test_slli_2 :
    after 0xE6880008 [(4, 0x10)] [(16, 0), (17, 0), (18, 0x12), (19, 0x34)] []
      (fun _ r => bytesAre r 16 [0, 0x12, 0x34, 0] && r.x 4 == 0x10) = true := by
  decide

theorem test_sllb_1 :
    after 0xE8880001 [(4, 0x40)] [] [] (fun _ r => r.x 4 == 0xFFFFFF80 && r.pc == 1) = true := by
  decide

theorem test_sllb_2 :
    after 0xEB7FFFFF [] [] [] (fun s r => r == s.raise (.illegalRegister 524287) && r.pc == 0) = true := by
  decide

/-! ### The machine around the instructions -/

/-- `CALL #7` at index 1 leaves 2 in `r` (R217). -/
theorem test_call_index :
    (match exec (.call 7) ((start 0 [(1, 1)] [] []) ) with
      | .next r => r.x 2 == 2 && r.pc == 7
      | .fault _ => false
      | .refused _ => false) = true := by
  decide

/-- The little-endian store of the same word (R53). -/
theorem test_store_little :
    bytesAre { State.reset with mem := Memory.writeWord .little [] 20 0x11223344#32 } 20
      [0x44, 0x33, 0x22, 0x11] = true := by
  decide

theorem test_fetch_negative :
    after 0 [(1, 0x80000000)] [] []
      (fun s r => r == s.raise (.fetchOutOfRange 0x80000000)) = true := by
  decide

theorem test_halt : after 0 [(1, 1)] [] [] (fun s r => r == s.halt) = true := by
  decide

theorem test_halted_takes_no_step :
    (match step State.reset.halt with
      | .fault .machineHalted => true
      | .next _ => false
      | .fault (.machineFaulted _ _) => false
      | .refused _ => false) = true := by
  decide

/-- The registers at reset with 64 bytes of memory (R36). -/
theorem test_reset : State.reset.sp = 63#32 ∧ State.reset.pc = 0#32 ∧ State.reset.status = .running := by
  decide

/-- Vector V3: equal integers share a slot. -/
theorem test_assemble_dedup :
    assemble OpcodeMap.standard RegNames.standard
        ".PI 3\n.PI2 3\nMOVI $a .PI\nMOVI $b .PI2".toList =
      .ok { words := [0x04800000, 0x04A00000], entry := 0, len := 2, nums := [3], strs := [] } := by
  decide

/-- Vector V2: 524287 is the largest immediate. -/
theorem test_assemble_immediate_bound :
    assemble OpcodeMap.standard RegNames.standard "MOVI $a #524287".toList =
        .ok { words := [0x048FFFFF], entry := 0, len := 1, nums := [], strs := [] } ∧
    assemble OpcodeMap.standard RegNames.standard "MOVI $a #524288".toList =
        .error (.parse ⟨.immediateTooLarge, 1⟩) := by
  decide

/-- A forward label becomes the index of the next instruction (R130, R131). -/
theorem test_assemble_label :
    assemble OpcodeMap.standard RegNames.standard "JMP :end\nNOOP\n:end\nRET".toList =
      .ok { words := [0x5C000002, 0, 0x64000000], entry := 0, len := 3, nums := [], strs := [] } := by
  decide

/-- The fault of an unknown register names it (R122), and log 9's reading of signed immediates. -/
theorem test_parse_faults :
    assembleText OpcodeMap.standard RegNames.standard "NOOP\nMOVI &$z #1".toList =
        .error ⟨.unknownRegister "$z".toList, 2⟩ ∧
    assembleText OpcodeMap.standard RegNames.standard "MOVI $a #-1".toList =
        .error ⟨.immediateTooLarge, 1⟩ ∧
    assembleText OpcodeMap.standard RegNames.standard "MOVI $a #+5".toList =
        .error ⟨.malformedOperand, 1⟩ ∧
    assembleText OpcodeMap.standard RegNames.standard "JMP #-1".toList =
        .error ⟨.malformedOperand, 1⟩ := by
  decide

/-- The ends of the integers (R129), and log 9's reading of what is no integer. -/
theorem test_type_literal :
    typeLiteral "-2147483648".toList = .ok (.int 0x80000000) ∧
    typeLiteral "2147483648".toList =
      .ok (.str [0x32, 0x31, 0x34, 0x37, 0x34, 0x38, 0x33, 0x36, 0x34, 0x38]) ∧
    typeLiteral "0x10".toList = .ok (.str [0x30, 0x78, 0x31, 0x30]) ∧
    typeLiteral "a.b".toList = .ok (.str [0x61, 0x2E, 0x62]) := by
  decide

/-- A table of other numbers and spellings, the parameter of R100. -/
abbrev smallMap : OpcodeMap := [⟨9, "move".toList, .movi, .two⟩, ⟨3, "Go".toList, .jmp, .jump⟩]

theorem test_other_opcode_map :
    assemble smallMap RegNames.standard "MOVE $a #2\ngo #9".toList =
      .ok { words := [0x24880002, 0x0C000009], entry := 0, len := 2, nums := [], strs := [] } ∧
    decode smallMap 0x24880002#32 = .ok (.movi (.reg 4) (.imm 2)) ∧
    decode smallMap 0x04880002#32 = .error (.unrecognizedOpcode 0x04880002) ∧
    disasm smallMap RegNames.standard 0x24880002#32 = "move $a #2".toList := by
  decide

/-- Parameters that break the constraints of R10 are turned away (log 2, log 10). -/
theorem test_parameters_checked :
    assemble (⟨3, "stop".toList, .ret, .zero⟩ :: smallMap) RegNames.standard [] = .error .opcodeMap ∧
    assemble [⟨9, "move".toList, .movi, .one⟩] RegNames.standard [] = .error .opcodeMap ∧
    assemble smallMap (RegNames.standard.set 5 "$A".toList) [] = .error .regNames ∧
    assemble smallMap (RegNames.standard.take 11) [] = .error .regNames ∧
    launch { Params.default with opcodes := [⟨9, "move".toList, .movi, .one⟩] }
      { words := [], entry := 0, len := 0, nums := [], strs := [] } = .error .opcodeMap := by
  decide

/-- The disassembly of `ADDI &$a #1` and of an unassigned opcode (R111). -/
theorem test_disassemble :
    disasm OpcodeMap.standard RegNames.standard 0x7A880001#32 = "ADDI &$a #1".toList ∧
    disasm OpcodeMap.standard RegNames.standard 0xFFFFFFFF#32 = "??? 0xFFFFFFFF".toList := by
  decide

/-- The constant image of `7` and `"ok"`: addresses 0 and 4, heap start 7 (R63 to R66). -/
theorem test_launch_image :
    (match launch Params.default { words := [], entry := 0, len := 0, nums := [7], strs := [[0x6F, 0x6B]] } with
      | .ok s => bytesAre s 0 [0, 0, 0, 7, 0x6F, 0x6B, 0] && s.prog.cat == [0, 4] && s.x 3 == 7
      | .error _ => false) = true := by
  decide

theorem test_launch_refused :
    launch Params.default { words := [], entry := 1, len := 0, nums := [], strs := [] } =
      .error .entryNotZero := by
  decide

/-! ### Witnesses: the hypotheses of each statement can be met -/

/-- 64 bytes of memory with a word at 16, `$a` = 16, `$b` = 5, `$c` = 61, one constant at 16, sp = 59. -/
abbrev w0 : State :=
  start 0x78900005 [(0, 59), (4, 16), (5, 5), (6, 61), (7, 64)]
    [(16, 0x40), (17, 0x20), (59, 0xDE)] [16]

/-- The same with no room below and no datum above: sp = 3. -/
abbrev wLow : State := w0.setSp 3

/-- The same with an empty stack: sp = 61, three bytes below the end. -/
abbrev wHigh : State := w0.setSp 61

theorem witness_DecodeInvertsEncodeForEveryInstruction :
    OpcodeMap.standard.injective = true ∧
    encode OpcodeMap.standard (.movb (.ind 15) (.const 524287)) = some 0x0FE7FFFF#32 := by
  decide

theorem witness_OpcodeMapIsAParameter :
    smallMap.valid = true ∧ (⟨9, "move".toList, .movi, .two⟩ : OpcodeRow) ∈ smallMap ∧
    (Instr.movi (.reg 4) (.imm 2)).op = .movi ∧ sameText "mOVe".toList "move".toList = true ∧
    OpcodeMap.standard.valid = true := by
  decide

theorem witness_UnusedBitsAreIgnored :
    OpcodeMap.standard.injective = true ∧
    decode OpcodeMap.standard 0x03FFFFFF#32 = .ok .noop ∧
    decode OpcodeMap.standard 0x23F80005#32 = .ok (.pushi (.ind 5)) ∧
    decode OpcodeMap.standard 0x5FFFFFFF#32 = .ok (.jmp 0xFFFFFF) := by
  decide

theorem witness_StepRunsDecodedInstruction :
    w0.status = .running ∧ w0.pc.msb = false ∧ w0.prog.imem[w0.pc.toNat]? = some 0x78900005#32 ∧
    decode w0.params.opcodes 0x78900005#32 = .ok (.addi (.reg 4) (.reg 5)) := by
  decide

theorem witness_FetchOutsideProgramHaltsOrFaults :
    (w0.setPc 0x80000000).status = .running ∧ (w0.setPc 0x80000000).pc.toInt < 0 ∧
    (w0.setPc 0xFFFFFFFF).pc.toInt < 0 ∧
    ((w0.setPc 1).prog.imem.length : Int) ≤ (w0.setPc 1).pc.toInt ∧
    ((w0.setPc 0x7FFFFFFF).prog.imem.length : Int) ≤ (w0.setPc 0x7FFFFFFF).pc.toInt := by
  decide

theorem witness_UnassignedOpcodeFaults :
    (start 0xEC000000 [] [] []).status = .running ∧ (start 0xEC000000 [] [] []).pc.msb = false ∧
    (start 0xEC000000 [] [] []).prog.imem[(start 0xEC000000 [] [] []).pc.toNat]? =
      some 0xEC000000#32 ∧
    (start 0xEC000000 [] [] []).params.opcodes.opAt (decOpcode 0xEC000000#32) = none := by
  decide

theorem witness_FaultsArePrecise :
    step (start 0xEC000000 [] [] []) =
      .next ((start 0xEC000000 [] [] []).raise (.unrecognizedOpcode 0xEC000000)) ∧
    ((start 0xEC000000 [] [] []).raise (.unrecognizedOpcode 0xEC000000)).status =
      .faulted (.unrecognizedOpcode 0xEC000000) 0 :=
  ⟨rfl, rfl⟩

theorem witness_RegisterIndexIsCheckedFirst :
    (Instr.movi (.reg 12) (.imm 0)).operands = .two (.reg 12) (.imm 0) ∧
    11 < (Arg1.reg 12).value.toNat ∧
    (Instr.addf (.ind 11) (.ind 12)).operands = .two (.ind 11) (.ind 12) ∧
    (Arg1.ind 11).value.toNat ≤ 11 ∧ (Arg2.ind 12).regFlag = true ∧ 11 < (Arg2.ind 12).value.toNat ∧
    (Instr.printc (.reg 524287)).operands = .one (.reg 524287) ∧ (Arg2.reg 524287).regFlag = true ∧
    11 < (Arg2.reg 524287).value.toNat := by
  decide

theorem witness_LoadConstantTakesOnlyConstants :
    resolve1 (.reg 4) = .ok (.reg 4) ∧ resolve2 (.imm 0) = .ok (.imm 0) ∧
    (Arg2.imm 0).isConst = false ∧ resolve2 (.ind 11) = .ok (.ind 11) ∧
    (Arg2.ind 11).isConst = false ∧ w0.prog.imem[w0.pc.toNat]? = some 0x78900005#32 := by
  decide

theorem witness_ConstantIndexBeyondTableFaults :
    w0.prog.cat.length ≤ (1#19).toNat ∧ (Instr.popi (.const 1)).operands = .one (.const 1) ∧
    (Instr.ldca (.ind 11) (.const 1)).operands = .two (.ind 11) (.const 1) ∧
    (Arg1.ind 11).value.toNat ≤ 11 := by
  decide

theorem witness_ZeroDivisorFaults :
    resolve1 (.ind 4) = .ok (.ind 4) ∧ resolve2 (.imm 0) = .ok (.imm 0) ∧
    srcWord w0.postFetch .int (.imm 0) = .ok 0x00000000#32 ∧
    dstReadWord w0.postFetch (.ind 4) = .ok 0x40200000#32 ∧
    srcByte w0.postFetch (.imm 256) = .ok 0x00#8 ∧
    dstReadByte w0.postFetch (.ind 4) = .ok 0x40#8 ∧
    srcWord w0.postFetch .float (.imm 0) = .ok 0x00000000#32 ∧
    srcWord (w0.setX 5 0x80000000).postFetch .float (.reg 5) = .ok 0x80000000#32 := by
  decide

/-- The same with constants at 61, at 64 and at 16. -/
abbrev wCat : State := { w0 with prog := { w0.prog with cat := [61, 64, 16] } }

theorem witness_AccessOutsideMemoryFaults :
    resolve1 (.ind 6) = .ok (.ind 6) ∧ resolve2 (.ind 6) = .ok (.ind 6) ∧
    resolve1 (.ind 7) = .ok (.ind 7) ∧ resolve2 (.ind 7) = .ok (.ind 7) ∧
    srcAddr w0.postFetch (.ind 6) = some 61#32 ∧ w0.params.memSize < (61#32).toNat + 4 ∧
    srcAddr w0.postFetch (.ind 7) = some 64#32 ∧ w0.params.memSize < (64#32).toNat + 1 ∧
    srcAddr wCat.postFetch (.const 0) = some 61#32 ∧
    srcWord w0.postFetch .int (.reg 5) = .ok 5#32 ∧ srcWord w0.postFetch .float (.reg 5) = .ok 5#32 ∧
    srcByte w0.postFetch (.reg 5) = .ok 5#8 ∧
    (Dst.ind 6).addr w0.postFetch = some 61#32 ∧ (Dst.ind 7).addr w0.postFetch = some 64#32 ∧
    resolve2 (.const 2) = .ok (.const 2) ∧
    wCat.prog.cat[(0#19).toNat]? = some 61#32 ∧ wCat.prog.cat[(1#19).toNat]? = some 64#32 ∧
    wCat.prog.cat[(2#19).toNat]? = some 16#32 ∧ (16#32).toNat + 4 ≤ wCat.params.memSize ∧
    (Dst.ind 6).addr wCat.postFetch = some 61#32 ∧ (Dst.ind 7).addr wCat.postFetch = some 64#32 := by
  decide

theorem witness_StackAccessOutsideMemoryFaults :
    resolve2 (.reg 5) = .ok (.reg 5) ∧ resolve2 (.ind 0) = .ok (.ind RegIdx.sp) ∧
    srcWord wLow.postFetch .int (.reg 5) = .ok 5#32 ∧ srcByte wLow.postFetch (.reg 5) = .ok 5#8 ∧
    wLow.params.memSize < (wLow.sp - 4).toNat + 4 ∧ wLow.sp.toNat + 4 ≤ wLow.params.memSize ∧
    wHigh.params.memSize < wHigh.sp.toNat + 4 ∧
    (w0.setSp 64).params.memSize < (w0.setSp 64).sp.toNat + 1 ∧
    (w0.setSp 0).params.memSize < ((w0.setSp 0).sp - 1).toNat + 1 ∧
    (w0.setSp 0).sp.toNat + 1 ≤ (w0.setSp 0).params.memSize ∧
    (w0.setSp 60).sp.toNat + 4 ≤ (w0.setSp 60).params.memSize ∧
    srcWord (w0.setSp 60).postFetch .int (.ind RegIdx.sp) = .ok 0#32 ∧
    (w0.setSp 60).params.memSize < ((w0.setSp 60).sp + 4).toNat + 4 ∧
    srcByte (w0.setSp 63).postFetch (.ind RegIdx.sp) = .ok 0#8 ∧
    (w0.setSp 63).params.memSize < ((w0.setSp 63).sp + 1).toNat + 1 ∧
    (w0.sp - 4).toNat + 4 ≤ w0.params.memSize ∧ (Src.reg 5) ≠ .ind RegIdx.sp := by
  decide

theorem witness_StoresWriteTheirBytesAlone :
    w0.mem.wf = true ∧ w0.params.memSize < (61#32).toNat + 4 ∧ (60#32).toNat + 4 ≤ w0.params.memSize ∧
    w0.params.memSize < (64#32).toNat + 1 ∧ (63#32).toNat + 1 ≤ w0.params.memSize ∧
    w0.params.byteOrder = .big ∧
    ({ w0 with params := { w0.params with byteOrder := .little } } : State).params.byteOrder =
      .little := by
  decide

theorem witness_ImmediatesEnterTheirLanes :
    w0.params.floatImm = .convert ∧
    ({ w0 with params := { w0.params with floatImm := .reinterpret } } : State).params.floatImm =
      .reinterpret := by
  decide

theorem witness_EncodedOperandsGiveTheirDescriptors :
    (0x78900005#32).getLsbD 25 = false ∧ (0x7A880001#32).getLsbD 25 = true ∧
    (0x78900005#32).getLsbD 20 = true ∧ (0x78900005#32).getLsbD 19 = false ∧
    (0x74180004#32).getLsbD 20 = true ∧ (0x74180004#32).getLsbD 19 = true ∧
    (0x20080005#32).getLsbD 20 = false ∧ (0x20080005#32).getLsbD 19 = true ∧
    (0x1C800000#32).getLsbD 20 = false ∧ (0x1C800000#32).getLsbD 19 = false ∧
    (11#4).toNat < 12 ∧ (11#19).toNat < 12 := by
  decide

theorem witness_SourceOperandForms :
    w0.prog.cat[(0#19).toNat]? = some 16#32 ∧ w0.prog.cat.length ≤ (1#19).toNat := by
  decide

theorem witness_DestinationOperandForms :
    dstWriteWord w0 (.ind 4) 7 = .ok (storedWord w0 (.ind 4) 7) ∧
    dstWriteByte w0 (.ind 4) 7 = .ok (storedByte w0 (.ind 4) 7) ∧
    Src.implicitDst (.imm 0) = none ∧ Src.implicitDst (.const 0) = none := by
  decide

theorem witness_NoopOnlyAdvances : decOpcode 0x03FFFFFF#32 = 0#6 := by
  decide

theorem witness_MovesComplete :
    resolve1 (.ind 4) = .ok (.ind 4) ∧ resolve2 (.const 0) = .ok (.const 0) ∧
    srcWord w0.postFetch .int (.const 0) = .ok 0x40200000#32 ∧
    srcWord w0.postFetch .float (.imm 2) = .ok 0x40000000#32 ∧
    srcByte w0.postFetch (.ind 4) = .ok 0x40#8 ∧
    dstFits w0.postFetch (.ind 4) 4 = true ∧ dstFits w0.postFetch (.ind 6) 1 = true ∧
    dstFits w0.postFetch (.reg 1) 4 = true := by
  decide

theorem witness_LoadConstantsComplete :
    resolve1 (.ind 4) = .ok (.ind 4) ∧ w0.prog.cat[(0#19).toNat]? = some 16#32 ∧
    (16#32).toNat + 4 ≤ w0.params.memSize ∧ (16#32).toNat + 1 ≤ w0.params.memSize ∧
    dstFits w0.postFetch (.ind 4) 4 = true ∧ dstFits w0.postFetch (.ind 4) 1 = true := by
  decide

theorem witness_PushesComplete :
    resolve2 (.reg 0) = .ok (.reg 0) ∧ (w0.sp - 4).toNat + 4 ≤ w0.params.memSize ∧
    srcWord w0.postFetch .int (.reg 0) = .ok 59#32 ∧ srcWord w0.postFetch .float (.reg 0) = .ok 59#32 ∧
    ((w0.setSp 4).sp - 4).toNat + 4 ≤ w0.params.memSize ∧
    ((w0.setSp 64).sp - 1).toNat + 1 ≤ w0.params.memSize ∧
    srcByte (w0.setSp 64).postFetch (.reg 0) = .ok 64#8 := by
  decide

theorem witness_PopsComplete :
    resolve2 (.ind 4) = .ok (.ind 4) ∧ resolve2 (.imm 0) = .ok (.imm 0) ∧
    (w0.setSp 60).sp.toNat + 4 ≤ w0.params.memSize ∧ (w0.setSp 63).sp.toNat + 1 ≤ w0.params.memSize ∧
    srcWord w0.postFetch .int (.ind 4) = .ok 0x40200000#32 ∧
    srcWord w0.postFetch .float (.ind 4) = .ok 0x40200000#32 ∧
    srcByte w0.postFetch (.ind 4) = .ok 0x40#8 ∧ w0.sp.toNat + 4 ≤ w0.params.memSize ∧
    Src.implicitDst (.imm 0) = none ∧ Src.implicitDst (.ind 4) = some (.ind 4) ∧
    dstFits (w0.postFetch.setSp (w0.sp + 4)) (.ind 4) 4 = true ∧
    dstFits (w0.postFetch.setSp (w0.sp + 1)) (.ind 4) 1 = true := by
  decide

theorem witness_DuplicatesComplete :
    resolve2 (.ind 4) = .ok (.ind 4) ∧ w0.sp.toNat + 4 ≤ w0.params.memSize ∧
    (w0.sp - 4).toNat + 4 ≤ w0.params.memSize ∧ w0.sp.toNat + 1 ≤ w0.params.memSize ∧
    (w0.sp - 1).toNat + 1 ≤ w0.params.memSize ∧
    srcWord w0.postFetch .int (.ind 4) = .ok 0x40200000#32 ∧
    srcWord w0.postFetch .float (.ind 4) = .ok 0x40200000#32 ∧
    srcByte w0.postFetch (.ind 4) = .ok 0x40#8 ∧
    Src.implicitDst (.const 0) = none ∧ Src.implicitDst (.ind 4) = some (.ind 4) ∧
    dstFits { w0.postFetch.setSp (w0.sp - 4) with
      mem := w0.mem.writeWord w0.params.byteOrder (w0.sp - 4).toNat
        (w0.mem.readWord w0.params.byteOrder w0.sp.toNat) } (.ind 4) 4 = true ∧
    dstFits { w0.postFetch.setSp (w0.sp - 1) with
      mem := w0.mem.write (w0.sp - 1).toNat (w0.mem.read w0.sp.toNat) } (.ind 4) 1 = true := by
  decide

theorem witness_PushThenPopRestores :
    w0.mem.wf = true ∧ resolve2 (.reg 0) = .ok (.reg 0) ∧ resolve2 (.reg 4) = .ok (.reg 4) ∧
    (4 : RegIdx) ≠ RegIdx.sp ∧ srcWord w0.postFetch .int (.reg 0) = .ok 59#32 ∧
    (w0.sp - 4).toNat + 4 ≤ w0.params.memSize ∧ srcByte w0.postFetch (.reg 0) = .ok 59#8 ∧
    (w0.sp - 1).toNat + 1 ≤ w0.params.memSize := by
  decide

theorem witness_CompareSkipsComplete :
    resolve1 (.ind 4) = .ok (.ind 4) ∧ resolve2 (.reg 5) = .ok (.reg 5) ∧
    srcWord w0.postFetch .int (.reg 5) = .ok 5#32 ∧ dstReadWord w0.postFetch (.ind 4) = .ok 0x40200000#32 ∧
    srcWord w0.postFetch .float (.reg 5) = .ok 5#32 ∧ srcByte w0.postFetch (.reg 5) = .ok 5#8 ∧
    dstReadByte w0.postFetch (.ind 4) = .ok 0x40#8 := by
  decide

theorem witness_JumpCallReturnComplete :
    0x5FFFFFFF#32 &&& 0xFC000000#32 = 0x5C000000#32 ∧ 0x63000007#32 &&& 0xFC000000#32 = 0x60000000#32 ∧
    0x67FFFFFF#32 &&& 0xFC000000#32 = 0x64000000#32 := by
  decide

theorem witness_PrintsAppendOneEvent :
    resolve2 (.ind 4) = .ok (.ind 4) ∧ srcWord w0.postFetch .int (.ind 4) = .ok 0x40200000#32 ∧
    srcWord w0.postFetch .float (.ind 4) = .ok 0x40200000#32 ∧
    srcByte w0.postFetch (.ind 4) = .ok 0x40#8 := by
  decide

theorem witness_AddSubMulComplete :
    resolve1 (.ind 4) = .ok (.ind 4) ∧ resolve2 (.reg 5) = .ok (.reg 5) ∧
    srcWord w0.postFetch .int (.reg 5) = .ok 5#32 ∧
    dstReadWord w0.postFetch (.ind 4) = .ok 0x40200000#32 ∧
    srcByte w0.postFetch (.reg 5) = .ok 5#8 ∧ dstReadByte w0.postFetch (.ind 4) = .ok 0x40#8 := by
  decide

theorem witness_DivModComplete :
    resolve1 (.ind 4) = .ok (.ind 4) ∧ resolve2 (.reg 5) = .ok (.reg 5) ∧
    srcWord w0.postFetch .int (.reg 5) = .ok 5#32 ∧
    dstReadWord w0.postFetch (.ind 4) = .ok 0x40200000#32 ∧ 5#32 ≠ 0#32 ∧
    srcByte w0.postFetch (.reg 5) = .ok 5#8 ∧ dstReadByte w0.postFetch (.ind 4) = .ok 0x40#8 ∧
    5#8 ≠ 0#8 := by
  decide

theorem witness_IntegerLaneLaws : 0xFFFFFFFF#32 ≠ 0#32 := by
  decide

theorem witness_ByteLaneLaws : 0xFF#8 ≠ 0#8 := by
  decide

theorem witness_FloatArithmeticCompletes :
    resolve1 (.ind 4) = .ok (.ind 4) ∧ resolve2 (.imm 2) = .ok (.imm 2) ∧
    srcWord w0.postFetch .float (.imm 2) = .ok 0x40000000#32 ∧
    dstReadWord w0.postFetch (.ind 4) = .ok 0x40200000#32 ∧ 0x40000000#32 ≠ 0x00000000#32 ∧
    0x40000000#32 ≠ 0x80000000#32 := by
  decide

theorem witness_FloatResultsAreRoundedToNearestEven :
    fExp 0x7F7FFFFF#32 ≠ 255 ∧ fExp 0x80000001#32 ≠ 255 ∧ 0 < fInt 0x00000001#32 ∧
    fInt 0x80000001#32 < 0 := by
  decide

theorem witness_FloatSpecialValues :
    fIsNan 0x7F800001#32 = true ∧ fExp 0x7F7FFFFF#32 ≠ 255 ∧ fIsInf 0xFF800000#32 = true ∧
    fIsZero 0x80000000#32 = true ∧ fIsZero 0x00000001#32 = false ∧ fIsInf 0x7F800000#32 = true ∧
    fExp 0x3F800000#32 ≠ 255 ∧ fInt 0x3F800000#32 + fInt 0xBF800000#32 = 0 ∧
    fInt 0x80000000#32 = fInt 0x00000000#32 := by
  decide

theorem witness_FloatRemainderIsTruncatedAndExact :
    fExp 0xC0B00000#32 ≠ 255 ∧ fExp 0x00000001#32 ≠ 255 ∧ fIsZero 0x00000001#32 = false := by
  decide

theorem witness_FloatComparisonsAreOrdered :
    fIsNan 0xFFC00001#32 = true ∧ fIsZero 0x00000000#32 = true ∧ fIsZero 0x80000000#32 = true ∧
    fExp 0xFF7FFFFF#32 ≠ 255 ∧ fIsNan 0x7F800000#32 = false := by
  decide

theorem witness_BitwiseComplete :
    resolve1 (.ind 4) = .ok (.ind 4) ∧ resolve2 (.reg 5) = .ok (.reg 5) ∧
    srcWord w0.postFetch .int (.reg 5) = .ok 5#32 ∧
    dstReadWord w0.postFetch (.ind 4) = .ok 0x40200000#32 ∧
    srcByte w0.postFetch (.reg 5) = .ok 5#8 ∧ dstReadByte w0.postFetch (.ind 4) = .ok 0x40#8 ∧
    dstFits w0.postFetch (.ind 4) 4 = true ∧ dstFits w0.postFetch (.ind 4) 1 = true := by
  decide

theorem witness_ShiftsComplete :
    resolve1 (.ind 4) = .ok (.ind 4) ∧ resolve2 (.imm 31) = .ok (.imm 31) ∧
    srcWord w0.postFetch .int (.imm 31) = .ok 31#32 ∧
    dstReadWord w0.postFetch (.ind 4) = .ok 0x40200000#32 ∧
    srcByte w0.postFetch (.imm 31) = .ok 31#8 ∧ dstReadByte w0.postFetch (.ind 4) = .ok 0x40#8 := by
  decide

theorem witness_ShiftLaws : 8 ≤ amtByte 8#8 ∧ 8 ≤ amtByte 31#8 := by
  decide

theorem witness_StepKeepsInvariant : w0.Inv ∧ ∃ t, step w0 = .next t :=
  ⟨⟨by decide, by decide, by decide, (fun _ _ h => by cases h), (fun h => by cases h)⟩, _, rfl⟩

theorem witness_LaunchHasInvariant :
    ∃ s, launch Params.default ⟨[0x64000000], 0, 1, [7, 0], [[0x6F, 0x6B], []]⟩ = .ok s :=
  ⟨_, rfl⟩

theorem witness_LaunchResetsTheMachine :
    (∃ s, launch Params.default ⟨[0x64000000], 0, 1, [7, 0], [[0x6F, 0x6B], []]⟩ = .ok s) ∧
    4 ≤ (11 : RegIdx).val ∧ ([7, 0] : List Word)[1]? = some 0#32 ∧
    ([[0x6F, 0x6B], []] : List (List Byte))[0]? = some [0x6F, 0x6B] ∧
    ([0x6F, 0x6B] : List Byte)[1]? = some 0x6B#8 :=
  ⟨⟨_, rfl⟩, by decide, by decide, by decide, by decide⟩

theorem witness_StepKeepsProgramAndParameters :
    (∃ t, step w0 = .next t) ∧ w0.fetchInstr = .ok (.addi (.reg 4) (.reg 5)) :=
  ⟨⟨_, rfl⟩, by rfl⟩

theorem witness_OutputStreamIsAppendOnlyAndUnread :
    (∃ t, step (start 0x68100004 [(4, 5)] [] []) = .next t) ∧
    ∃ t, exec (.printi (.reg 4)) w0 = .next t :=
  ⟨⟨_, rfl⟩, _, rfl⟩

theorem witness_OnlyWrittenRegistersChange :
    (∃ t, exec (.popi (.reg 4)) w0 = .next t) ∧ (5 : RegIdx) ≠ RegIdx.pc ∧
    5 ∉ writtenRegs (.popi (.reg 4)) :=
  ⟨⟨_, rfl⟩, by decide, by decide⟩

theorem witness_OnlyStoredBytesChange :
    w0.mem.wf = true ∧ (∃ t, exec (.pushi (.reg 4)) w0 = .next t) ∧
    54 ∉ storedAddrs (.pushi (.reg 4)) w0.postFetch ∧ 59 ∉ storedAddrs (.pushi (.reg 4)) w0.postFetch :=
  ⟨by decide, ⟨_, rfl⟩, by decide, by decide⟩

theorem witness_PcAdvancesByOne :
    (∃ t, exec (.addi (.reg 4) (.reg 5)) w0 = .next t) ∧ isControl (.addi (.reg 4) (.reg 5)) = false ∧
    RegIdx.pc ∉ writtenRegs (.addi (.reg 4) (.reg 5)) :=
  ⟨⟨_, rfl⟩, by decide, by decide⟩

theorem witness_InstructionsLeaveTheRest :
    (∃ t, exec (.addi (.reg 4) (.reg 5)) w0 = .next t) ∧ isPrint (.addi (.reg 4) (.reg 5)) = false ∧
    isFloatArith (.addi (.reg 4) (.reg 5)) = false ∧ w0.params.nanResult = .canonical :=
  ⟨⟨_, rfl⟩, by decide, by decide, rfl⟩

theorem witness_DisassemblyReassembles :
    Instr.wf (.addi (.ind 11) (.imm 524287)) = true ∧
    noConstant (Instr.addi (.ind 11) (.imm 524287)).operands = true ∧
    encode OpcodeMap.standard (.addi (.ind 11) (.imm 524287)) = some 0x7B6FFFFF#32 := by
  decide

end Sys2Proof.Tests
end

section
/-! The meaning of each instruction as the shared operation it applies: one equation per arm of
`exec`, with which no later proof unfolds the dispatch. -/

namespace Sys2Proof.Machine

section
variable (d : Arg1) (a : Arg2) (k : BitVec 24) (s : State)

@[simp] theorem exec_noop : exec .noop s = transact s fun u => .ok u := rfl
@[simp] theorem exec_movi : exec (.movi d a) s = class2 s d a (moveWord .int) := rfl
@[simp] theorem exec_movf : exec (.movf d a) s = class2 s d a (moveWord .float) := rfl
@[simp] theorem exec_movb : exec (.movb d a) s = class2 s d a moveByte := rfl
@[simp] theorem exec_ldci : exec (.ldci d a) s = class2 s d a (loadConstWord s.fetchedWord .int) := rfl
@[simp] theorem exec_ldcf : exec (.ldcf d a) s = class2 s d a (loadConstWord s.fetchedWord .float) := rfl
@[simp] theorem exec_ldcb : exec (.ldcb d a) s = class2 s d a (loadConstByte s.fetchedWord) := rfl
@[simp] theorem exec_ldca : exec (.ldca d a) s = class2 s d a (loadConstAddr s.fetchedWord) := rfl
@[simp] theorem exec_pushi : exec (.pushi a) s = class1 s a (pushWord .int) := rfl
@[simp] theorem exec_pushf : exec (.pushf a) s = class1 s a (pushWord .float) := rfl
@[simp] theorem exec_pushb : exec (.pushb a) s = class1 s a pushByte := rfl
@[simp] theorem exec_popi : exec (.popi a) s = class1 s a (popWord .int) := rfl
@[simp] theorem exec_popf : exec (.popf a) s = class1 s a (popWord .float) := rfl
@[simp] theorem exec_popb : exec (.popb a) s = class1 s a popByte := rfl
@[simp] theorem exec_dupi : exec (.dupi a) s = class1 s a (dupWord .int) := rfl
@[simp] theorem exec_dupf : exec (.dupf a) s = class1 s a (dupWord .float) := rfl
@[simp] theorem exec_dupb : exec (.dupb a) s = class1 s a dupByte := rfl
@[simp] theorem exec_ifi : exec (.ifi d a) s = class2 s d a (compareWord .int gtWord) := rfl
@[simp] theorem exec_iff : exec (.iff d a) s = class2 s d a (compareWord .float fgt) := rfl
@[simp] theorem exec_ifb : exec (.ifb d a) s = class2 s d a (compareByte gtByte) := rfl
@[simp] theorem exec_ifei : exec (.ifei d a) s = class2 s d a (compareWord .int geWord) := rfl
@[simp] theorem exec_ifef : exec (.ifef d a) s = class2 s d a (compareWord .float fge) := rfl
@[simp] theorem exec_ifeb : exec (.ifeb d a) s = class2 s d a (compareByte geByte) := rfl
@[simp] theorem exec_jmp : exec (.jmp k) s = transact s fun u => .ok (u.setPc (k.setWidth 32)) := rfl
@[simp] theorem exec_call :
    exec (.call k) s = transact s fun u => .ok ((u.setX RegIdx.ra u.pc).setPc (k.setWidth 32)) := rfl
@[simp] theorem exec_ret : exec .ret s = transact s fun u => .ok (u.setPc (u.x RegIdx.ra)) := rfl
@[simp] theorem exec_printi : exec (.printi a) s = class1 s a (printWord .int .outI) := rfl
@[simp] theorem exec_printf : exec (.printf a) s = class1 s a (printWord .float .outF) := rfl
@[simp] theorem exec_printb : exec (.printb a) s = class1 s a (printByte .outB) := rfl
@[simp] theorem exec_printc : exec (.printc a) s = class1 s a (printByte .outC) := rfl
@[simp] theorem exec_addi : exec (.addi d a) s = class2 s d a (modifyWord addI) := rfl
@[simp] theorem exec_addf : exec (.addf d a) s = class2 s d a (modifyFloat fadd) := rfl
@[simp] theorem exec_addb : exec (.addb d a) s = class2 s d a (modifyByte addB) := rfl
@[simp] theorem exec_subi : exec (.subi d a) s = class2 s d a (modifyWord subI) := rfl
@[simp] theorem exec_subf : exec (.subf d a) s = class2 s d a (modifyFloat fsub) := rfl
@[simp] theorem exec_subb : exec (.subb d a) s = class2 s d a (modifyByte subB) := rfl
@[simp] theorem exec_muli : exec (.muli d a) s = class2 s d a (modifyWord mulI) := rfl
@[simp] theorem exec_mulf : exec (.mulf d a) s = class2 s d a (modifyFloat fmul) := rfl
@[simp] theorem exec_mulb : exec (.mulb d a) s = class2 s d a (modifyByte mulB) := rfl
@[simp] theorem exec_divi : exec (.divi d a) s = class2 s d a (divideWord divI) := rfl
@[simp] theorem exec_divf : exec (.divf d a) s = class2 s d a (divideFloat fdiv) := rfl
@[simp] theorem exec_divb : exec (.divb d a) s = class2 s d a (divideByte divB) := rfl
@[simp] theorem exec_modi : exec (.modi d a) s = class2 s d a (divideWord modI) := rfl
@[simp] theorem exec_modf : exec (.modf d a) s = class2 s d a (divideFloat frem) := rfl
@[simp] theorem exec_modb : exec (.modb d a) s = class2 s d a (divideByte modB) := rfl
@[simp] theorem exec_ori : exec (.ori d a) s = class2 s d a (modifyWord (fun x y => x ||| y)) := rfl
@[simp] theorem exec_orb : exec (.orb d a) s = class2 s d a (modifyByte (fun x y => x ||| y)) := rfl
@[simp] theorem exec_andi : exec (.andi d a) s = class2 s d a (modifyWord (fun x y => x &&& y)) := rfl
@[simp] theorem exec_andb : exec (.andb d a) s = class2 s d a (modifyByte (fun x y => x &&& y)) := rfl
@[simp] theorem exec_xori : exec (.xori d a) s = class2 s d a (modifyWord (fun x y => x ^^^ y)) := rfl
@[simp] theorem exec_xorb : exec (.xorb d a) s = class2 s d a (modifyByte (fun x y => x ^^^ y)) := rfl
@[simp] theorem exec_noti : exec (.noti d a) s = class2 s d a complementWord := rfl
@[simp] theorem exec_notb : exec (.notb d a) s = class2 s d a complementByte := rfl
@[simp] theorem exec_szrli : exec (.szrli d a) s = class2 s d a (modifyWord shruI) := rfl
@[simp] theorem exec_szrlb : exec (.szrlb d a) s = class2 s d a (modifyByte shruB) := rfl
@[simp] theorem exec_srli : exec (.srli d a) s = class2 s d a (modifyWord shrsI) := rfl
@[simp] theorem exec_srlb : exec (.srlb d a) s = class2 s d a (modifyByte shrsB) := rfl
@[simp] theorem exec_slli : exec (.slli d a) s = class2 s d a (modifyWord shlI) := rfl
@[simp] theorem exec_sllb : exec (.sllb d a) s = class2 s d a (modifyByte shlB) := rfl

end

end Sys2Proof.Machine
end

section
/-! What an instruction that raises no fault does to the state, said once for all 59: a chain of primitive
updates, each store of it inside data memory.  What every primitive update keeps, every instruction keeps. -/

namespace Sys2Proof.Machine

/-- `t` is `s` after some primitive updates of an instruction's body: register writes, stores inside
`[0, MEM_SIZE)`, print events, draws of a free NaN. -/
inductive Updates (s : State) : State → Prop where
  | refl : Updates s s
  | setX {t : State} (i : RegIdx) (v : Word) : Updates s t → Updates s (t.setX i v)
  | storeByte {t : State} (a : Word) (v : Byte) : Updates s t → t.inRange a 1 = true →
      Updates s { t with mem := t.mem.write a.toNat v }
  | storeWord {t : State} (a v : Word) : Updates s t → t.inRange a 4 = true →
      Updates s { t with mem := t.mem.writeWord t.params.byteOrder a.toNat v }
  | emit {t : State} (e : OutEvent) : Updates s t → Updates s (t.emit e)
  | draw {t : State} (n : Nat) : Updates s t → Updates s { t with draws := n }

/-! ### The shared operations are updates -/

theorem Updates.storedWord {s u : State} {D : Dst} (v : Word) (hu : Updates s u)
    (hD : dstFits u D 4 = true) : Updates s (storedWord u D v) := by
  cases D with
  | reg r => exact .setX r v hu
  | ind r => exact .storeWord (u.x r) v hu hD

theorem Updates.storedByte {s u : State} {D : Dst} (v : Byte) (hu : Updates s u)
    (hD : dstFits u D 1 = true) : Updates s (storedByte u D v) := by
  cases D with
  | reg r => exact .setX r (v.signExtend 32) hu
  | ind r => exact .storeByte (u.x r) v hu hD

theorem Updates.implicitWriteWord {s u t : State} {S : Src} {v : Word} (hu : Updates s u)
    (h : implicitWriteWord u S v = .ok t) : Updates s t := by
  obtain ⟨-, rfl⟩ | ⟨D, -, hD, rfl⟩ := implicitWriteWord_ok.1 h
  · exact hu
  · exact hu.storedWord v hD

theorem Updates.implicitWriteByte {s u t : State} {S : Src} {v : Byte} (hu : Updates s u)
    (h : implicitWriteByte u S v = .ok t) : Updates s t := by
  obtain ⟨-, rfl⟩ | ⟨D, -, hD, rfl⟩ := implicitWriteByte_ok.1 h
  · exact hu
  · exact hu.storedByte v hD

theorem Updates.floatResult {s u : State} (r : Option Word) (hu : Updates s u) :
    Updates s (floatResult u r).2 := by
  rw [floatResult_state]
  exact .draw _ hu

/-- A float result stored where the operand was read. -/
theorem Updates.storedFloat {u : State} {D : Dst} {a : Word} (r : Option Word)
    (ha : dstReadWord u D = .ok a) :
    Updates u (Machine.storedWord (Machine.floatResult u r).2 D (Machine.floatResult u r).1) :=
  (Updates.refl.floatResult r).storedWord _ (by rw [dstFits_floatResult]; exact dstFits_of_readWord ha)

theorem Updates.skipUnless {s u : State} (b : Bool) (hu : Updates s u) :
    Updates s (skipUnless u b) := by
  cases b with
  | true => exact hu
  | false => exact .setX RegIdx.pc _ hu

/-- The slot of a word pushed on the stack. -/
theorem Updates.pushedWord {u : State} (v : Word) (h : u.inRange (u.sp - 4) 4 = true) :
    Updates u { u.setSp (u.sp - 4) with
      mem := u.mem.writeWord u.params.byteOrder (u.sp - 4).toNat v } :=
  .storeWord (u.sp - 4) v (.setX RegIdx.sp (u.sp - 4) .refl) h

/-- The slot of a byte pushed on the stack. -/
theorem Updates.pushedByte {u : State} (v : Byte) (h : u.inRange (u.sp - 1) 1 = true) :
    Updates u { u.setSp (u.sp - 1) with mem := u.mem.write (u.sp - 1).toNat v } :=
  .storeByte (u.sp - 1) v (.setX RegIdx.sp (u.sp - 1) .refl) h

/-! ### The bodies are updates -/

section
variable {u t : State} {D : Dst} {S : Src}

theorem modifyWord_updates {f : Word → Word → Word} (h : modifyWord f u D S = .ok t) :
    Updates u t := by
  obtain ⟨b, a, -, ha, rfl⟩ := modifyWord_ok.1 h
  exact Updates.refl.storedWord _ (dstFits_of_readWord ha)

theorem modifyByte_updates {f : Byte → Byte → Byte} (h : modifyByte f u D S = .ok t) :
    Updates u t := by
  obtain ⟨b, a, -, ha, rfl⟩ := modifyByte_ok.1 h
  exact Updates.refl.storedByte _ (dstFits_of_readByte ha)

theorem divideWord_updates {f : Word → Word → Word} (h : divideWord f u D S = .ok t) :
    Updates u t := by
  obtain ⟨b, a, -, ha, -, rfl⟩ := divideWord_ok.1 h
  exact Updates.refl.storedWord _ (dstFits_of_readWord ha)

theorem divideByte_updates {f : Byte → Byte → Byte} (h : divideByte f u D S = .ok t) :
    Updates u t := by
  obtain ⟨b, a, -, ha, -, rfl⟩ := divideByte_ok.1 h
  exact Updates.refl.storedByte _ (dstFits_of_readByte ha)

theorem modifyFloat_updates {f : Word → Word → Option Word} (h : modifyFloat f u D S = .ok t) :
    Updates u t := by
  obtain ⟨b, a, -, ha, rfl⟩ := modifyFloat_ok.1 h
  exact .storedFloat _ ha

theorem divideFloat_updates {f : Word → Word → Option Word} (h : divideFloat f u D S = .ok t) :
    Updates u t := by
  obtain ⟨b, a, -, ha, -, rfl⟩ := divideFloat_ok.1 h
  exact .storedFloat _ ha

theorem complementWord_updates (h : complementWord u D S = .ok t) : Updates u t := by
  obtain ⟨b, -, hD, rfl⟩ := complementWord_ok.1 h
  exact Updates.refl.storedWord _ hD

theorem complementByte_updates (h : complementByte u D S = .ok t) : Updates u t := by
  obtain ⟨b, -, hD, rfl⟩ := complementByte_ok.1 h
  exact Updates.refl.storedByte _ hD

theorem compareWord_updates {lane : WordLane} {f : Word → Word → Bool}
    (h : compareWord lane f u D S = .ok t) : Updates u t := by
  obtain ⟨b, a, -, -, rfl⟩ := compareWord_ok.1 h
  exact Updates.refl.skipUnless _

theorem compareByte_updates {f : Byte → Byte → Bool} (h : compareByte f u D S = .ok t) :
    Updates u t := by
  obtain ⟨b, a, -, -, rfl⟩ := compareByte_ok.1 h
  exact Updates.refl.skipUnless _

theorem moveWord_updates {lane : WordLane} (h : moveWord lane u D S = .ok t) : Updates u t := by
  obtain ⟨v, -, hD, rfl⟩ := moveWord_ok.1 h
  exact Updates.refl.storedWord _ hD

theorem moveByte_updates (h : moveByte u D S = .ok t) : Updates u t := by
  obtain ⟨v, -, hD, rfl⟩ := moveByte_ok.1 h
  exact Updates.refl.storedByte _ hD

theorem loadConstWord_updates {w : Word} {lane : WordLane} (h : loadConstWord w lane u D S = .ok t) :
    Updates u t := by
  obtain ⟨k, v, -, -, hD, rfl⟩ := loadConstWord_ok.1 h
  exact Updates.refl.storedWord _ hD

theorem loadConstByte_updates {w : Word} (h : loadConstByte w u D S = .ok t) : Updates u t := by
  obtain ⟨k, v, -, -, hD, rfl⟩ := loadConstByte_ok.1 h
  exact Updates.refl.storedByte _ hD

theorem loadConstAddr_updates {w : Word} (h : loadConstAddr w u D S = .ok t) : Updates u t := by
  obtain ⟨k, v, -, -, hD, rfl⟩ := loadConstAddr_ok.1 h
  exact Updates.refl.storedWord _ hD

theorem printWord_updates {lane : WordLane} {e : Word → OutEvent}
    (h : printWord lane e u S = .ok t) : Updates u t := by
  obtain ⟨v, -, rfl⟩ := printWord_ok.1 h
  exact .emit _ .refl

theorem printByte_updates {e : Byte → OutEvent} (h : printByte e u S = .ok t) : Updates u t := by
  obtain ⟨v, -, rfl⟩ := printByte_ok.1 h
  exact .emit _ .refl

theorem pushWord_updates {lane : WordLane} (h : pushWord lane u S = .ok t) : Updates u t := by
  obtain ⟨v, -, hr, rfl⟩ := pushWord_ok.1 h
  exact .pushedWord v hr

theorem pushByte_updates (h : pushByte u S = .ok t) : Updates u t := by
  obtain ⟨v, -, hr, rfl⟩ := pushByte_ok.1 h
  exact .pushedByte v hr

theorem popWord_updates {lane : WordLane} (h : popWord lane u S = .ok t) : Updates u t := by
  obtain ⟨_, v, -, -, hw⟩ := popWord_ok.1 h
  exact (Updates.refl.setX RegIdx.sp _).implicitWriteWord hw

theorem popByte_updates (h : popByte u S = .ok t) : Updates u t := by
  obtain ⟨_, v, -, -, hw⟩ := popByte_ok.1 h
  exact (Updates.refl.setX RegIdx.sp _).implicitWriteByte hw

theorem dupWord_updates {lane : WordLane} (h : dupWord lane u S = .ok t) : Updates u t := by
  obtain ⟨_, v, -, -, hr, hw⟩ := dupWord_ok.1 h
  exact (Updates.pushedWord v hr).implicitWriteWord hw

theorem dupByte_updates (h : dupByte u S = .ok t) : Updates u t := by
  obtain ⟨_, v, -, -, hr, hw⟩ := dupByte_ok.1 h
  exact (Updates.pushedByte v hr).implicitWriteByte hw

end

/-! ### Every instruction -/

/-- The body is made of primitive updates whenever it raises no fault. -/
theorem transact_updates {s t : State} {body : State → Except Cause State}
    (hb : ∀ u t, body u = .ok t → Updates u t) (h : transact s body = .next t) :
    Updates s.postFetch t ∨ ∃ c, t = s.raise c := by
  obtain h | ⟨c, -, hc⟩ := transact_next.1 h
  · exact .inl (hb _ _ h)
  · exact .inr ⟨c, hc⟩

theorem class1_updates {s t : State} {a : Arg2} {body : State → Src → Except Cause State}
    (hb : ∀ {u t S}, body u S = .ok t → Updates u t) (h : class1 s a body = .next t) :
    Updates s.postFetch t ∨ ∃ c, t = s.raise c :=
  (class1_next h).imp_left fun ⟨_, _, h⟩ => hb h

theorem class2_updates {s t : State} {d : Arg1} {a : Arg2}
    {body : State → Dst → Src → Except Cause State}
    (hb : ∀ {u t D S}, body u D S = .ok t → Updates u t) (h : class2 s d a body = .next t) :
    Updates s.postFetch t ∨ ∃ c, t = s.raise c :=
  (class2_next h).imp_left fun ⟨_, _, _, _, h⟩ => hb h

/-- An instruction updates the post-fetch state, or raises a fault (40_operands.md R140,
60_exceptions.md R301). -/
theorem exec_next {i : Instr} {s t : State} (h : exec i s = .next t) :
    Updates s.postFetch t ∨ ∃ c, t = s.raise c := by
  cases i with
  | noop =>
    simp only [exec_noop] at h
    exact transact_updates (fun u _ h => by cases h; exact .refl) h
  | jmp k =>
    simp only [exec_jmp] at h
    exact transact_updates (fun u _ h => by cases h; exact .setX _ _ .refl) h
  | call k =>
    simp only [exec_call] at h
    exact transact_updates (fun u _ h => by cases h; exact .setX _ _ (.setX _ _ .refl)) h
  | ret =>
    simp only [exec_ret] at h
    exact transact_updates (fun u _ h => by cases h; exact .setX _ _ .refl) h
  | movi d a | movf d a =>
    simp only [exec_movi, exec_movf] at h
    exact class2_updates moveWord_updates h
  | movb d a =>
    simp only [exec_movb] at h
    exact class2_updates moveByte_updates h
  | ldci d a | ldcf d a =>
    simp only [exec_ldci, exec_ldcf] at h
    exact class2_updates loadConstWord_updates h
  | ldcb d a =>
    simp only [exec_ldcb] at h
    exact class2_updates loadConstByte_updates h
  | ldca d a =>
    simp only [exec_ldca] at h
    exact class2_updates loadConstAddr_updates h
  | pushi a | pushf a =>
    simp only [exec_pushi, exec_pushf] at h
    exact class1_updates pushWord_updates h
  | pushb a =>
    simp only [exec_pushb] at h
    exact class1_updates pushByte_updates h
  | popi a | popf a =>
    simp only [exec_popi, exec_popf] at h
    exact class1_updates popWord_updates h
  | popb a =>
    simp only [exec_popb] at h
    exact class1_updates popByte_updates h
  | dupi a | dupf a =>
    simp only [exec_dupi, exec_dupf] at h
    exact class1_updates dupWord_updates h
  | dupb a =>
    simp only [exec_dupb] at h
    exact class1_updates dupByte_updates h
  | ifi d a | iff d a | ifei d a | ifef d a =>
    simp only [exec_ifi, exec_iff, exec_ifei, exec_ifef] at h
    exact class2_updates compareWord_updates h
  | ifb d a | ifeb d a =>
    simp only [exec_ifb, exec_ifeb] at h
    exact class2_updates compareByte_updates h
  | printi a | printf a =>
    simp only [exec_printi, exec_printf] at h
    exact class1_updates printWord_updates h
  | printb a | printc a =>
    simp only [exec_printb, exec_printc] at h
    exact class1_updates printByte_updates h
  | addi d a | subi d a | muli d a | ori d a | andi d a | xori d a | szrli d a | srli d a | slli d a =>
    simp only [exec_addi, exec_subi, exec_muli, exec_ori, exec_andi, exec_xori,
      exec_szrli, exec_srli, exec_slli] at h
    exact class2_updates modifyWord_updates h
  | addb d a | subb d a | mulb d a | orb d a | andb d a | xorb d a | szrlb d a | srlb d a | sllb d a =>
    simp only [exec_addb, exec_subb, exec_mulb, exec_orb, exec_andb, exec_xorb,
      exec_szrlb, exec_srlb, exec_sllb] at h
    exact class2_updates modifyByte_updates h
  | addf d a | subf d a | mulf d a =>
    simp only [exec_addf, exec_subf, exec_mulf] at h
    exact class2_updates modifyFloat_updates h
  | divi d a | modi d a =>
    simp only [exec_divi, exec_modi] at h
    exact class2_updates divideWord_updates h
  | divb d a | modb d a =>
    simp only [exec_divb, exec_modb] at h
    exact class2_updates divideByte_updates h
  | divf d a | modf d a =>
    simp only [exec_divf, exec_modf] at h
    exact class2_updates divideFloat_updates h
  | noti d a =>
    simp only [exec_noti] at h
    exact class2_updates complementWord_updates h
  | notb d a =>
    simp only [exec_notb] at h
    exact class2_updates complementByte_updates h

/-- What one step can do: the instruction's updates after the fetch increment, a fault, or a halt past the
end of the program. -/
theorem step_cases {s t : State} (h : step s = .next t) :
    s.status = .running ∧
      (Updates s.postFetch t ∨ (∃ c, t = s.raise c) ∨
        (t = s.halt ∧ s.pc.msb = false ∧ s.prog.imem.length ≤ s.pc.toNat)) := by
  obtain ⟨hs, h | ⟨i, -, h⟩⟩ := step_next h
  · exact ⟨hs, .inr (fetchInstr_error h)⟩
  · exact ⟨hs, (exec_next h).imp_right .inl⟩

end Sys2Proof.Machine
end

section
/-! The invariant of the state: it holds at reset and every step keeps it. -/

namespace Sys2Proof.Machine

/-! ### Updates leave status, parameters and program alone -/

section
variable {s t : State}

theorem Updates.status_eq (h : Updates s t) : t.status = s.status := by
  induction h with
  | refl => rfl
  | setX _ _ _ ih | storeByte _ _ _ _ ih | storeWord _ _ _ _ ih | emit _ _ ih | draw _ _ ih => exact ih

theorem Updates.params_eq (h : Updates s t) : t.params = s.params := by
  induction h with
  | refl => rfl
  | setX _ _ _ ih | storeByte _ _ _ _ ih | storeWord _ _ _ _ ih | emit _ _ ih | draw _ _ ih => exact ih

theorem Updates.prog_eq (h : Updates s t) : t.prog = s.prog := by
  induction h with
  | refl => rfl
  | setX _ _ _ ih | storeByte _ _ _ _ ih | storeWord _ _ _ _ ih | emit _ _ ih | draw _ _ ih => exact ih

end

/-! ### Updates keep memory canonical and bounded -/

/-- Memory lists no address at or above `n`. -/
def Memory.below (m : Memory) (n : Nat) : Prop := ∀ c ∈ m, c.1 < n

theorem Memory.write_below {m : Memory} {n a : Nat} (v : Byte) (h : m.below n) (ha : a < n) :
    (m.write a v).below n := by
  intro c hc
  obtain hc | ⟨rfl, -⟩ := Memory.mem_write hc
  · exact h c hc
  · exact ha

theorem Memory.writeWord_below {m : Memory} {n a : Nat} (o : ByteOrder) (v : Word) (h : m.below n)
    (ha : a + 4 ≤ n) : (m.writeWord o a v).below n :=
  Memory.write_below _ (Memory.write_below _ (Memory.write_below _ (Memory.write_below _ h
    (by omega)) (by omega)) (by omega)) (by omega)

theorem Updates.mem_wf {s t : State} (h : Updates s t) (hs : s.mem.wf = true) : t.mem.wf = true := by
  induction h with
  | refl => exact hs
  | setX _ _ _ ih | emit _ _ ih | draw _ _ ih => exact ih
  | storeByte a v _ _ ih => exact Memory.write_wf _ _ v ih
  | storeWord a v _ _ ih => exact Memory.writeWord_wf _ _ _ v ih

theorem Updates.mem_below {s t : State} (h : Updates s t) (hs : s.mem.below s.params.memSize) :
    t.mem.below t.params.memSize := by
  induction h with
  | refl => exact hs
  | setX _ _ _ ih | emit _ _ ih | draw _ _ ih => exact ih
  | storeByte a v _ hr ih => exact Memory.write_below v ih (State.inRange_iff.1 hr)
  | storeWord a v _ hr ih => exact Memory.writeWord_below _ v ih (State.inRange_iff.1 hr)

/-! ### The three outcomes of a step keep the invariant -/

/-- In status Running the clauses about a fault and a halt ask nothing. -/
theorem State.inv_of_running {s : State} (hs : s.status = .running) (hc : s.mem.wf = true)
    (hb : s.mem.below s.params.memSize)
    (hz : 1 ≤ s.params.memSize ∧ s.params.memSize ≤ 2 ^ 31) : s.Inv where
  canonical := hc
  bounded := hb
  sized := hz
  faultAtPc c k h := by simp [hs] at h
  haltPastEnd h := by simp [hs] at h

theorem State.Inv.updates {s t : State} (hi : s.Inv) (hs : s.status = .running)
    (h : Updates s.postFetch t) : t.Inv :=
  State.inv_of_running (h.status_eq.trans hs) (h.mem_wf hi.canonical) (h.mem_below hi.bounded)
    (by rw [h.params_eq]; exact hi.sized)

theorem State.Inv.raise {s : State} (hi : s.Inv) (c : Cause) : (s.raise c).Inv where
  canonical := hi.canonical
  bounded := hi.bounded
  sized := hi.sized
  faultAtPc _ _ h := by
    cases h
    rfl
  haltPastEnd h := by cases h

/-- With bit 31 clear, `pc` past the end as an unsigned number is past it as a signed one. -/
theorem State.Inv.halt {s : State} (hi : s.Inv) (hm : s.pc.msb = false)
    (hl : s.prog.imem.length ≤ s.pc.toNat) : s.halt.Inv where
  canonical := hi.canonical
  bounded := hi.bounded
  sized := hi.sized
  faultAtPc _ _ h := by cases h
  haltPastEnd _ := by
    rw [State.pc, State.x_halt, BitVec.toInt_eq_toNat_of_msb hm]
    exact Int.ofNat_le.2 hl

/-- Settles O47, by the three outcomes of a step. -/
theorem stepKeepsInvariant : Obligations.StepKeepsInvariant := by
  intro s t hi h
  obtain ⟨hs, hu | ⟨c, rfl⟩ | ⟨rfl, hm, hl⟩⟩ := step_cases h
  · exact hi.updates hs hu
  · exact hi.raise c
  · exact hi.halt hm hl

/-- Settles O48: memory lists nothing and the status is Running. -/
theorem resetHasInvariant : Obligations.ResetHasInvariant :=
  State.inv_of_running rfl rfl (fun _ hc => by cases hc) (by decide)

end Sys2Proof.Machine
end

section
/-! The opcode table as a parameter: under a valid table an instruction's row is the one its number, its name
and its spelling find, and the word of the instruction gives the instruction back. -/

namespace Sys2Proof

/-! ### The encoder's fields, read back (30_encoding.md R98) -/

theorem bool_eq_of_toNat_eq {a b : Bool} (h : a.toNat = b.toNat) : a = b := by
  rw [← a.ofNat_toNat, h, b.ofNat_toNat]

section
variable (op : BitVec 6) (a : Bool) (r : BitVec 4) (g f : Bool) (v : BitVec 19)

@[simp] theorem decOpcode_encStd : decOpcode (encStd op a r g f v) = op := by
  apply BitVec.eq_of_toNat_eq
  have := r.isLt
  have := v.isLt
  have := op.isLt
  have := a.toNat_le
  have := g.toNat_le
  have := f.toNat_le
  rw [decOpcode_toNat, encStd_toNat]
  omega

@[simp] theorem decArg1Addr_encStd : decArg1Addr (encStd op a r g f v) = a := by
  apply bool_eq_of_toNat_eq
  have := r.isLt
  have := v.isLt
  have := a.toNat_le
  have := g.toNat_le
  have := f.toNat_le
  rw [decArg1Addr_toNat, encStd_toNat]
  omega

@[simp] theorem decArg1Value_encStd : decArg1Value (encStd op a r g f v) = r := by
  apply BitVec.eq_of_toNat_eq
  have := r.isLt
  have := v.isLt
  have := g.toNat_le
  have := f.toNat_le
  rw [decArg1Value_toNat, encStd_toNat]
  omega

@[simp] theorem decArg2Reg_encStd : decArg2Reg (encStd op a r g f v) = g := by
  apply bool_eq_of_toNat_eq
  have := v.isLt
  have := g.toNat_le
  have := f.toNat_le
  rw [decArg2Reg_toNat, encStd_toNat]
  omega

@[simp] theorem decArg2Addr_encStd : decArg2Addr (encStd op a r g f v) = f := by
  apply bool_eq_of_toNat_eq
  have := v.isLt
  have := f.toNat_le
  rw [decArg2Addr_toNat, encStd_toNat]
  omega

@[simp] theorem decArg2Value_encStd : decArg2Value (encStd op a r g f v) = v := by
  apply BitVec.eq_of_toNat_eq
  have := v.isLt
  rw [decArg2Value_toNat, encStd_toNat]
  omega

end

@[simp] theorem decOpcode_encJmp (op : BitVec 6) (t : BitVec 24) : decOpcode (encJmp op t) = op := by
  apply BitVec.eq_of_toNat_eq
  have := t.isLt
  have := op.isLt
  rw [decOpcode_toNat, encJmp_toNat]
  omega

@[simp] theorem decImm24_encJmp (op : BitVec 6) (t : BitVec 24) : decImm24 (encJmp op t) = t := by
  apply BitVec.eq_of_toNat_eq
  have := t.isLt
  rw [decImm24_toNat, encJmp_toNat]
  omega

/-! ### Operands, read back -/

/-- A descriptor is what its flag and number describe (R82). -/
@[simp] theorem mkArg1_flags (d : Arg1) : mkArg1 d.addrFlag d.value = d := by
  cases d <;> rfl

/-- A descriptor is what its flags and value describe (R84). -/
@[simp] theorem mkArg2_flags (a : Arg2) : mkArg2 a.regFlag a.addrFlag a.value = a := by
  cases a <;> rfl

@[simp] theorem decOpcode_encOperands (n : BitVec 6) (o : Operands) :
    decOpcode (encOperands n o) = n := by
  cases o with
  | none | one a | two d a => exact decOpcode_encStd ..
  | jump t => exact decOpcode_encJmp ..

@[simp] theorem decOperands_encOperands (n : BitVec 6) (o : Operands) :
    decOperands o.cls (encOperands n o) = o := by
  cases o with
  | none => rfl
  | one a => simp [Operands.cls, decOperands, encOperands, decArg2]
  | two d a => simp [Operands.cls, decOperands, encOperands, decArg1, decArg2]
  | jump t => simp [Operands.cls, decOperands, encOperands]

/-- An instruction has operands of the class its meaning takes (R101). -/
theorem Instr.operands_cls (i : Instr) : i.operands.cls = i.op.cls := by
  have h := instrOf_isSome i.op i.operands
  rw [(instrOf_eq_some _ _ _).2 ⟨rfl, rfl⟩] at h
  exact eq_of_beq h.symm

/-- The decoder inverts the encoder's layouts under a row that stands for the instruction. -/
theorem decodeRow_encOperands {m : OpcodeMap} {row : OpcodeRow} {i : Instr}
    (hat : m.rowAt row.number = some row) (hop : row.op = i.op) (hcls : row.cls = i.op.cls) :
    decodeRow m (encOperands row.number i.operands) = some (row, i) := by
  have hi : instrOf row.op (decOperands row.cls (encOperands row.number i.operands)) = some i := by
    rw [hcls, ← i.operands_cls, decOperands_encOperands]
    exact (instrOf_eq_some _ _ _).2 ⟨hop.symm, rfl⟩
  simp [decodeRow, hat, hi]

theorem decode_of_decodeRow {m : OpcodeMap} {w : Word} {row : OpcodeRow} {i : Instr}
    (h : decodeRow m w = some (row, i)) : decode m w = .ok i := by
  simp [decode, h]

/-! ### The rows of a valid table -/

/-- A search finds the one row that passes. -/
theorem OpcodeMap.find?_eq_of_unique {m : OpcodeMap} {row : OpcodeRow} {p : OpcodeRow → Bool}
    (hr : row ∈ m) (hp : p row = true) (hu : ∀ q ∈ m, p q = true → q = row) :
    m.find? p = some row := by
  cases h : m.find? p with
  | none => exact absurd hp (List.find?_eq_none.1 h row hr)
  | some q => rw [hu q (List.mem_of_find?_eq_some h) (List.find?_some h)]

theorem OpcodeMap.valid_iff (m : OpcodeMap) : m.valid = true ↔
    (m.map OpcodeRow.number).Nodup ∧ (m.map OpcodeRow.op).Nodup ∧
      (m.map (fun row => row.name.map Char.toUpper)).Nodup ∧ ∀ row ∈ m, row.cls = row.op.cls := by
  simp [OpcodeMap.valid, OpcodeMap.injective, OpcodeMap.spellingsDistinct, OpcodeMap.classesAgree,
    and_assoc]

/-- The spec's table of R100 can stand as OPCODE_MAP. -/
theorem OpcodeMap.standard_valid : OpcodeMap.standard.valid = true := by
  decide

section
variable {m : OpcodeMap} {row : OpcodeRow}

theorem OpcodeMap.rowAt_number (hn : (m.map OpcodeRow.number).Nodup) (hr : row ∈ m) :
    m.rowAt row.number = some row :=
  find?_eq_of_unique hr (beq_self_eq_true _)
    fun _ hq he => List.inj_on_of_nodup_map hn hq hr (eq_of_beq he)

theorem OpcodeMap.rowOf_op (ho : (m.map OpcodeRow.op).Nodup) (hr : row ∈ m) :
    m.rowOf row.op = some row :=
  find?_eq_of_unique hr (beq_self_eq_true _)
    fun _ hq he => List.inj_on_of_nodup_map ho hq hr (eq_of_beq he)

/-- A row is found by its spelling, letters of either case (R121). -/
theorem OpcodeMap.lookup_spelling (hs : (m.map (fun row => row.name.map Char.toUpper)).Nodup)
    (hr : row ∈ m) {t : List Char} (ht : Machine.sameText t row.name = true) :
    Machine.OpcodeMap.lookup m t = some row :=
  find?_eq_of_unique hr ht fun _ hq he =>
    List.inj_on_of_nodup_map hs hq hr ((eq_of_beq he).symm.trans (eq_of_beq ht))

theorem OpcodeMap.opAt_number (hat : m.rowAt row.number = some row) (hcls : row.cls = row.op.cls) :
    m.opAt row.number = some row.op := by
  simp [OpcodeMap.opAt, hat, hcls]

theorem encode_of_rowOf {i : Instr} (hof : m.rowOf i.op = some row) (hcls : row.cls = i.op.cls) :
    encode m i = some (encOperands row.number i.operands) := by
  simp [encode, hof, i.operands_cls, hcls]

end

theorem Machine.disasm_of_decodeRow {m : OpcodeMap} {w : Word} {row : OpcodeRow} {i : Instr}
    (names : RegNames) (h : decodeRow m w = some (row, i)) :
    disasm m names w = showLine names row.name i.operands := by
  simp [disasm, h]

/-- Settles O4: each search of a valid table finds the instruction's own row. -/
theorem opcodeMapIsAParameter : Obligations.OpcodeMapIsAParameter := by
  intro m names row i hv hr hop
  obtain ⟨hnum, hops, hnames, hclasses⟩ := m.valid_iff.1 hv
  have hat : m.rowAt row.number = some row := OpcodeMap.rowAt_number hnum hr
  have hof : m.rowOf i.op = some row := hop ▸ OpcodeMap.rowOf_op hops hr
  have hcls : row.cls = i.op.cls := hop ▸ hclasses row hr
  have hdec := decodeRow_encOperands hat hop hcls
  exact ⟨hop ▸ OpcodeMap.opAt_number hat (hclasses row hr),
    fun t ht => OpcodeMap.lookup_spelling hnames hr ht,
    _, encode_of_rowOf hof hcls, decOpcode_encOperands .., decode_of_decodeRow hdec,
    Machine.disasm_of_decodeRow names hdec⟩

end Sys2Proof
end

section
/-! The reset state as a launch. -/

namespace Sys2Proof.Machine

/-- The artifact of the empty program. -/
def Artifact.empty : Artifact := { words := [], entry := 0, len := 0, nums := [], strs := [] }

/-- Reset for the empty artifact leaves memory, program and table empty, and `sp` at the last byte. -/
theorem resetWith_empty : resetWith Params.default Artifact.empty = State.reset := rfl

/-- Settles O58: the default parameters and the empty artifact meet every requirement of R331. -/
theorem resetIsTheEmptyLaunch : Obligations.ResetIsTheEmptyLaunch := by
  show launch Params.default Artifact.empty = .ok State.reset
  rw [← resetWith_empty]
  simp [launch, OpcodeMap.standard_valid, Params.default, Artifact.empty, Artifact.heapStart]

end Sys2Proof.Machine
end

section
/-! A register in the byte lane: what is written is read back (10_state.md R28, R29). -/

namespace Sys2Proof.Machine

/-- The low byte of a sign-extended byte is the byte. -/
theorem extractLsb'_signExtend_byte (b : Byte) : (b.signExtend 32).extractLsb' 0 8 = b := by
  ext j hj
  have hw : j < 32 := by omega
  rw [BitVec.getElem_extractLsb', Nat.zero_add, BitVec.getLsbD_signExtend]
  simp [hj, hw]

/-- Settles O19, by the rules of register writes. -/
theorem laneWritesOfRegisters : Obligations.LaneWritesOfRegisters := by
  intro s i v b
  have hread : (s.setXByte i b).xByte i = b := by
    rw [State.xByte, State.setXByte_eq, State.x_setX_self, extractLsb'_signExtend_byte]
  exact ⟨s.x_setX_self i v, fun j hj => s.x_setX_ne i j v hj, rfl, rfl, hread, rfl⟩

end Sys2Proof.Machine
end

section
/-! The two logs of the state, the output stream and the counter of draws: no operation but a print or a
drawn NaN looks at them, so an instruction does the same under any change of the logs. -/

namespace Sys2Proof.Machine

/-! ### A change of the logs -/

/-- The state with its output stream and its counter of draws changed by two functions. -/
def State.mapLogs (f : List OutEvent → List OutEvent) (g : Nat → Nat) (s : State) : State :=
  { s with out := f s.out, draws := g s.draws }

section
variable (f : List OutEvent → List OutEvent) (g : Nat → Nat) (s : State)

@[simp] theorem State.mapLogs_out : (s.mapLogs f g).out = f s.out := rfl
@[simp] theorem State.mapLogs_draws : (s.mapLogs f g).draws = g s.draws := rfl
@[simp] theorem State.mapLogs_params : (s.mapLogs f g).params = s.params := rfl
@[simp] theorem State.x_mapLogs (i : RegIdx) : (s.mapLogs f g).x i = s.x i := rfl
@[simp] theorem State.fetchedWord_mapLogs : (s.mapLogs f g).fetchedWord = s.fetchedWord := rfl
@[simp] theorem State.postFetch_mapLogs :
    (s.mapLogs f g).postFetch = s.postFetch.mapLogs f g := rfl
@[simp] theorem State.raise_mapLogs (c : Cause) :
    (s.mapLogs f g).raise c = (s.raise c).mapLogs f g := rfl
@[simp] theorem State.setX_mapLogs (i : RegIdx) (v : Word) :
    (s.mapLogs f g).setX i v = (s.setX i v).mapLogs f g := rfl

/-! ### Reads do not see the logs -/

@[simp] theorem State.memReadWord_mapLogs (a : Word) :
    (s.mapLogs f g).memReadWord a = s.memReadWord a := rfl
@[simp] theorem State.memReadByte_mapLogs (a : Word) :
    (s.mapLogs f g).memReadByte a = s.memReadByte a := rfl
@[simp] theorem State.constAddr_mapLogs (k : BitVec 19) :
    (s.mapLogs f g).constAddr k = s.constAddr k := rfl
@[simp] theorem srcWord_mapLogs (lane : WordLane) (S : Src) :
    srcWord (s.mapLogs f g) lane S = srcWord s lane S := by cases S <;> rfl
@[simp] theorem srcByte_mapLogs (S : Src) : srcByte (s.mapLogs f g) S = srcByte s S := by
  cases S <;> rfl
@[simp] theorem dstReadWord_mapLogs (D : Dst) :
    dstReadWord (s.mapLogs f g) D = dstReadWord s D := by cases D <;> rfl
@[simp] theorem dstReadByte_mapLogs (D : Dst) :
    dstReadByte (s.mapLogs f g) D = dstReadByte s D := by cases D <;> rfl

/-! ### Writes carry the logs along -/

@[simp] theorem State.memWriteWord_mapLogs (a v : Word) :
    (s.mapLogs f g).memWriteWord a v = State.mapLogs f g <$> s.memWriteWord a v := by
  simp only [State.memWriteWord, apply_ite (State.mapLogs f g <$> ·)]
  rfl

@[simp] theorem State.memWriteByte_mapLogs (a : Word) (v : Byte) :
    (s.mapLogs f g).memWriteByte a v = State.mapLogs f g <$> s.memWriteByte a v := by
  simp only [State.memWriteByte, apply_ite (State.mapLogs f g <$> ·)]
  rfl

@[simp] theorem dstWriteWord_mapLogs (D : Dst) (v : Word) :
    dstWriteWord (s.mapLogs f g) D v = State.mapLogs f g <$> dstWriteWord s D v := by
  cases D with
  | reg r => rfl
  | ind r => exact s.memWriteWord_mapLogs f g (s.x r) v

@[simp] theorem dstWriteByte_mapLogs (D : Dst) (v : Byte) :
    dstWriteByte (s.mapLogs f g) D v = State.mapLogs f g <$> dstWriteByte s D v := by
  cases D with
  | reg r => rfl
  | ind r => exact s.memWriteByte_mapLogs f g (s.x r) v

@[simp] theorem implicitWriteWord_mapLogs (S : Src) (v : Word) :
    implicitWriteWord (s.mapLogs f g) S v = State.mapLogs f g <$> implicitWriteWord s S v := by
  unfold implicitWriteWord
  cases S.implicitDst with
  | none => rfl
  | some D => exact dstWriteWord_mapLogs f g s D v

@[simp] theorem implicitWriteByte_mapLogs (S : Src) (v : Byte) :
    implicitWriteByte (s.mapLogs f g) S v = State.mapLogs f g <$> implicitWriteByte s S v := by
  unfold implicitWriteByte
  cases S.implicitDst with
  | none => rfl
  | some D => exact dstWriteByte_mapLogs f g s D v

@[simp] theorem skipUnless_mapLogs (b : Bool) :
    skipUnless (s.mapLogs f g) b = (skipUnless s b).mapLogs f g := by
  cases b <;> rfl

/-! ### The bodies that neither print nor draw -/

@[simp] theorem modifyWord_mapLogs (h : Word → Word → Word) (D : Dst) (S : Src) :
    modifyWord h (s.mapLogs f g) D S = State.mapLogs f g <$> modifyWord h s D S := by
  simp [modifyWord]

@[simp] theorem modifyByte_mapLogs (h : Byte → Byte → Byte) (D : Dst) (S : Src) :
    modifyByte h (s.mapLogs f g) D S = State.mapLogs f g <$> modifyByte h s D S := by
  simp [modifyByte]

@[simp] theorem divideWord_mapLogs (h : Word → Word → Word) (D : Dst) (S : Src) :
    divideWord h (s.mapLogs f g) D S = State.mapLogs f g <$> divideWord h s D S := by
  simp [divideWord]

@[simp] theorem divideByte_mapLogs (h : Byte → Byte → Byte) (D : Dst) (S : Src) :
    divideByte h (s.mapLogs f g) D S = State.mapLogs f g <$> divideByte h s D S := by
  simp [divideByte]

@[simp] theorem complementWord_mapLogs (D : Dst) (S : Src) :
    complementWord (s.mapLogs f g) D S = State.mapLogs f g <$> complementWord s D S := by
  simp [complementWord]

@[simp] theorem complementByte_mapLogs (D : Dst) (S : Src) :
    complementByte (s.mapLogs f g) D S = State.mapLogs f g <$> complementByte s D S := by
  simp [complementByte]

@[simp] theorem compareWord_mapLogs (lane : WordLane) (h : Word → Word → Bool) (D : Dst) (S : Src) :
    compareWord lane h (s.mapLogs f g) D S = State.mapLogs f g <$> compareWord lane h s D S := by
  simp [compareWord]

@[simp] theorem compareByte_mapLogs (h : Byte → Byte → Bool) (D : Dst) (S : Src) :
    compareByte h (s.mapLogs f g) D S = State.mapLogs f g <$> compareByte h s D S := by
  simp [compareByte]

@[simp] theorem moveWord_mapLogs (lane : WordLane) (D : Dst) (S : Src) :
    moveWord lane (s.mapLogs f g) D S = State.mapLogs f g <$> moveWord lane s D S := by
  simp [moveWord]

@[simp] theorem moveByte_mapLogs (D : Dst) (S : Src) :
    moveByte (s.mapLogs f g) D S = State.mapLogs f g <$> moveByte s D S := by
  simp [moveByte]

@[simp] theorem loadConstWord_mapLogs (w : Word) (lane : WordLane) (D : Dst) (S : Src) :
    loadConstWord w lane (s.mapLogs f g) D S = State.mapLogs f g <$> loadConstWord w lane s D S := by
  simp [loadConstWord]

@[simp] theorem loadConstByte_mapLogs (w : Word) (D : Dst) (S : Src) :
    loadConstByte w (s.mapLogs f g) D S = State.mapLogs f g <$> loadConstByte w s D S := by
  simp [loadConstByte]

@[simp] theorem loadConstAddr_mapLogs (w : Word) (D : Dst) (S : Src) :
    loadConstAddr w (s.mapLogs f g) D S = State.mapLogs f g <$> loadConstAddr w s D S := by
  simp [loadConstAddr]

@[simp] theorem pushWord_mapLogs (lane : WordLane) (S : Src) :
    pushWord lane (s.mapLogs f g) S = State.mapLogs f g <$> pushWord lane s S := by
  simp [pushWord]

@[simp] theorem pushByte_mapLogs (S : Src) :
    pushByte (s.mapLogs f g) S = State.mapLogs f g <$> pushByte s S := by
  simp [pushByte]

@[simp] theorem popWord_mapLogs (lane : WordLane) (S : Src) :
    popWord lane (s.mapLogs f g) S = State.mapLogs f g <$> popWord lane s S := by
  simp [popWord]

@[simp] theorem popByte_mapLogs (S : Src) :
    popByte (s.mapLogs f g) S = State.mapLogs f g <$> popByte s S := by
  simp [popByte]

@[simp] theorem dupWord_mapLogs (lane : WordLane) (S : Src) :
    dupWord lane (s.mapLogs f g) S = State.mapLogs f g <$> dupWord lane s S := by
  simp [dupWord]

@[simp] theorem dupByte_mapLogs (S : Src) :
    dupByte (s.mapLogs f g) S = State.mapLogs f g <$> dupByte s S := by
  simp [dupByte]

end

/-! ### The bodies that print or draw, under a change of the logs they respect -/

section
variable {f : List OutEvent → List OutEvent} {g : Nat → Nat} (s : State)

/-- Emitting respects a change of the stream that respects appending to it. -/
theorem State.emit_mapLogs (hf : ∀ e, f (s.out ++ [e]) = f s.out ++ [e]) (e : OutEvent) :
    (s.mapLogs f g).emit e = (s.emit e).mapLogs f g := by
  simp [State.emit, State.mapLogs, hf]

theorem printWord_mapLogs (hf : ∀ e, f (s.out ++ [e]) = f s.out ++ [e]) (lane : WordLane)
    (event : Word → OutEvent) (S : Src) :
    printWord lane event (s.mapLogs f g) S = State.mapLogs f g <$> printWord lane event s S := by
  simp [printWord, s.emit_mapLogs hf]

theorem printByte_mapLogs (hf : ∀ e, f (s.out ++ [e]) = f s.out ++ [e]) (event : Byte → OutEvent)
    (S : Src) :
    printByte event (s.mapLogs f g) S = State.mapLogs f g <$> printByte event s S := by
  simp [printByte, s.emit_mapLogs hf]

/-- The canonical NaN ignores the counter, and a drawn one respects a change that keeps it. -/
theorem floatResult_mapLogs (hg : s.params.nanResult = .canonical ∨ g = id) (r : Option Word) :
    floatResult (s.mapLogs f g) r =
      ((floatResult s r).1, (floatResult s r).2.mapLogs f g) := by
  cases r with
  | some v => rfl
  | none =>
    simp only [floatResult]
    cases hn : s.params.nanResult with
    | canonical => rw [s.drawNan_canonical hn, (s.mapLogs f g).drawNan_canonical hn]
    | any =>
      obtain rfl : g = id := hg.resolve_left (by simp [hn])
      rw [s.drawNan_any hn, (s.mapLogs f id).drawNan_any hn]
      rfl

theorem modifyFloat_mapLogs (hg : s.params.nanResult = .canonical ∨ g = id)
    (h : Word → Word → Option Word) (D : Dst) (S : Src) :
    modifyFloat h (s.mapLogs f g) D S = State.mapLogs f g <$> modifyFloat h s D S := by
  simp [modifyFloat, floatResult_mapLogs s hg]

theorem divideFloat_mapLogs (hg : s.params.nanResult = .canonical ∨ g = id)
    (h : Word → Word → Option Word) (D : Dst) (S : Src) :
    divideFloat h (s.mapLogs f g) D S = State.mapLogs f g <$> divideFloat h s D S := by
  simp [divideFloat, floatResult_mapLogs s hg]

end

/-! ### Every instruction -/

section
variable {f : List OutEvent → List OutEvent} {g : Nat → Nat} {s t : State}

/-- A transaction carries the logs along when its body does: a fault keeps them as they were. -/
theorem transact_mapLogs {body : State → Except Cause State}
    (hb : body (s.postFetch.mapLogs f g) = State.mapLogs f g <$> body s.postFetch)
    (h : transact s body = .next t) : transact (s.mapLogs f g) body = .next (t.mapLogs f g) := by
  rw [transact_next, State.postFetch_mapLogs, hb]
  obtain hu | ⟨c, hu, rfl⟩ := transact_next.1 h
  · exact .inl (by rw [hu]; rfl)
  · exact .inr ⟨c, by rw [hu]; rfl, rfl⟩

theorem class1_mapLogs {a : Arg2} {body : State → Src → Except Cause State}
    (hb : ∀ S, body (s.postFetch.mapLogs f g) S = State.mapLogs f g <$> body s.postFetch S)
    (h : class1 s a body = .next t) : class1 (s.mapLogs f g) a body = .next (t.mapLogs f g) :=
  transact_mapLogs (by simp only [hb, map_bind]) h

theorem class2_mapLogs {d : Arg1} {a : Arg2} {body : State → Dst → Src → Except Cause State}
    (hb : ∀ D S, body (s.postFetch.mapLogs f g) D S = State.mapLogs f g <$> body s.postFetch D S)
    (h : class2 s d a body = .next t) : class2 (s.mapLogs f g) d a body = .next (t.mapLogs f g) :=
  transact_mapLogs (by simp only [hb, map_bind]) h

/-- An instruction does the same under a change of the logs, if that change respects appending to the
stream where the instruction prints, and keeps the counter where it may draw a NaN. -/
theorem exec_mapLogs {i : Instr}
    (hf : isPrint i = true → ∀ e, f (s.out ++ [e]) = f s.out ++ [e])
    (hg : isFloatArith i = true → s.params.nanResult = .canonical ∨ g = id)
    (h : exec i s = .next t) : exec i (s.mapLogs f g) = .next (t.mapLogs f g) := by
  cases i with
  | noop | jmp _ | call _ | ret =>
    simp only [exec_noop, exec_jmp, exec_call, exec_ret] at h ⊢
    exact transact_mapLogs rfl h
  | printi _ | printf _ => exact class1_mapLogs (printWord_mapLogs s.postFetch (hf rfl) _ _) h
  | printb _ | printc _ => exact class1_mapLogs (printByte_mapLogs s.postFetch (hf rfl) _) h
  | addf _ _ | subf _ _ | mulf _ _ => exact class2_mapLogs (modifyFloat_mapLogs s.postFetch (hg rfl) _) h
  | divf _ _ | modf _ _ => exact class2_mapLogs (divideFloat_mapLogs s.postFetch (hg rfl) _) h
  | pushi _ | pushf _ | pushb _ | popi _ | popf _ | popb _ | dupi _ | dupf _ | dupb _ =>
    exact class1_mapLogs (by simp) h
  | _ => exact class2_mapLogs (by simp) h

/-! ### What an instruction and a step do to the logs -/

/-- The stream with the events `p` it begins with replaced by `o`. -/
def replaceStart (p o l : List OutEvent) : List OutEvent := o ++ l.drop p.length

@[simp] theorem replaceStart_append (p o l : List OutEvent) :
    replaceStart p o (p ++ l) = o ++ l := by
  simp [replaceStart]

@[simp] theorem replaceStart_self (p o : List OutEvent) : replaceStart p o p = o := by
  simp [replaceStart]

/-- An instruction that is no print leaves the output stream. -/
theorem exec_out_eq {i : Instr} (hi : isPrint i = false) (h : exec i s = .next t) :
    t.out = s.out := by
  have hsame : Host.Outcome.next t = .next (t.mapLogs (fun _ => s.out) id) :=
    h.symm.trans (exec_mapLogs (f := fun _ => s.out) (g := id) (by simp [hi]) (fun _ => .inr rfl) h)
  injection hsame with hsame
  rw [hsame, State.mapLogs_out]

/-- An instruction that draws no NaN leaves the counter of draws. -/
theorem exec_draws_eq {i : Instr} (hi : isFloatArith i = false ∨ s.params.nanResult = .canonical)
    (h : exec i s = .next t) : t.draws = s.draws := by
  have hsame : Host.Outcome.next t = .next (t.mapLogs id fun _ => s.draws) :=
    h.symm.trans (exec_mapLogs (f := id) (g := fun _ => s.draws) (fun _ _ => rfl)
      (fun hfl => .inl (hi.resolve_left (by simp [hfl]))) h)
  injection hsame with hsame
  rw [hsame, State.mapLogs_draws]

/-- A print appends one event, unless it faults. -/
theorem exec_print_out {i : Instr} (hi : isPrint i = true) (h : exec i s = .next t) :
    t.out = s.out ∨ ∃ e, t.out = s.out ++ [e] := by
  cases i with
  | printi _ | printf _ =>
    obtain ⟨S, -, hb⟩ | ⟨c, rfl⟩ := class1_next h
    · obtain ⟨v, -, rfl⟩ := printWord_ok.1 hb
      exact .inr ⟨_, rfl⟩
    · exact .inl rfl
  | printb _ | printc _ =>
    obtain ⟨S, -, hb⟩ | ⟨c, rfl⟩ := class1_next h
    · obtain ⟨v, -, rfl⟩ := printByte_ok.1 hb
      exact .inr ⟨_, rfl⟩
    · exact .inl rfl
  | _ => exact absurd hi Bool.false_ne_true

/-- An instruction leaves the output stream, or is a print and appends one event. -/
theorem exec_out {i : Instr} (h : exec i s = .next t) :
    t.out = s.out ∨ isPrint i = true ∧ ∃ e, t.out = s.out ++ [e] := by
  cases hi : isPrint i with
  | false => exact .inl (exec_out_eq hi h)
  | true => exact (exec_print_out hi h).imp_right fun he => ⟨rfl, he⟩

/-- Started on another stream, an instruction does the same and appends the same. -/
theorem exec_withOut {i : Instr} (o : List OutEvent) (h : exec i s = .next t) :
    ∃ l, t.out = s.out ++ l ∧ exec i { s with out := o } = .next { t with out := o ++ l } := by
  obtain ⟨l, hl⟩ : ∃ l, t.out = s.out ++ l := by
    obtain hl | ⟨-, e, hl⟩ := exec_out h
    · exact ⟨[], by rw [hl, List.append_nil]⟩
    · exact ⟨[e], hl⟩
  have hrun : exec i (s.mapLogs (replaceStart s.out o) id) =
      .next (t.mapLogs (replaceStart s.out o) id) :=
    exec_mapLogs (fun _ e => by simp) (fun _ => .inr rfl) h
  simp only [State.mapLogs, hl, replaceStart_append, replaceStart_self, id] at hrun
  exact ⟨l, hl, hrun⟩

/-- A fetched instruction is what the word at `pc` decodes to. -/
theorem fetchInstr_ok {i : Instr} (h : s.fetchInstr = .ok i) :
    ∃ w, s.prog.imem[s.pc.toNat]? = some w ∧ decode s.params.opcodes w = .ok i := by
  unfold State.fetchInstr at h
  split at h
  · cases h
  · split at h
    · cases h
    · next w hw =>
      split at h
      · cases h
      · next j hj =>
        cases h
        exact ⟨w, hw, hj⟩

/-- A step leaves the output stream, or has fetched a print and appends one event. -/
theorem step_out (h : step s = .next t) :
    t.out = s.out ∨
      ∃ e i w, t.out = s.out ++ [e] ∧ s.prog.imem[s.pc.toNat]? = some w ∧
        decode s.params.opcodes w = .ok i ∧ isPrint i = true := by
  obtain ⟨-, h | ⟨i, hi, h⟩⟩ := step_next h
  · obtain ⟨c, rfl⟩ | ⟨rfl, -, -⟩ := fetchInstr_error h
    · exact .inl rfl
    · exact .inl rfl
  · obtain ⟨w, hw, hd⟩ := fetchInstr_ok hi
    exact (exec_out h).imp_right fun ⟨hp, e, he⟩ => ⟨e, i, w, he, hw, hd, hp⟩

end

/-- Settles O51, by what a step does to the stream and by running an instruction under another one. -/
theorem outputStreamIsAppendOnlyAndUnread : Obligations.OutputStreamIsAppendOnlyAndUnread :=
  ⟨rfl, fun _ _ h => step_out h, fun _ _ _ o h => exec_withOut o h⟩

/-- Settles O55: no update writes `status`, and the draws and prints are framed by `exec_mapLogs`. -/
theorem instructionsLeaveTheRest : Obligations.InstructionsLeaveTheRest := by
  intro i s t h
  exact ⟨fun hi => exec_out_eq hi h, fun hi => exec_draws_eq hi h,
    (exec_next h).imp_left fun hu => hu.status_eq⟩

end Sys2Proof.Machine
end

section
/-! Data memory as the datapath reads and stores it: each access in range answers, and each other one is the
fault of R307 (20_memory.md R51 to R53). -/

namespace Sys2Proof.Machine

/-- A byte is read at its address when the address is in memory (R51, R52). -/
theorem State.memReadByte_eq (s : State) (a : Word) :
    s.memReadByte a = if a.toNat + 1 ≤ s.params.memSize then .ok (s.mem.read a.toNat)
      else .error (.memoryAccessOutOfRange a) := by
  simp only [State.memReadByte, State.inRange_iff]

/-- A word is read at its address when its four bytes are in memory (R51, R52). -/
theorem State.memReadWord_eq (s : State) (a : Word) :
    s.memReadWord a = if a.toNat + 4 ≤ s.params.memSize then
        .ok (s.mem.readWord s.params.byteOrder a.toNat)
      else .error (.memoryAccessOutOfRange a) := by
  simp only [State.memReadWord, State.inRange_iff]

/-- Settles O18: both reads check the range, and the byte order is the one `Memory.readWord` joins by. -/
theorem readsJoinTheirBytes : Obligations.ReadsJoinTheirBytes :=
  fun s a => ⟨s.memReadByte_eq a, s.memReadWord_eq a⟩

/-! ### What a store leaves in memory -/

/-- An access that does not fit is not in range (R51). -/
theorem State.inRange_eq_false {s : State} {a : Word} {n : Nat} (h : s.params.memSize < a.toNat + n) :
    s.inRange a n = false := by
  simpa [State.inRange] using h

section
variable {m : Memory} (a : Nat) (h : m.wf = true)
include h

/-- A byte store is read back at its address and leaves every other byte. -/
theorem Memory.read_write_of_wf (b : Nat) (v : Byte) :
    (m.write a v).read b = if b = a then v else m.read b :=
  Memory.read_write m a b v ((Memory.wf_iff m).1 h).1

/-- Each of the four bytes of a stored word lies at its offset from the address (R53). -/
theorem Memory.read_writeWord_offset (o : ByteOrder) (v : Word) {i : Nat} (hi : i < 4) :
    (m.writeWord o a v).read (a + i) = wordByte o v i := by
  rw [Memory.read_writeWord o m a (a + i) v h, if_pos (by omega), Nat.add_sub_cancel_left]

/-- A word store leaves every byte below its address and from four bytes above it on (R53). -/
theorem Memory.read_writeWord_outside (o : ByteOrder) (v : Word) {b : Nat} (hb : b < a ∨ a + 4 ≤ b) :
    (m.writeWord o a v).read b = m.read b := by
  rw [Memory.read_writeWord o m a b v h, if_neg (by omega)]

end

/-- Settles O17, by the laws of memory: reading after a write, and the canonical form kept. -/
theorem storesWriteTheirBytesAlone : Obligations.StoresWriteTheirBytesAlone := by
  refine ⟨fun s a v hs => ⟨fun hr => ?_, fun hr => ?_⟩, fun s a v hs => ⟨fun hr => ?_, fun hr => ?_⟩⟩
  · exact State.memWriteWord_error.2 ⟨State.inRange_eq_false hr, rfl⟩
  · have hbyte : ∀ i, i < 4 → (s.mem.writeWord s.params.byteOrder a.toNat v).read (a.toNat + i) =
        wordByte s.params.byteOrder v i :=
      fun i hi => Memory.read_writeWord_offset _ hs _ v hi
    refine ⟨s.mem.writeWord s.params.byteOrder a.toNat v,
      State.memWriteWord_ok.2 ⟨State.inRange_iff.2 hr, rfl⟩, Memory.writeWord_wf _ _ _ v hs,
      State.memReadWord_ok.2 ⟨State.inRange_iff.2 hr, (Memory.readWord_writeWord _ _ _ v hs).symm⟩,
      fun ho => ?_, fun ho => ?_, fun b hb => Memory.read_writeWord_outside _ hs _ v hb⟩
    all_goals
      simp only [ho] at hbyte ⊢
      exact ⟨hbyte 0 (by decide), hbyte 1 (by decide), hbyte 2 (by decide), hbyte 3 (by decide)⟩
  · exact State.memWriteByte_error.2 ⟨State.inRange_eq_false hr, rfl⟩
  · refine ⟨s.mem.write a.toNat v, State.memWriteByte_ok.2 ⟨State.inRange_iff.2 hr, rfl⟩,
      Memory.write_wf _ _ v hs, ?_, fun b hb => ?_⟩
    · rw [Memory.read_write_of_wf _ hs, if_pos rfl]
    · rw [Memory.read_write_of_wf _ hs, if_neg hb]

end Sys2Proof.Machine
end

section
/-! The program and the parameters along a step, and the fetch as a function of them and `pc` alone. -/

namespace Sys2Proof.Machine

/-- A fetch gives an instruction exactly when `pc` has bit 31 clear and names a word that decodes to it
(40_operands.md R140). -/
theorem fetchInstr_ok_iff {s : State} {i : Instr} :
    s.fetchInstr = .ok i ↔
      s.pc.msb = false ∧ ∃ w, s.prog.imem[s.pc.toNat]? = some w ∧ decode s.params.opcodes w = .ok i := by
  refine ⟨fun h => ⟨?_, fetchInstr_ok h⟩, ?_⟩
  · cases hm : s.pc.msb with
    | false => rfl
    | true => simp [State.fetchInstr, hm] at h
  · rintro ⟨hm, w, hw, hi⟩
    simp only [State.fetchInstr, hm, hw, hi]
    rfl

/-- Settles O50, by the three outcomes of a step and by what a fetch reads. -/
theorem stepKeepsProgramAndParameters : Obligations.StepKeepsProgramAndParameters := by
  refine ⟨fun s t h => ?_, fun s m i h => fetchInstr_ok_iff.2 ((fetchInstr_ok_iff (s := s)).1 h)⟩
  obtain ⟨-, hu | ⟨c, rfl⟩ | ⟨rfl, -, -⟩⟩ := step_cases h
  · exact ⟨hu.prog_eq, hu.params_eq⟩
  · exact ⟨rfl, rfl⟩
  · exact ⟨rfl, rfl⟩

end Sys2Proof.Machine
end

section
/-! The bytes an instruction may store (20_memory.md R53, 40_operands.md R149, R150, 42_stack.md): each body
stores at its destination, and at the slot of the stack it pushes to, and nowhere else. -/

namespace Sys2Proof.Machine

/-- Every byte of memory outside the addresses `A` is the same in `t` as in `u`. -/
def KeepsOutside (A : List Nat) (u t : State) : Prop := ∀ a, a ∉ A → t.mem.read a = u.mem.read a

theorem KeepsOutside.of_mem_eq {A : List Nat} {u t : State} (h : t.mem = u.mem) : KeepsOutside A u t :=
  fun _ _ => by rw [h]

theorem KeepsOutside.trans {A B : List Nat} {u v t : State} (h₁ : KeepsOutside A u v)
    (h₂ : KeepsOutside B v t) : KeepsOutside (A ++ B) u t := fun a ha => by
  rw [List.mem_append, not_or] at ha
  rw [h₂ a ha.2, h₁ a ha.1]

/-! ### Stores at an address, at a destination, and at the implicit destination -/

theorem KeepsOutside.writeWord {u t : State} {o : ByteOrder} {a : Nat} {v : Word} (hu : u.mem.wf = true)
    (ht : t.mem = u.mem.writeWord o a v) : KeepsOutside (List.range' a 4) u t := fun b hb => by
  rw [List.mem_range'_1] at hb
  rw [ht, Memory.read_writeWord o u.mem a b v hu, if_neg hb]

theorem KeepsOutside.writeByte {u t : State} {a : Nat} {v : Byte} (hu : u.mem.wf = true)
    (ht : t.mem = u.mem.write a v) : KeepsOutside (List.range' a 1) u t := fun b hb => by
  rw [List.mem_range'_1] at hb
  rw [ht, Memory.read_write_of_wf a hu b v, if_neg (by omega)]

theorem storedWord_keeps {u : State} (hu : u.mem.wf = true) (D : Dst) (v : Word) :
    KeepsOutside (D.bytes u 4) u (storedWord u D v) := by
  cases D with
  | reg r => exact .of_mem_eq rfl
  | ind r => exact .writeWord hu rfl

theorem storedByte_keeps {u : State} (hu : u.mem.wf = true) (D : Dst) (v : Byte) :
    KeepsOutside (D.bytes u 1) u (storedByte u D v) := by
  cases D with
  | reg r => exact .of_mem_eq rfl
  | ind r => exact .writeByte hu rfl

section
variable {u t : State} {a : Arg2} {S : Src}

theorem implicitBytes_of_dst {D : Dst} (n : Nat) (ha : resolve2 a = .ok S)
    (hD : S.implicitDst = some D) : implicitBytes u n a = D.bytes u n := by
  simp [implicitBytes, ha, hD]

theorem implicitWriteWord_keeps {v : Word} (hu : u.mem.wf = true) (ha : resolve2 a = .ok S)
    (h : implicitWriteWord u S v = .ok t) : KeepsOutside (implicitBytes u 4 a) u t := by
  obtain ⟨-, rfl⟩ | ⟨D, hD, -, rfl⟩ := implicitWriteWord_ok.1 h
  · exact .of_mem_eq rfl
  · rw [implicitBytes_of_dst 4 ha hD]
    exact storedWord_keeps hu D v

theorem implicitWriteByte_keeps {v : Byte} (hu : u.mem.wf = true) (ha : resolve2 a = .ok S)
    (h : implicitWriteByte u S v = .ok t) : KeepsOutside (implicitBytes u 1 a) u t := by
  obtain ⟨-, rfl⟩ | ⟨D, hD, -, rfl⟩ := implicitWriteByte_ok.1 h
  · exact .of_mem_eq rfl
  · rw [implicitBytes_of_dst 1 ha hD]
    exact storedByte_keeps hu D v

end

/-- Where the implicit destination stores does not depend on what memory holds. -/
theorem implicitBytes_withMem (u : State) (m : Memory) (n : Nat) (a : Arg2) :
    implicitBytes { u with mem := m } n a = implicitBytes u n a := by
  have hbytes : Dst.bytes { u with mem := m } n = Dst.bytes u n := by
    funext D
    cases D <;> rfl
  simp only [implicitBytes, hbytes]

/-! ### The bodies -/

/-- The body leaves in memory what a word stored at its destination leaves. -/
def StoresWord (body : State → Dst → Src → Except Cause State) : Prop :=
  ∀ u t D S, body u D S = .ok t → ∃ v, t.mem = (storedWord u D v).mem

/-- The body leaves in memory what a byte stored at its destination leaves. -/
def StoresByte (body : State → Dst → Src → Except Cause State) : Prop :=
  ∀ u t D S, body u D S = .ok t → ∃ v, t.mem = (storedByte u D v).mem

theorem modifyWord_stores (f : Word → Word → Word) : StoresWord (modifyWord f) := fun _ _ _ _ h => by
  obtain ⟨b, a, -, -, rfl⟩ := modifyWord_ok.1 h
  exact ⟨_, rfl⟩

theorem modifyByte_stores (f : Byte → Byte → Byte) : StoresByte (modifyByte f) := fun _ _ _ _ h => by
  obtain ⟨b, a, -, -, rfl⟩ := modifyByte_ok.1 h
  exact ⟨_, rfl⟩

theorem divideWord_stores (f : Word → Word → Word) : StoresWord (divideWord f) := fun _ _ _ _ h => by
  obtain ⟨b, a, -, -, -, rfl⟩ := divideWord_ok.1 h
  exact ⟨_, rfl⟩

theorem divideByte_stores (f : Byte → Byte → Byte) : StoresByte (divideByte f) := fun _ _ _ _ h => by
  obtain ⟨b, a, -, -, -, rfl⟩ := divideByte_ok.1 h
  exact ⟨_, rfl⟩

/-- Drawing a NaN moves no destination and leaves memory. -/
theorem storedWord_floatResult_mem (u : State) (r : Option Word) (D : Dst) (v : Word) :
    (storedWord (floatResult u r).2 D v).mem = (storedWord u D v).mem := by
  rw [floatResult_state]
  cases D <;> rfl

theorem modifyFloat_stores (f : Word → Word → Option Word) : StoresWord (modifyFloat f) := by
  intro _ _ _ _ h
  obtain ⟨b, a, -, -, rfl⟩ := modifyFloat_ok.1 h
  exact ⟨_, storedWord_floatResult_mem _ _ _ _⟩

theorem divideFloat_stores (f : Word → Word → Option Word) : StoresWord (divideFloat f) := by
  intro _ _ _ _ h
  obtain ⟨b, a, -, -, -, rfl⟩ := divideFloat_ok.1 h
  exact ⟨_, storedWord_floatResult_mem _ _ _ _⟩

theorem complementWord_stores : StoresWord complementWord := fun _ _ _ _ h => by
  obtain ⟨b, -, -, rfl⟩ := complementWord_ok.1 h
  exact ⟨_, rfl⟩

theorem complementByte_stores : StoresByte complementByte := fun _ _ _ _ h => by
  obtain ⟨b, -, -, rfl⟩ := complementByte_ok.1 h
  exact ⟨_, rfl⟩

theorem moveWord_stores (lane : WordLane) : StoresWord (moveWord lane) := fun _ _ _ _ h => by
  obtain ⟨v, -, -, rfl⟩ := moveWord_ok.1 h
  exact ⟨v, rfl⟩

theorem moveByte_stores : StoresByte moveByte := fun _ _ _ _ h => by
  obtain ⟨v, -, -, rfl⟩ := moveByte_ok.1 h
  exact ⟨v, rfl⟩

theorem loadConstWord_stores (w : Word) (lane : WordLane) : StoresWord (loadConstWord w lane) :=
  fun _ _ _ _ h => by
    obtain ⟨k, v, -, -, -, rfl⟩ := loadConstWord_ok.1 h
    exact ⟨v, rfl⟩

theorem loadConstByte_stores (w : Word) : StoresByte (loadConstByte w) := fun _ _ _ _ h => by
  obtain ⟨k, v, -, -, -, rfl⟩ := loadConstByte_ok.1 h
  exact ⟨v, rfl⟩

theorem loadConstAddr_stores (w : Word) : StoresWord (loadConstAddr w) := fun _ _ _ _ h => by
  obtain ⟨k, v, -, -, -, rfl⟩ := loadConstAddr_ok.1 h
  exact ⟨v, rfl⟩

section
variable {u t : State} {D : Dst} {S : Src}

theorem skipUnless_mem (u : State) (b : Bool) : (skipUnless u b).mem = u.mem := by
  cases b <;> rfl

theorem compareWord_mem {lane : WordLane} {f : Word → Word → Bool}
    (h : compareWord lane f u D S = .ok t) : t.mem = u.mem := by
  obtain ⟨b, a, -, -, rfl⟩ := compareWord_ok.1 h
  exact skipUnless_mem u _

theorem compareByte_mem {f : Byte → Byte → Bool} (h : compareByte f u D S = .ok t) :
    t.mem = u.mem := by
  obtain ⟨b, a, -, -, rfl⟩ := compareByte_ok.1 h
  exact skipUnless_mem u _

theorem printWord_mem {lane : WordLane} {e : Word → OutEvent} (h : printWord lane e u S = .ok t) :
    t.mem = u.mem := by
  obtain ⟨v, -, rfl⟩ := printWord_ok.1 h
  rfl

theorem printByte_mem {e : Byte → OutEvent} (h : printByte e u S = .ok t) : t.mem = u.mem := by
  obtain ⟨v, -, rfl⟩ := printByte_ok.1 h
  rfl

end

section
variable {u t : State} {S : Src} {a : Arg2}

theorem pushWord_keeps {lane : WordLane} (hu : u.mem.wf = true) (h : pushWord lane u S = .ok t) :
    KeepsOutside (List.range' (u.sp - 4).toNat 4) u t := by
  obtain ⟨v, -, -, rfl⟩ := pushWord_ok.1 h
  exact .writeWord hu rfl

theorem pushByte_keeps (hu : u.mem.wf = true) (h : pushByte u S = .ok t) :
    KeepsOutside (List.range' (u.sp - 1).toNat 1) u t := by
  obtain ⟨v, -, -, rfl⟩ := pushByte_ok.1 h
  exact .writeByte hu rfl

theorem popWord_keeps {lane : WordLane} (hu : u.mem.wf = true) (ha : resolve2 a = .ok S)
    (h : popWord lane u S = .ok t) :
    KeepsOutside (implicitBytes (u.setSp (u.sp + 4)) 4 a) u t := by
  obtain ⟨x, v, -, -, hw⟩ := popWord_ok.1 h
  exact implicitWriteWord_keeps (u := u.setSp (u.sp + 4)) hu ha hw

theorem popByte_keeps (hu : u.mem.wf = true) (ha : resolve2 a = .ok S) (h : popByte u S = .ok t) :
    KeepsOutside (implicitBytes (u.setSp (u.sp + 1)) 1 a) u t := by
  obtain ⟨x, v, -, -, hw⟩ := popByte_ok.1 h
  exact implicitWriteByte_keeps (u := u.setSp (u.sp + 1)) hu ha hw

/-- A duplicate stores at the slot it pushes to, and then at its implicit destination. -/
theorem dupWord_keeps {lane : WordLane} (hu : u.mem.wf = true) (ha : resolve2 a = .ok S)
    (h : dupWord lane u S = .ok t) :
    KeepsOutside
      (List.range' (u.sp - 4).toNat 4 ++ implicitBytes (u.setSp (u.sp - 4)) 4 a) u t := by
  obtain ⟨x, v, -, -, -, hw⟩ := dupWord_ok.1 h
  have himplicit := implicitWriteWord_keeps (Memory.writeWord_wf _ _ _ v hu) ha hw
  rw [implicitBytes_withMem] at himplicit
  exact (KeepsOutside.writeWord hu rfl).trans himplicit

theorem dupByte_keeps (hu : u.mem.wf = true) (ha : resolve2 a = .ok S) (h : dupByte u S = .ok t) :
    KeepsOutside
      (List.range' (u.sp - 1).toNat 1 ++ implicitBytes (u.setSp (u.sp - 1)) 1 a) u t := by
  obtain ⟨x, v, -, -, -, hw⟩ := dupByte_ok.1 h
  have himplicit := implicitWriteByte_keeps (Memory.write_wf _ _ v hu) ha hw
  rw [implicitBytes_withMem] at himplicit
  exact (KeepsOutside.writeByte hu rfl).trans himplicit

end

/-! ### The operand classes: a fault keeps every byte -/

section
variable {s t : State} {d : Arg1} {a : Arg2}

theorem transact_keeps {body : State → Except Cause State} {A : List Nat}
    (hb : ∀ u, body u = .ok t → t.mem = u.mem) (h : transact s body = .next t) :
    KeepsOutside A s t := by
  obtain h | ⟨c, -, rfl⟩ := transact_next.1 h
  · exact .of_mem_eq (hb s.postFetch h)
  · exact .of_mem_eq rfl

theorem class1_keeps {body : State → Src → Except Cause State} {A : List Nat}
    (hb : ∀ S, resolve2 a = .ok S → body s.postFetch S = .ok t → KeepsOutside A s.postFetch t)
    (h : class1 s a body = .next t) : KeepsOutside A s t := by
  obtain ⟨S, ha, h⟩ | ⟨c, rfl⟩ := class1_next h
  · exact hb S ha h
  · exact .of_mem_eq rfl

theorem class2_keeps {body : State → Dst → Src → Except Cause State} {A : List Nat}
    (hb : ∀ D S, resolve1 d = .ok D → body s.postFetch D S = .ok t → KeepsOutside A s.postFetch t)
    (h : class2 s d a body = .next t) : KeepsOutside A s t := by
  obtain ⟨D, S, hd, -, h⟩ | ⟨c, rfl⟩ := class2_next h
  · exact hb D S hd h
  · exact .of_mem_eq rfl

theorem class2_keeps_of_storesWord {body : State → Dst → Src → Except Cause State}
    (hs : s.mem.wf = true) (hb : StoresWord body) (h : class2 s d a body = .next t) :
    KeepsOutside (arg1Bytes s.postFetch 4 d) s t := by
  refine class2_keeps (fun D S hd h b hmem => ?_) h
  obtain ⟨v, hv⟩ := hb _ _ _ _ h
  rw [arg1Bytes, hd] at hmem
  rw [hv]
  exact storedWord_keeps (u := s.postFetch) hs D v b hmem

theorem class2_keeps_of_storesByte {body : State → Dst → Src → Except Cause State}
    (hs : s.mem.wf = true) (hb : StoresByte body) (h : class2 s d a body = .next t) :
    KeepsOutside (arg1Bytes s.postFetch 1 d) s t := by
  refine class2_keeps (fun D S hd h b hmem => ?_) h
  obtain ⟨v, hv⟩ := hb _ _ _ _ h
  rw [arg1Bytes, hd] at hmem
  rw [hv]
  exact storedByte_keeps (u := s.postFetch) hs D v b hmem

end

/-! ### Every instruction -/

/-- An instruction keeps every byte outside the addresses it computes its stores at. -/
theorem exec_keeps {i : Instr} {s t : State} (hs : s.mem.wf = true) (h : exec i s = .next t) :
    KeepsOutside (storedAddrs i s.postFetch) s t := by
  cases i with
  | noop | jmp _ | call _ | ret =>
    simp only [exec_noop, exec_jmp, exec_call, exec_ret] at h
    exact transact_keeps (fun _ h => by cases h; rfl) h
  | ifi _ _ | iff _ _ | ifei _ _ | ifef _ _ =>
    exact class2_keeps (fun _ _ _ h => .of_mem_eq (compareWord_mem h)) h
  | ifb _ _ | ifeb _ _ => exact class2_keeps (fun _ _ _ h => .of_mem_eq (compareByte_mem h)) h
  | printi _ | printf _ => exact class1_keeps (fun _ _ h => .of_mem_eq (printWord_mem h)) h
  | printb _ | printc _ => exact class1_keeps (fun _ _ h => .of_mem_eq (printByte_mem h)) h
  | pushi _ | pushf _ => exact class1_keeps (fun _ _ h => pushWord_keeps hs h) h
  | pushb _ => exact class1_keeps (fun _ _ h => pushByte_keeps hs h) h
  | popi _ | popf _ => exact class1_keeps (fun _ ha h => popWord_keeps hs ha h) h
  | popb _ => exact class1_keeps (fun _ ha h => popByte_keeps hs ha h) h
  | dupi _ | dupf _ => exact class1_keeps (fun _ ha h => dupWord_keeps hs ha h) h
  | dupb _ => exact class1_keeps (fun _ ha h => dupByte_keeps hs ha h) h
  | movi _ _ | movf _ _ => exact class2_keeps_of_storesWord hs (moveWord_stores _) h
  | movb _ _ => exact class2_keeps_of_storesByte hs moveByte_stores h
  | ldci _ _ | ldcf _ _ => exact class2_keeps_of_storesWord hs (loadConstWord_stores _ _) h
  | ldcb _ _ => exact class2_keeps_of_storesByte hs (loadConstByte_stores _) h
  | ldca _ _ => exact class2_keeps_of_storesWord hs (loadConstAddr_stores _) h
  | addf _ _ | subf _ _ | mulf _ _ => exact class2_keeps_of_storesWord hs (modifyFloat_stores _) h
  | divf _ _ | modf _ _ => exact class2_keeps_of_storesWord hs (divideFloat_stores _) h
  | divi _ _ | modi _ _ => exact class2_keeps_of_storesWord hs (divideWord_stores _) h
  | divb _ _ | modb _ _ => exact class2_keeps_of_storesByte hs (divideByte_stores _) h
  | noti _ _ => exact class2_keeps_of_storesWord hs complementWord_stores h
  | notb _ _ => exact class2_keeps_of_storesByte hs complementByte_stores h
  | addi _ _ | subi _ _ | muli _ _ | ori _ _ | andi _ _ | xori _ _ | szrli _ _ | srli _ _ | slli _ _ =>
    exact class2_keeps_of_storesWord hs (modifyWord_stores _) h
  | addb _ _ | subb _ _ | mulb _ _ | orb _ _ | andb _ _ | xorb _ _ | szrlb _ _ | srlb _ _ | sllb _ _ =>
    exact class2_keeps_of_storesByte hs (modifyByte_stores _) h

/-- Settles O53, by what each instruction's body stores. -/
theorem onlyStoredBytesChange : Obligations.OnlyStoredBytesChange :=
  fun _ _ _ hs h => exec_keeps hs h

end Sys2Proof.Machine
end

section
/-! The constant-pool image (20_memory.md R62 to R66): the bytes of the numeric constants and then of the
strings, written from address 0 on, and the table of the addresses they stand at. -/

namespace Sys2Proof.Machine

/-! ### Bytes written from an address on -/

theorem writeBytes_append (m : Memory) (a : Nat) (xs ys : List Byte) :
    writeBytes m a (xs ++ ys) = writeBytes (writeBytes m a xs) (a + xs.length) ys := by
  induction xs generalizing m a with
  | nil => rfl
  | cons x xs ih =>
    simp only [List.cons_append, writeBytes, ih, List.length_cons]
    rw [Nat.add_assoc, Nat.add_comm 1]

/-- Reading after writing bytes from `a` on: below `a`, and past the last of them, memory is as before. -/
theorem read_writeBytes {m : Memory} (hm : m.wf = true) (a b : Nat) (bs : List Byte) :
    (writeBytes m a bs).read b = if b < a then m.read b else bs[b - a]?.getD (m.read b) := by
  induction bs generalizing m a with
  | nil => simp [writeBytes]
  | cons x xs ih =>
    rw [writeBytes, ih (Memory.write_wf m a x hm), Memory.read_write_of_wf a hm b x]
    obtain hb | rfl | hb := Nat.lt_trichotomy b a
    · simp [hb, Nat.lt_succ_of_lt hb, Nat.ne_of_lt hb]
    · simp
    · obtain ⟨k, rfl⟩ := Nat.exists_eq_add_of_lt hb
      have hidx : a + k + 1 - a = k + 1 := by omega
      have hpast : ¬ a + k + 1 < a := by omega
      have hne : a + k + 1 ≠ a := by omega
      simp [hidx, hpast, hne]

/-! ### The image as one list of bytes -/

/-- The four bytes of a word in the order memory holds them (R53). -/
def wordBytes (o : ByteOrder) (v : Word) : List Byte :=
  [wordByte o v 0, wordByte o v 1, wordByte o v 2, wordByte o v 3]

/-- The bytes of the constant pools: the numeric constants (R63), then each string with its zero byte
(R64). -/
def Artifact.imageBytes (p : Artifact) (o : ByteOrder) : List Byte :=
  p.nums.flatMap (wordBytes o) ++ p.strs.flatMap (fun b => b ++ [0])

theorem writeWord_eq_writeBytes (o : ByteOrder) (m : Memory) (a : Nat) (v : Word) :
    m.writeWord o a v = writeBytes m a (wordBytes o v) := rfl

theorem writeWords_eq_writeBytes (o : ByteOrder) (m : Memory) (a : Nat) (vs : List Word) :
    writeWords o m a vs = writeBytes m a (vs.flatMap (wordBytes o)) := by
  induction vs generalizing m a with
  | nil => rfl
  | cons v vs ih =>
    rw [writeWords, ih, writeWord_eq_writeBytes, List.flatMap_cons, writeBytes_append]
    rfl

theorem writeStrings_eq_writeBytes (m : Memory) (a : Nat) (bs : List (List Byte)) :
    writeStrings m a bs = writeBytes m a (bs.flatMap (fun b => b ++ [0])) := by
  induction bs generalizing m a with
  | nil => rfl
  | cons b bs ih =>
    rw [writeStrings, ih, List.flatMap_cons, writeBytes_append _ _ (b ++ [0]), List.length_append]
    rfl

theorem length_flatMap_wordBytes (o : ByteOrder) (vs : List Word) :
    (vs.flatMap (wordBytes o)).length = 4 * vs.length := by
  simp [List.length_flatMap, wordBytes, Nat.mul_comm]

theorem Artifact.image_eq_writeBytes (p : Artifact) (o : ByteOrder) :
    p.image o = writeBytes [] 0 (p.imageBytes o) := by
  rw [Artifact.image, writeStrings_eq_writeBytes, writeWords_eq_writeBytes, Artifact.imageBytes,
    writeBytes_append, length_flatMap_wordBytes, Nat.zero_add]

/-- The constants fill memory up to HEAP_START (R66). -/
theorem Artifact.length_imageBytes (p : Artifact) (o : ByteOrder) :
    (p.imageBytes o).length = p.heapStart := by
  rw [Artifact.imageBytes, List.length_append, length_flatMap_wordBytes, Artifact.heapStart,
    List.length_flatMap]
  simp

/-- Memory after the load: the bytes of the constants from address 0, and zeros above (R72). -/
theorem Artifact.read_image (p : Artifact) (o : ByteOrder) (q : Nat) :
    (p.image o).read q = (p.imageBytes o)[q]?.getD 0 := by
  rw [Artifact.image_eq_writeBytes, read_writeBytes rfl, if_neg (Nat.not_lt_zero q)]
  rfl

theorem Artifact.read_image_heap (p : Artifact) (o : ByteOrder) {q : Nat} (hq : p.heapStart ≤ q) :
    (p.image o).read q = 0 := by
  rw [Artifact.read_image, List.getElem?_eq_none (by rwa [Artifact.length_imageBytes])]
  rfl

/-! ### Where each constant stands -/

/-- In lists joined one after another, the list of entry `j` begins where the lists before it end. -/
theorem getElem?_flatMap_at {α β : Type} (f : α → List β) {l : List α} {j n : Nat} {x : α}
    (hx : l[j]? = some x) (hn : n < (f x).length) :
    (l.flatMap f)[((l.take j).map (fun y => (f y).length)).sum + n]? = (f x)[n]? := by
  induction l generalizing j with
  | nil => simp at hx
  | cons y l ih =>
    cases j with
    | zero =>
      obtain rfl : y = x := by simpa using hx
      simp [List.getElem?_append_left hn]
    | succ j =>
      rw [List.flatMap_cons, List.take_succ_cons, List.map_cons, List.sum_cons, Nat.add_assoc,
        List.getElem?_append_right (Nat.le_add_right _ _), Nat.add_sub_cancel_left]
      exact ih hx

/-- The address of string `j`: after the numeric constants and the strings before it, each with its zero
byte (R64). -/
def Artifact.strAddr (p : Artifact) (j : Nat) : Nat :=
  4 * p.nums.length + ((p.strs.take j).map (fun c => c.length + 1)).sum

section
variable (p : Artifact) (o : ByteOrder) {j : Nat}

theorem Artifact.read_image_num {v : Word} (hj : p.nums[j]? = some v) {i : Nat} (hi : i < 4) :
    (p.image o).read (4 * j + i) = (wordBytes o v)[i]?.getD 0 := by
  have hlen : j < p.nums.length := (List.getElem?_eq_some_iff.1 hj).1
  have hbytes := getElem?_flatMap_at (wordBytes o) hj (n := i) hi
  have hsum : ((p.nums.take j).map (fun w => (wordBytes o w).length)).sum = 4 * j := by
    simp [wordBytes, Nat.mul_comm, Nat.le_of_lt hlen]
  have hlow : 4 * j + i < (p.nums.flatMap (wordBytes o)).length := by
    rw [length_flatMap_wordBytes]
    omega
  rw [hsum] at hbytes
  rw [Artifact.read_image, Artifact.imageBytes, List.getElem?_append_left hlow, hbytes]

/-- Numeric constant `j` is the word at `4 * j` (R63). -/
theorem Artifact.readWord_image {v : Word} (hj : p.nums[j]? = some v) :
    (p.image o).readWord o (4 * j) = v := by
  have h0 : (p.image o).read (4 * j) = _ := p.read_image_num o hj (i := 0) (by decide)
  have h1 := p.read_image_num o hj (i := 1) (by decide)
  have h2 := p.read_image_num o hj (i := 2) (by decide)
  have h3 := p.read_image_num o hj (i := 3) (by decide)
  simp only [Memory.readWord, h0, h1, h2, h3]
  cases o with
  | big => exact (wordByte_join v).1
  | little => exact (wordByte_join v).2

/-- String `j` and its zero byte stand from its address on (R64). -/
theorem Artifact.read_image_str {b : List Byte} (hj : p.strs[j]? = some b) {n : Nat}
    (hn : n < (b ++ [0]).length) :
    (p.image o).read (p.strAddr j + n) = (b ++ [0])[n]?.getD 0 := by
  have hbytes := getElem?_flatMap_at (fun b : List Byte => b ++ [0]) hj hn
  simp only [List.length_append, List.length_singleton] at hbytes
  rw [Artifact.read_image, Artifact.imageBytes, Artifact.strAddr, Nat.add_assoc,
    ← length_flatMap_wordBytes o, List.getElem?_append_right (Nat.le_add_right _ _),
    Nat.add_sub_cancel_left, hbytes]

end

/-! ### The constant-address table (R65) -/

theorem length_strAddrs (q : Nat) (bs : List (List Byte)) : (strAddrs q bs).length = bs.length := by
  induction bs generalizing q with
  | nil => rfl
  | cons b bs ih => rw [strAddrs, List.length_cons, ih, List.length_cons]

theorem getElem?_strAddrs {bs : List (List Byte)} {j : Nat} (hj : j < bs.length) (q : Nat) :
    (strAddrs q bs)[j]? = some (q + ((bs.take j).map (fun c => c.length + 1)).sum) := by
  induction bs generalizing q j with
  | nil => simp at hj
  | cons b bs ih =>
    cases j with
    | zero => rfl
    | succ j =>
      rw [strAddrs, List.getElem?_cons_succ, ih (Nat.lt_of_succ_lt_succ hj), List.take_succ_cons,
        List.map_cons, List.sum_cons, ← Nat.add_assoc, ← Nat.add_assoc]

section
variable (p : Artifact) {j : Nat}

theorem Artifact.length_cat : p.cat.length = p.nums.length + p.strs.length := by
  simp [Artifact.cat, Artifact.constAddrs, length_strAddrs]

theorem Artifact.cat_num (hj : j < p.nums.length) : p.cat[j]? = some (BitVec.ofNat 32 (4 * j)) := by
  have hlen : j < ((List.range p.nums.length).map (fun j => 4 * j)).length := by simpa using hj
  rw [Artifact.cat, Artifact.constAddrs, List.getElem?_map, List.getElem?_append_left hlen]
  simp [hj]

theorem Artifact.cat_str (hj : j < p.strs.length) :
    p.cat[p.nums.length + j]? = some (BitVec.ofNat 32 (p.strAddr j)) := by
  have hlen : ((List.range p.nums.length).map (fun j => 4 * j)).length = p.nums.length := by simp
  rw [Artifact.cat, Artifact.constAddrs, List.getElem?_map, List.getElem?_append_right (by omega), hlen,
    Nat.add_sub_cancel_left, getElem?_strAddrs hj, Artifact.strAddr]
  rfl

end

end Sys2Proof.Machine
end

section
/-! A launch: when it is accepted, and the state it leaves (70_reset_and_hazards.md R330, R331). -/

namespace Sys2Proof.Machine

/-- A check that answers an error where `c` holds is passed where it does not. -/
theorem guard_eq_ok {ε α : Type} {c : Prop} [Decidable c] {e : ε} {x : Except ε α} {b : α} :
    (if c then .error e else x) = .ok b ↔ ¬c ∧ x = .ok b := by
  by_cases h : c <;> simp [h]

/-- A launch is accepted when every requirement of R331 and R10 is met, and then gives the reset state of
the artifact. -/
theorem launch_ok {p : Params} {a : Artifact} {s : State} :
    launch p a = .ok s ↔
      (1 ≤ p.memSize ∧ p.memSize ≤ 2 ^ 31) ∧ a.heapStart ≤ p.memSize ∧
      a.nums.length + a.strs.length ≤ 2 ^ 19 ∧ a.entry = 0 ∧ a.len = a.words.length ∧
      a.words.length < 2 ^ 31 ∧ p.opcodes.valid = true ∧ s = resetWith p a := by
  simp only [launch, guard_eq_ok, not_or, not_lt, not_le, not_not, Bool.not_eq_false,
    Nat.one_le_iff_ne_zero, Except.ok.injEq, ne_eq, @eq_comm State s]

/-- Reset leaves 0 in every cell above `h` (R330). -/
theorem resetWith_x_general (p : Params) (a : Artifact) {r : RegIdx} (hr : 4 ≤ r.val) :
    (resetWith p a).x r = 0#32 := by
  fin_cases r <;> simp at hr <;> rfl

/-- Settles O56, by the constants' places in the image and in the table. -/
theorem launchResetsTheMachine : Obligations.LaunchResetsTheMachine := by
  intro p a s h
  obtain ⟨-, -, -, -, -, -, -, rfl⟩ := launch_ok.1 h
  refine ⟨rfl, rfl, rfl, rfl, fun r hr => resetWith_x_general p a hr, rfl, rfl, rfl, rfl, a.length_cat,
    fun j v hj => ⟨a.cat_num (List.getElem?_eq_some_iff.1 hj).1, a.readWord_image _ hj⟩, ?_,
    fun q hq => a.read_image_heap _ hq⟩
  rintro j b q hj rfl
  refine ⟨a.cat_str (List.getElem?_eq_some_iff.1 hj).1, fun n c hn => ?_, ?_⟩
  · have hlt : n < b.length := (List.getElem?_eq_some_iff.1 hn).1
    refine (a.read_image_str _ hj (by simp; omega)).trans ?_
    rw [List.getElem?_append_left hlt, hn, Option.getD_some]
  · exact (a.read_image_str _ hj (by simp)).trans (by simp)

end Sys2Proof.Machine
end

section
/-! The codec as an inverse pair (30_encoding.md R98): fields and words in both layouts, then instructions and
words under any injective opcode map. -/

namespace Sys2Proof

/-! ### Words, written back from their fields (R98) -/

/-- The standard layout writes a word back from its six fields. -/
@[simp] theorem encStd_fields (w : Word) :
    encStd (decOpcode w) (decArg1Addr w) (decArg1Value w) (decArg2Reg w) (decArg2Addr w)
      (decArg2Value w) = w := by
  apply BitVec.eq_of_toNat_eq
  have := w.isLt
  rw [encStd_toNat, decOpcode_toNat, decArg1Addr_toNat, decArg1Value_toNat, decArg2Reg_toNat,
    decArg2Addr_toNat, decArg2Value_toNat]
  omega

/-- The jump layout writes a word back exactly when the two bits it has no field for are 0 (R96). -/
theorem encJmp_fields_eq_iff (w : Word) :
    encJmp (decOpcode w) (decImm24 w) = w ↔ w.extractLsb' 24 2 = 0#2 := by
  have := w.isLt
  rw [← BitVec.toNat_inj, encJmp_toNat, decOpcode_toNat, decImm24_toNat, ← BitVec.toNat_inj,
    BitVec.extractLsb'_toNat, Nat.shiftRight_eq_div_pow, BitVec.toNat_ofNat]
  omega

/-- Settles O1, by the fields of each layout read back, and words written back from them. -/
theorem codecIsExactlyInvertible : Obligations.CodecIsExactlyInvertible :=
  ⟨fun op a r g f v => ⟨decOpcode_encStd op a r g f v, decArg1Addr_encStd op a r g f v,
      decArg1Value_encStd op a r g f v, decArg2Reg_encStd op a r g f v,
      decArg2Addr_encStd op a r g f v, decArg2Value_encStd op a r g f v⟩,
    fun op t => ⟨decOpcode_encJmp op t, decImm24_encJmp op t⟩, encStd_fields, encJmp_fields_eq_iff⟩

/-! ### Instructions and words -/

theorem OpcodeMap.injective_iff (m : OpcodeMap) : m.injective = true ↔
    (m.map OpcodeRow.number).Nodup ∧ (m.map OpcodeRow.op).Nodup := by
  simp [OpcodeMap.injective]

theorem OpcodeMap.injective_of_valid {m : OpcodeMap} (h : m.valid = true) : m.injective = true :=
  have ⟨hnum, hops, _⟩ := m.valid_iff.1 h
  m.injective_iff.2 ⟨hnum, hops⟩

/-- A row found for an instruction is a row of the map and stands for that instruction. -/
theorem OpcodeMap.rowOf_eq_some {m : OpcodeMap} {op : Op} {row : OpcodeRow}
    (h : m.rowOf op = some row) : row ∈ m ∧ row.op = op :=
  ⟨List.mem_of_find?_eq_some h, eq_of_beq (List.find?_some h :)⟩

/-- What an encoding says: the map has a row for the instruction, of its operands' class, and the word
holds the row's number and the operands. -/
theorem encode_eq_some {m : OpcodeMap} {i : Instr} {w : Word} :
    encode m i = some w ↔ ∃ row, m.rowOf i.op = some row ∧ row.cls = i.op.cls ∧
      encOperands row.number i.operands = w := by
  simp only [encode, Option.bind_eq_some_iff, Option.ite_none_right_eq_some, Option.some.injEq,
    i.operands_cls, @eq_comm OpClass i.op.cls]

/-- Under an injective map the row that encodes an instruction is the one its number selects, so the word
decodes to the instruction. -/
theorem decode_of_encode {m : OpcodeMap} {i : Instr} {w : Word} (hm : m.injective = true)
    (h : encode m i = some w) : decode m w = .ok i := by
  obtain ⟨row, hof, hcls, rfl⟩ := encode_eq_some.1 h
  obtain ⟨hmem, hop⟩ := OpcodeMap.rowOf_eq_some hof
  have hat : m.rowAt row.number = some row := OpcodeMap.rowAt_number (m.injective_iff.1 hm).1 hmem
  exact decode_of_decodeRow (decodeRow_encOperands hat hop hcls)

/-- A valid map encodes an instruction by the row that stands for it. -/
theorem encode_of_mem {m : OpcodeMap} {row : OpcodeRow} {i : Instr} (hm : m.valid = true)
    (hr : row ∈ m) (hop : row.op = i.op) :
    encode m i = some (encOperands row.number i.operands) := by
  obtain ⟨-, hops, -, hclasses⟩ := m.valid_iff.1 hm
  exact encode_of_rowOf (hop ▸ OpcodeMap.rowOf_op hops hr) (hop ▸ hclasses row hr)

/-- The spec's table has a row for every instruction (R100). -/
theorem OpcodeMap.standard_complete (op : Op) : ∃ row ∈ OpcodeMap.standard, row.op = op := by
  cases op <;> decide

/-- Settles O2: an encoding is inverted through the instruction's row, and the spec's table has a row for
every instruction. -/
theorem decodeInvertsEncodeForEveryInstruction :
    Obligations.DecodeInvertsEncodeForEveryInstruction := by
  refine ⟨fun m i w hm h => decode_of_encode hm h, fun i => ?_, OpcodeMap.standard_valid⟩
  obtain ⟨row, hr, hop⟩ := OpcodeMap.standard_complete i.op
  exact ⟨_, encode_of_mem OpcodeMap.standard_valid hr hop⟩

/-- Settles O5: each word is the one the encoder writes for its instruction. -/
theorem workedLinesDecode : Obligations.WorkedLinesDecode :=
  have hinj := OpcodeMap.injective_of_valid OpcodeMap.standard_valid
  ⟨decode_of_encode hinj rfl, decode_of_encode hinj rfl, decode_of_encode hinj rfl,
    decode_of_encode hinj rfl, decode_of_encode hinj rfl, decode_of_encode hinj rfl⟩

end Sys2Proof
end

section
/-! From the operand bits of a word to resolved operands (30_encoding.md R82, R84, 40_operands.md R143,
R145). -/

namespace Sys2Proof.Machine

/-- The descriptor of arg1 is the one of bit 25 (R82). -/
theorem decArg1_of_flag {w : Word} {a : Bool} (ha : w.getLsbD 25 = a) :
    decArg1 w = mkArg1 a (w.extractLsb' 21 4) := by
  subst ha
  rfl

/-- The descriptor of arg2 is the one of bits 20 and 19 (R84). -/
theorem decArg2_of_flags {w : Word} {g f : Bool} (hg : w.getLsbD 20 = g) (hf : w.getLsbD 19 = f) :
    decArg2 w = mkArg2 g f (w.extractLsb' 0 19) := by
  subst hg hf
  rfl

/-- A number up to 11 names the register of that number (R145). -/
theorem regIdx_of_lt {i : BitVec 19} (h : i.toNat < 12) : regIdx i = .ok ⟨i.toNat, h⟩ :=
  dif_pos h

/-- A number of arg1's 4-bit field keeps its value in the check. -/
theorem regIdx_setWidth_of_lt {i : BitVec 4} (h : i.toNat < 12) :
    regIdx (i.setWidth 19) = .ok ⟨i.toNat, h⟩ := by
  have hi : (i.setWidth 19).toNat = i.toNat := BitVec.toNat_setWidth_of_le (by decide)
  simp only [regIdx_of_lt (hi.symm ▸ h), hi]

/-- Settles O21, by the descriptors of the flag bits and the registers of the numbers. -/
theorem encodedOperandsGiveTheirDescriptors : Obligations.EncodedOperandsGiveTheirDescriptors := by
  refine ⟨fun w => ⟨decArg1_of_flag, decArg1_of_flag, decArg2_of_flags, decArg2_of_flags,
    decArg2_of_flags, decArg2_of_flags⟩, fun i h => ?_, fun i h => ?_, fun v => ⟨rfl, rfl⟩⟩
  · simp only [resolve1, regIdx_setWidth_of_lt h]
    exact ⟨rfl, rfl⟩
  · simp only [resolve2, regIdx_of_lt h]
    exact ⟨rfl, rfl⟩

end Sys2Proof.Machine
end

section
/-! A step as fetch and execution: every instruction is a transaction and so answers a next state, and the
step answers one exactly in status Running (40_operands.md R140, 60_exceptions.md R312). -/

namespace Sys2Proof.Machine

/-! ### Every instruction answers -/

theorem class1_answers (s : State) (a : Arg2) (body : State → Src → Except Cause State) :
    ∃ t, class1 s a body = .next t :=
  transact_answers s _

theorem class2_answers (s : State) (d : Arg1) (a : Arg2)
    (body : State → Dst → Src → Except Cause State) : ∃ t, class2 s d a body = .next t :=
  transact_answers s _

/-- No instruction is refused or ends the run: each is a transaction, which answers a next state. -/
theorem exec_answers (i : Instr) (s : State) : ∃ t, exec i s = .next t := by
  cases i with
  | noop | jmp _ | call _ | ret =>
    simp only [exec_noop, exec_jmp, exec_call, exec_ret]
    exact transact_answers s _
  | pushi a | pushf a | pushb a | popi a | popf a | popb a | dupi a | dupf a | dupb a
  | printi a | printf a | printb a | printc a => exact class1_answers s a _
  | _ => exact class2_answers s _ _ _

/-! ### The step -/

section
variable {s : State} (hs : s.status = .running)
include hs

/-- From Running a fetched instruction is executed, and nothing is added around it. -/
theorem step_of_fetchInstr_ok {i : Instr} (hi : s.fetchInstr = .ok i) : step s = exec i s := by
  simp [step, hs, hi]

/-- From Running a fetch that gives no instruction gives the next state itself (R141, R103). -/
theorem step_of_fetchInstr_error {t : State} (ht : s.fetchInstr = .error t) : step s = .next t := by
  simp [step, hs, ht]

theorem step_answers : ∃ t, step s = .next t := by
  cases hf : s.fetchInstr with
  | error t => exact ⟨t, step_of_fetchInstr_error hs hf⟩
  | ok i =>
    rw [step_of_fetchInstr_ok hs hf]
    exact exec_answers i s

end

/-- A terminal state answers the model's fault, and a running one a next state. -/
theorem step_ne_refused (s : State) (r : Refusal) : step s ≠ .refused r := by
  cases hs : s.status with
  | halted | faulted c k => simp [step, hs]
  | running =>
    obtain ⟨t, ht⟩ := step_answers hs
    simp [ht]

/-- Settles O9: only a running state steps, and there the fetch or the instruction answers. -/
theorem stepIsTakenExactlyWhenRunning : Obligations.StepIsTakenExactlyWhenRunning :=
  ⟨fun _ => ⟨fun ⟨_, h⟩ => (step_next h).1, step_answers⟩, step_ne_refused⟩

/-- Settles O6, by what a fetch answers for a word at `pc` that decodes. -/
theorem stepRunsDecodedInstruction : Obligations.StepRunsDecodedInstruction :=
  fun _ w _ hs hm hw hi => step_of_fetchInstr_ok hs (fetchInstr_ok_iff.2 ⟨hm, w, hw, hi⟩)

end Sys2Proof.Machine
end

section
/-! The destination operand, named by arg1 or implicit (40_operands.md R148 to R150). -/

namespace Sys2Proof.Machine

/-- Settles O22, form by form of the operand. -/
theorem implicitDestinationOfOneOperand : Obligations.ImplicitDestinationOfOneOperand :=
  fun _ _ => ⟨rfl, rfl, rfl, rfl⟩

section
variable {s t : State} {r : RegIdx}

/-- A word stored through a register leaves every register, the one with the address among them. -/
theorem dstWriteWord_ind_x {v : Word} (h : dstWriteWord s (.ind r) v = .ok t) (j : RegIdx) :
    t.x j = s.x j := by
  obtain ⟨-, rfl⟩ := dstWriteWord_ok.1 h
  rfl

/-- A byte stored through a register leaves every register, the one with the address among them. -/
theorem dstWriteByte_ind_x {b : Byte} (h : dstWriteByte s (.ind r) b = .ok t) (j : RegIdx) :
    t.x j = s.x j := by
  obtain ⟨-, rfl⟩ := dstWriteByte_ok.1 h
  rfl

end

/-- Settles O24: each form reads and writes where it says, and a store leaves the registers. -/
theorem destinationOperandForms : Obligations.DestinationOperandForms :=
  fun _ r _ _ => ⟨rfl, rfl, rfl, rfl, rfl, rfl, rfl, rfl, fun _ h => dstWriteWord_ind_x h r,
    fun _ h => dstWriteByte_ind_x h r, fun _ hS =>
      ⟨implicitWriteWord_ok.2 (.inl ⟨hS, rfl⟩), implicitWriteByte_ok.2 (.inl ⟨hS, rfl⟩)⟩⟩

end Sys2Proof.Machine
end

section
/-! The registers an instruction may change after the fetch increment: each body writes its destination, `sp`
of the stack instructions, `pc` of the control transfers and `r` of CALL, and nothing else (40_operands.md
R142, R149, R150, 42_stack.md R199, 43_control.md R217). -/

namespace Sys2Proof.Machine

/-- Every register outside `A` is the same in `t` as in `u`. -/
def KeepsRegs (A : List RegIdx) (u t : State) : Prop := ∀ j, j ∉ A → t.x j = u.x j

theorem KeepsRegs.of_x_eq {A : List RegIdx} {u t : State} (h : ∀ j, t.x j = u.x j) : KeepsRegs A u t :=
  fun j _ => h j

theorem KeepsRegs.trans {A B : List RegIdx} {u v t : State} (h₁ : KeepsRegs A u v)
    (h₂ : KeepsRegs B v t) : KeepsRegs (A ++ B) u t := fun j hj => by
  rw [List.mem_append, not_or] at hj
  rw [h₂ j hj.2, h₁ j hj.1]

/-! ### Writes of a register, at a destination, and at the implicit destination -/

theorem setX_keepsRegs (u : State) (i : RegIdx) (v : Word) : KeepsRegs [i] u (u.setX i v) :=
  fun j hj => u.x_setX_ne i j v (List.ne_of_not_mem_cons hj)

theorem storedWord_keepsRegs (u : State) (D : Dst) (v : Word) :
    KeepsRegs D.regs u (storedWord u D v) := by
  cases D with
  | reg r => exact setX_keepsRegs u r v
  | ind r => exact .of_x_eq fun _ => rfl

theorem storedByte_keepsRegs (u : State) (D : Dst) (v : Byte) :
    KeepsRegs D.regs u (storedByte u D v) := by
  cases D with
  | reg r => exact setX_keepsRegs u r (v.signExtend 32)
  | ind r => exact .of_x_eq fun _ => rfl

section
variable {u t : State} {a : Arg2} {S : Src}

theorem implicitRegs_of_dst {D : Dst} (ha : resolve2 a = .ok S) (hD : S.implicitDst = some D) :
    implicitRegs a = D.regs := by
  simp [implicitRegs, ha, hD]

theorem implicitWriteWord_keepsRegs {v : Word} (ha : resolve2 a = .ok S)
    (h : implicitWriteWord u S v = .ok t) : KeepsRegs (implicitRegs a) u t := by
  obtain ⟨-, rfl⟩ | ⟨D, hD, -, rfl⟩ := implicitWriteWord_ok.1 h
  · exact .of_x_eq fun _ => rfl
  · rw [implicitRegs_of_dst ha hD]
    exact storedWord_keepsRegs u D v

theorem implicitWriteByte_keepsRegs {v : Byte} (ha : resolve2 a = .ok S)
    (h : implicitWriteByte u S v = .ok t) : KeepsRegs (implicitRegs a) u t := by
  obtain ⟨-, rfl⟩ | ⟨D, hD, -, rfl⟩ := implicitWriteByte_ok.1 h
  · exact .of_x_eq fun _ => rfl
  · rw [implicitRegs_of_dst ha hD]
    exact storedByte_keepsRegs u D v

end

/-! ### The bodies that write their destination -/

section
variable {u t : State} {D : Dst} {S : Src}

theorem modifyWord_keepsRegs {f : Word → Word → Word} (h : modifyWord f u D S = .ok t) :
    KeepsRegs D.regs u t := by
  obtain ⟨b, a, -, -, rfl⟩ := modifyWord_ok.1 h
  exact storedWord_keepsRegs u D _

theorem modifyByte_keepsRegs {f : Byte → Byte → Byte} (h : modifyByte f u D S = .ok t) :
    KeepsRegs D.regs u t := by
  obtain ⟨b, a, -, -, rfl⟩ := modifyByte_ok.1 h
  exact storedByte_keepsRegs u D _

theorem divideWord_keepsRegs {f : Word → Word → Word} (h : divideWord f u D S = .ok t) :
    KeepsRegs D.regs u t := by
  obtain ⟨b, a, -, -, -, rfl⟩ := divideWord_ok.1 h
  exact storedWord_keepsRegs u D _

theorem divideByte_keepsRegs {f : Byte → Byte → Byte} (h : divideByte f u D S = .ok t) :
    KeepsRegs D.regs u t := by
  obtain ⟨b, a, -, -, -, rfl⟩ := divideByte_ok.1 h
  exact storedByte_keepsRegs u D _

/-- Drawing a NaN changes no register, so a float result changes its destination alone. -/
theorem storedFloat_keepsRegs (u : State) (D : Dst) (r : Option Word) :
    KeepsRegs D.regs u (storedWord (floatResult u r).2 D (floatResult u r).1) := by
  have hdraw : ∀ j, (floatResult u r).2.x j = u.x j := fun j => by
    rw [floatResult_state]
    rfl
  exact fun j hj => (storedWord_keepsRegs _ D _ j hj).trans (hdraw j)

theorem modifyFloat_keepsRegs {f : Word → Word → Option Word} (h : modifyFloat f u D S = .ok t) :
    KeepsRegs D.regs u t := by
  obtain ⟨b, a, -, -, rfl⟩ := modifyFloat_ok.1 h
  exact storedFloat_keepsRegs u D _

theorem divideFloat_keepsRegs {f : Word → Word → Option Word} (h : divideFloat f u D S = .ok t) :
    KeepsRegs D.regs u t := by
  obtain ⟨b, a, -, -, -, rfl⟩ := divideFloat_ok.1 h
  exact storedFloat_keepsRegs u D _

theorem complementWord_keepsRegs (h : complementWord u D S = .ok t) : KeepsRegs D.regs u t := by
  obtain ⟨b, -, -, rfl⟩ := complementWord_ok.1 h
  exact storedWord_keepsRegs u D _

theorem complementByte_keepsRegs (h : complementByte u D S = .ok t) : KeepsRegs D.regs u t := by
  obtain ⟨b, -, -, rfl⟩ := complementByte_ok.1 h
  exact storedByte_keepsRegs u D _

theorem moveWord_keepsRegs {lane : WordLane} (h : moveWord lane u D S = .ok t) :
    KeepsRegs D.regs u t := by
  obtain ⟨v, -, -, rfl⟩ := moveWord_ok.1 h
  exact storedWord_keepsRegs u D v

theorem moveByte_keepsRegs (h : moveByte u D S = .ok t) : KeepsRegs D.regs u t := by
  obtain ⟨v, -, -, rfl⟩ := moveByte_ok.1 h
  exact storedByte_keepsRegs u D v

theorem loadConstWord_keepsRegs {w : Word} {lane : WordLane} (h : loadConstWord w lane u D S = .ok t) :
    KeepsRegs D.regs u t := by
  obtain ⟨k, v, -, -, -, rfl⟩ := loadConstWord_ok.1 h
  exact storedWord_keepsRegs u D v

theorem loadConstByte_keepsRegs {w : Word} (h : loadConstByte w u D S = .ok t) :
    KeepsRegs D.regs u t := by
  obtain ⟨k, v, -, -, -, rfl⟩ := loadConstByte_ok.1 h
  exact storedByte_keepsRegs u D v

theorem loadConstAddr_keepsRegs {w : Word} (h : loadConstAddr w u D S = .ok t) :
    KeepsRegs D.regs u t := by
  obtain ⟨k, v, -, -, -, rfl⟩ := loadConstAddr_ok.1 h
  exact storedWord_keepsRegs u D v

/-! ### Comparisons and prints -/

theorem skipUnless_keepsRegs (u : State) (b : Bool) : KeepsRegs [RegIdx.pc] u (skipUnless u b) := by
  cases b with
  | true => exact .of_x_eq fun _ => rfl
  | false => exact setX_keepsRegs u RegIdx.pc _

theorem compareWord_keepsRegs {lane : WordLane} {f : Word → Word → Bool}
    (h : compareWord lane f u D S = .ok t) : KeepsRegs [RegIdx.pc] u t := by
  obtain ⟨b, a, -, -, rfl⟩ := compareWord_ok.1 h
  exact skipUnless_keepsRegs u _

theorem compareByte_keepsRegs {f : Byte → Byte → Bool} (h : compareByte f u D S = .ok t) :
    KeepsRegs [RegIdx.pc] u t := by
  obtain ⟨b, a, -, -, rfl⟩ := compareByte_ok.1 h
  exact skipUnless_keepsRegs u _

theorem printWord_keepsRegs {lane : WordLane} {e : Word → OutEvent}
    (h : printWord lane e u S = .ok t) : KeepsRegs [] u t := by
  obtain ⟨v, -, rfl⟩ := printWord_ok.1 h
  exact .of_x_eq fun _ => rfl

theorem printByte_keepsRegs {e : Byte → OutEvent} (h : printByte e u S = .ok t) :
    KeepsRegs [] u t := by
  obtain ⟨v, -, rfl⟩ := printByte_ok.1 h
  exact .of_x_eq fun _ => rfl

end

/-! ### The stack: `sp` first, and then the implicit destination -/

section
variable {u t : State} {S : Src} {a : Arg2}

/-- A new `sp` changes the cell of `sp` alone, whatever is stored in memory with it. -/
theorem pushed_keepsRegs (u : State) (v : Word) (m : Memory) :
    KeepsRegs [RegIdx.sp] u { u.setSp v with mem := m } :=
  setX_keepsRegs u RegIdx.sp v

theorem pushWord_keepsRegs {lane : WordLane} (h : pushWord lane u S = .ok t) :
    KeepsRegs [RegIdx.sp] u t := by
  obtain ⟨v, -, -, rfl⟩ := pushWord_ok.1 h
  exact pushed_keepsRegs u _ _

theorem pushByte_keepsRegs (h : pushByte u S = .ok t) : KeepsRegs [RegIdx.sp] u t := by
  obtain ⟨v, -, -, rfl⟩ := pushByte_ok.1 h
  exact pushed_keepsRegs u _ _

theorem popWord_keepsRegs {lane : WordLane} (ha : resolve2 a = .ok S)
    (h : popWord lane u S = .ok t) : KeepsRegs (RegIdx.sp :: implicitRegs a) u t := by
  obtain ⟨x, v, -, -, hw⟩ := popWord_ok.1 h
  exact (setX_keepsRegs u RegIdx.sp _).trans (implicitWriteWord_keepsRegs ha hw)

theorem popByte_keepsRegs (ha : resolve2 a = .ok S) (h : popByte u S = .ok t) :
    KeepsRegs (RegIdx.sp :: implicitRegs a) u t := by
  obtain ⟨x, v, -, -, hw⟩ := popByte_ok.1 h
  exact (setX_keepsRegs u RegIdx.sp _).trans (implicitWriteByte_keepsRegs ha hw)

theorem dupWord_keepsRegs {lane : WordLane} (ha : resolve2 a = .ok S)
    (h : dupWord lane u S = .ok t) : KeepsRegs (RegIdx.sp :: implicitRegs a) u t := by
  obtain ⟨x, v, -, -, -, hw⟩ := dupWord_ok.1 h
  exact (pushed_keepsRegs u _ _).trans (implicitWriteWord_keepsRegs ha hw)

theorem dupByte_keepsRegs (ha : resolve2 a = .ok S) (h : dupByte u S = .ok t) :
    KeepsRegs (RegIdx.sp :: implicitRegs a) u t := by
  obtain ⟨x, v, -, -, -, hw⟩ := dupByte_ok.1 h
  exact (pushed_keepsRegs u _ _).trans (implicitWriteByte_keepsRegs ha hw)

end

/-! ### The operand classes: the body's frame from the post-fetch state, or a fault -/

section
variable {s t : State} {d : Arg1} {a : Arg2} {A : List RegIdx}

theorem transact_keepsRegs {body : State → Except Cause State} (h : transact s body = .next t)
    (hb : ∀ u, body u = .ok t → KeepsRegs A u t) :
    KeepsRegs A s.postFetch t ∨ ∃ c, t = s.raise c :=
  (transact_next.1 h).imp (hb s.postFetch) fun ⟨c, _, ht⟩ => ⟨c, ht⟩

theorem class1_keepsRegs {body : State → Src → Except Cause State} (h : class1 s a body = .next t)
    (hb : ∀ {u S}, resolve2 a = .ok S → body u S = .ok t → KeepsRegs A u t) :
    KeepsRegs A s.postFetch t ∨ ∃ c, t = s.raise c :=
  (class1_next h).imp_left fun ⟨_, ha, h⟩ => hb ha h

theorem class2_keepsRegs {body : State → Dst → Src → Except Cause State}
    (h : class2 s d a body = .next t) (hb : ∀ {u D S}, body u D S = .ok t → KeepsRegs A u t) :
    KeepsRegs A s.postFetch t ∨ ∃ c, t = s.raise c :=
  (class2_next h).imp_left fun ⟨_, _, _, _, h⟩ => hb h

/-- A body that changes its destination alone changes the register arg1 names alone. -/
theorem class2_keepsRegs_of_dst {body : State → Dst → Src → Except Cause State}
    (h : class2 s d a body = .next t) (hb : ∀ {u D S}, body u D S = .ok t → KeepsRegs D.regs u t) :
    KeepsRegs (arg1Regs d) s.postFetch t ∨ ∃ c, t = s.raise c := by
  obtain ⟨D, S, hd, -, h⟩ | hc := class2_next h
  · rw [arg1Regs, hd]
    exact .inl (hb h)
  · exact .inr hc

end

/-! ### Every instruction -/

/-- The register cells an instruction may change after the fetch increment: `pc` of a control transfer, and
the ones it writes. -/
def changedRegs (i : Instr) : List RegIdx := (if isControl i then [RegIdx.pc] else []) ++ writtenRegs i

theorem mem_changedRegs {i : Instr} {j : RegIdx} :
    j ∈ changedRegs i ↔ isControl i = true ∧ j = RegIdx.pc ∨ j ∈ writtenRegs i := by
  cases h : isControl i <;> simp [changedRegs, h]

/-- An instruction changes no register but those, from the post-fetch state, or raises a fault. -/
theorem exec_keepsRegs {i : Instr} {s t : State} (h : exec i s = .next t) :
    KeepsRegs (changedRegs i) s.postFetch t ∨ ∃ c, t = s.raise c := by
  cases i with
  | noop =>
    rw [exec_noop] at h
    exact transact_keepsRegs h fun u hu => by cases hu; exact .of_x_eq fun _ => rfl
  | jmp _ =>
    rw [exec_jmp] at h
    exact transact_keepsRegs h fun u hu => by cases hu; exact setX_keepsRegs u RegIdx.pc _
  | ret =>
    rw [exec_ret] at h
    exact transact_keepsRegs h fun u hu => by cases hu; exact setX_keepsRegs u RegIdx.pc _
  | call _ =>
    rw [exec_call] at h
    refine transact_keepsRegs h fun u hu j hj => ?_
    cases hu
    obtain ⟨hpc, hra⟩ : j ≠ RegIdx.pc ∧ j ≠ RegIdx.ra := by
      simpa [mem_changedRegs, isControl, Instr.op, writtenRegs] using hj
    rw [State.x_setX_ne _ _ _ _ hpc, State.x_setX_ne _ _ _ _ hra]
  | ifi _ _ | iff _ _ | ifei _ _ | ifef _ _ => exact class2_keepsRegs h compareWord_keepsRegs
  | ifb _ _ | ifeb _ _ => exact class2_keepsRegs h compareByte_keepsRegs
  | printi _ | printf _ => exact class1_keepsRegs h (fun _ => printWord_keepsRegs)
  | printb _ | printc _ => exact class1_keepsRegs h (fun _ => printByte_keepsRegs)
  | pushi _ | pushf _ => exact class1_keepsRegs h (fun _ => pushWord_keepsRegs)
  | pushb _ => exact class1_keepsRegs h (fun _ => pushByte_keepsRegs)
  | popi _ | popf _ => exact class1_keepsRegs h popWord_keepsRegs
  | popb _ => exact class1_keepsRegs h popByte_keepsRegs
  | dupi _ | dupf _ => exact class1_keepsRegs h dupWord_keepsRegs
  | dupb _ => exact class1_keepsRegs h dupByte_keepsRegs
  | movi _ _ | movf _ _ => exact class2_keepsRegs_of_dst h moveWord_keepsRegs
  | movb _ _ => exact class2_keepsRegs_of_dst h moveByte_keepsRegs
  | ldci _ _ | ldcf _ _ => exact class2_keepsRegs_of_dst h loadConstWord_keepsRegs
  | ldcb _ _ => exact class2_keepsRegs_of_dst h loadConstByte_keepsRegs
  | ldca _ _ => exact class2_keepsRegs_of_dst h loadConstAddr_keepsRegs
  | addf _ _ | subf _ _ | mulf _ _ => exact class2_keepsRegs_of_dst h modifyFloat_keepsRegs
  | divf _ _ | modf _ _ => exact class2_keepsRegs_of_dst h divideFloat_keepsRegs
  | divi _ _ | modi _ _ => exact class2_keepsRegs_of_dst h divideWord_keepsRegs
  | divb _ _ | modb _ _ => exact class2_keepsRegs_of_dst h divideByte_keepsRegs
  | noti _ _ => exact class2_keepsRegs_of_dst h complementWord_keepsRegs
  | notb _ _ => exact class2_keepsRegs_of_dst h complementByte_keepsRegs
  | addi _ _ | subi _ _ | muli _ _ | ori _ _ | andi _ _ | xori _ _ | szrli _ _ | srli _ _ | slli _ _ =>
    exact class2_keepsRegs_of_dst h modifyWord_keepsRegs
  | addb _ _ | subb _ _ | mulb _ _ | orb _ _ | andb _ _ | xorb _ _ | szrlb _ _ | srlb _ _ | sllb _ _ =>
    exact class2_keepsRegs_of_dst h modifyByte_keepsRegs

/-- Settles O52: the instruction keeps the register, and the fetch increment changes `pc` alone. -/
theorem onlyWrittenRegistersChange : Obligations.OnlyWrittenRegistersChange := by
  intro i s t h j hpc hj
  obtain hkeep | ⟨c, rfl⟩ := exec_keepsRegs h
  · have hj' : j ∉ changedRegs i := by simp [mem_changedRegs, hpc, hj]
    rw [hkeep j hj', State.x_postFetch, if_neg hpc]
  · exact s.x_raise c j

/-- Settles O54: with no control transfer and no write of `pc`, the fetch increment stands. -/
theorem pcAdvancesByOne : Obligations.PcAdvancesByOne := by
  intro i s t h hctl hpc
  refine (exec_keepsRegs h).imp_left fun hkeep => ?_
  have hpc' : RegIdx.pc ∉ changedRegs i := by simp [mem_changedRegs, hctl, hpc]
  exact (hkeep _ hpc').trans s.postFetch_pc

end Sys2Proof.Machine
end

section
/-! The no-op, the moves and the load-constants complete (41_move_load.md R170 to R177): on resolved operands a
body that raises no fault takes effect whole, and an operand of the constant pool is the datum at its address. -/

namespace Sys2Proof

/-- The spec's table has NOOP at number 0 (R100). -/
theorem OpcodeMap.standard_rowAt_zero :
    OpcodeMap.standard.rowAt 0#6 = some ⟨0, "NOOP".toList, .noop, .zero⟩ := rfl

/-- A word of opcode 0 is NOOP: the row takes no operands, so no other bit is read (R102). -/
theorem decode_standard_of_opcode_zero {w : Word} (hw : decOpcode w = 0#6) :
    decode OpcodeMap.standard w = .ok .noop :=
  (decode_eq_ok _ w _).2 ⟨_, hw ▸ OpcodeMap.standard_rowAt_zero, rfl, rfl, rfl⟩

end Sys2Proof

namespace Sys2Proof.Machine

/-! ### Completion of a class-2 instruction -/

/-- With its operands resolved, a class-2 instruction whose body raises no fault takes effect whole. -/
theorem class2_eq_next_of_ok {s t : State} {d : Arg1} {a : Arg2} {D : Dst} {S : Src}
    {body : State → Dst → Src → Except Cause State} (hd : resolve1 d = .ok D) (ha : resolve2 a = .ok S)
    (h : body s.postFetch D S = .ok t) : class2 s d a body = .next t := by
  rw [class2_resolved hd ha]
  exact transact_next.2 (.inl h)

/-! ### Operands of the constant pool (40_operands.md R146) -/

section
variable {u : State} {k : BitVec 19} {p : Word} (hp : u.prog.cat[k.toNat]? = some p)
include hp

/-- A constant of the table has the address the table gives (R65). -/
theorem State.constAddr_of_getElem? : u.constAddr k = .ok p := by
  simp only [State.constAddr, hp]

/-- A constant's word is the one at its address, in both word lanes. -/
theorem srcWord_const_of_fits (lane : WordLane) (hfit : p.toNat + 4 ≤ u.params.memSize) :
    srcWord u lane (.const k) = .ok (u.mem.readWord u.params.byteOrder p.toNat) :=
  bind_eq_ok.2 ⟨p, State.constAddr_of_getElem? hp,
    State.memReadWord_ok.2 ⟨State.inRange_iff.2 hfit, rfl⟩⟩

/-- A constant's byte is the one at its address. -/
theorem srcByte_const_of_fits (hfit : p.toNat + 1 ≤ u.params.memSize) :
    srcByte u (.const k) = .ok (u.mem.read p.toNat) :=
  bind_eq_ok.2 ⟨p, State.constAddr_of_getElem? hp,
    State.memReadByte_ok.2 ⟨State.inRange_iff.2 hfit, rfl⟩⟩

end

/-! ### The instructions -/

/-- Settles O26: with a value read and a destination that fits, the move's body stores the value. -/
theorem movesComplete : Obligations.MovesComplete := by
  intro s d a D S hd ha
  refine ⟨fun v hv hD => ?movi, fun v hv hD => ?movf, fun v hv hD => ?movb⟩
  case movi | movf => exact class2_eq_next_of_ok hd ha (moveWord_ok.2 ⟨v, hv, hD, rfl⟩)
  case movb => exact class2_eq_next_of_ok hd ha (moveByte_ok.2 ⟨v, hv, hD, rfl⟩)

/-- Settles O27: the constant's address is the table's, and the datum is the one stored there. -/
theorem loadConstantsComplete : Obligations.LoadConstantsComplete := by
  intro s d k D p hd hp
  have ha : resolve2 (.const k) = .ok (.const k) := rfl
  have hp' : s.postFetch.prog.cat[k.toNat]? = some p := hp
  refine ⟨fun hfit hD => ⟨?ldci, ?ldcf⟩, fun hfit hD => ?ldcb, fun hD => ?ldca⟩
  case ldci | ldcf =>
    exact class2_eq_next_of_ok hd ha
      (loadConstWord_ok.2 ⟨k, _, rfl, srcWord_const_of_fits hp' _ hfit, hD, rfl⟩)
  case ldcb =>
    exact class2_eq_next_of_ok hd ha
      (loadConstByte_ok.2 ⟨k, _, rfl, srcByte_const_of_fits hp' hfit, hD, rfl⟩)
  case ldca =>
    exact class2_eq_next_of_ok hd ha
      (loadConstAddr_ok.2 ⟨k, p, rfl, State.constAddr_of_getElem? hp', hD, rfl⟩)

/-- Settles O25: NOOP is encoded and decoded by the row of opcode 0, and its transaction has the empty
body. -/
theorem noopOnlyAdvances : Obligations.NoopOnlyAdvances := by
  refine ⟨rfl, fun w => decode_standard_of_opcode_zero, fun s => ?_⟩
  rw [exec_noop]
  exact transact_next.2 (.inl rfl)

end Sys2Proof.Machine
end

section
/-! The pushes, the pops and the duplicates complete (42_stack.md R190 to R198), and a pop undoes a push
(R199 (c)): with the operand readable and the slots in memory, a stack body moves `sp`, stores at the new
top or reads at the old one, and ends in the write of the implicit destination. -/

namespace Sys2Proof.Machine

/-! ### Completion of a class-1 instruction -/

section
variable {s t u : State} {a : Arg2} {S : Src} {body : State → Src → Except Cause State}
  (ha : resolve2 a = .ok S)
include ha

/-- With its operand resolved, a class-1 instruction whose body raises no fault takes effect whole. -/
theorem class1_eq_next_of_ok (h : body s.postFetch S = .ok t) : class1 s a body = .next t := by
  rw [class1_resolved ha]
  exact transact_next.2 (.inl h)

/-- A class-1 instruction that ends in an implicit word write stops there without a destination, and
stores the word in one that fits. -/
theorem class1_eq_next_of_implicitWriteWord {v : Word}
    (h : body s.postFetch S = implicitWriteWord u S v) :
    (S.implicitDst = none → class1 s a body = .next u) ∧
    (∀ D, S.implicitDst = some D → dstFits u D 4 = true →
      class1 s a body = .next (storedWord u D v)) := by
  refine ⟨fun hS => class1_eq_next_of_ok ha (h.trans ?none), fun D hS hD =>
    class1_eq_next_of_ok ha (h.trans ?some)⟩
  case none => exact implicitWriteWord_ok.2 (.inl ⟨hS, rfl⟩)
  case some => exact implicitWriteWord_ok.2 (.inr ⟨D, hS, hD, rfl⟩)

/-- A class-1 instruction that ends in an implicit byte write stops there without a destination, and
stores the byte in one that fits. -/
theorem class1_eq_next_of_implicitWriteByte {v : Byte}
    (h : body s.postFetch S = implicitWriteByte u S v) :
    (S.implicitDst = none → class1 s a body = .next u) ∧
    (∀ D, S.implicitDst = some D → dstFits u D 1 = true →
      class1 s a body = .next (storedByte u D v)) := by
  refine ⟨fun hS => class1_eq_next_of_ok ha (h.trans ?none), fun D hS hD =>
    class1_eq_next_of_ok ha (h.trans ?some)⟩
  case none => exact implicitWriteByte_ok.2 (.inl ⟨hS, rfl⟩)
  case some => exact implicitWriteByte_ok.2 (.inr ⟨D, hS, hD, rfl⟩)

end

/-! ### The stack bodies when the slots fit, with `p` the stack pointer they start from -/

section
variable {u : State} {S : Src} {p : Word} (hp : u.sp = p)
include hp

section
variable {lane : WordLane} {x : Word} (hx : srcWord u lane S = .ok x)
include hx

/-- A push of a word stores the value read before `sp` moved (R190, R191). -/
theorem pushWord_of_fits (hnew : (p - 4).toNat + 4 ≤ u.params.memSize) :
    pushWord lane u S = .ok { u.setSp (p - 4) with
      mem := u.mem.writeWord u.params.byteOrder (p - 4).toNat x } := by
  subst hp
  exact pushWord_ok.2 ⟨x, hx, State.inRange_iff.2 hnew, rfl⟩

/-- A pop of a word is the implicit write of the word at the old top, with `sp` past it (R193, R194). -/
theorem popWord_of_fits (hold : p.toNat + 4 ≤ u.params.memSize) :
    popWord lane u S = implicitWriteWord (u.setSp (p + 4)) S
      (u.mem.readWord u.params.byteOrder p.toNat) := by
  subst hp
  have hv := State.memReadWord_ok.2 ⟨State.inRange_iff.2 hold, rfl⟩
  simp only [popWord, hx, hv, bind, Except.bind]

/-- A duplicate of a word is the implicit write of the word at the old top, with the word stored at the
new one (R196, R197). -/
theorem dupWord_of_fits (hold : p.toNat + 4 ≤ u.params.memSize)
    (hnew : (p - 4).toNat + 4 ≤ u.params.memSize) {v : Word}
    (hv : v = u.mem.readWord u.params.byteOrder p.toNat) :
    dupWord lane u S = implicitWriteWord { u.setSp (p - 4) with
      mem := u.mem.writeWord u.params.byteOrder (p - 4).toNat v } S v := by
  subst hp
  have hread := State.memReadWord_ok.2 ⟨State.inRange_iff.2 hold, hv⟩
  have hstore := (State.memWriteWord_ok (s := u.setSp (u.sp - 4)) (v := v)).2
    ⟨State.inRange_iff.2 hnew, rfl⟩
  simp only [dupWord, hx, hread, State.x_setX_self, hstore, bind, Except.bind, State.setX_mem,
    State.setX_params]

end

section
variable {x : Byte} (hx : srcByte u S = .ok x)
include hx

/-- A push of a byte stores the value read before `sp` moved (R192). -/
theorem pushByte_of_fits (hnew : (p - 1).toNat + 1 ≤ u.params.memSize) :
    pushByte u S = .ok { u.setSp (p - 1) with mem := u.mem.write (p - 1).toNat x } := by
  subst hp
  exact pushByte_ok.2 ⟨x, hx, State.inRange_iff.2 hnew, rfl⟩

/-- A pop of a byte is the implicit write of the byte at the old top, with `sp` past it (R195). -/
theorem popByte_of_fits (hold : p.toNat + 1 ≤ u.params.memSize) :
    popByte u S = implicitWriteByte (u.setSp (p + 1)) S (u.mem.read p.toNat) := by
  subst hp
  have hv := State.memReadByte_ok.2 ⟨State.inRange_iff.2 hold, rfl⟩
  simp only [popByte, hx, hv, bind, Except.bind]

/-- A duplicate of a byte is the implicit write of the byte at the old top, with the byte stored at the
new one (R198). -/
theorem dupByte_of_fits (hold : p.toNat + 1 ≤ u.params.memSize)
    (hnew : (p - 1).toNat + 1 ≤ u.params.memSize) {v : Byte} (hv : v = u.mem.read p.toNat) :
    dupByte u S = implicitWriteByte
      { u.setSp (p - 1) with mem := u.mem.write (p - 1).toNat v } S v := by
  subst hp
  have hread := State.memReadByte_ok.2 ⟨State.inRange_iff.2 hold, hv⟩
  have hstore := (State.memWriteByte_ok (s := u.setSp (u.sp - 1)) (v := v)).2
    ⟨State.inRange_iff.2 hnew, rfl⟩
  simp only [dupByte, hx, hread, State.x_setX_self, hstore, bind, Except.bind, State.setX_mem]

end

end

/-! ### The instructions -/

/-- Settles O28: the fetch increment leaves `sp`, and the body stores what it read below it. -/
theorem pushesComplete : Obligations.PushesComplete := by
  intro s a S ha
  refine ⟨fun hnew => ⟨fun v hv => ?pushi, fun v hv => ?pushf⟩, fun hnew v hv => ?pushb⟩
  case pushi | pushf => exact class1_eq_next_of_ok ha (pushWord_of_fits s.postFetch_sp hv hnew)
  case pushb => exact class1_eq_next_of_ok ha (pushByte_of_fits s.postFetch_sp hv hnew)

/-- Settles O29: a pop is its implicit write, made with `sp` already past the datum. -/
theorem popsComplete : Obligations.PopsComplete := by
  intro s a S ha
  refine ⟨fun hold => ⟨fun x hx => ?popi, fun x hx => ?popf⟩, fun hold x hx => ?popb⟩
  case popi | popf =>
    exact class1_eq_next_of_implicitWriteWord ha (popWord_of_fits s.postFetch_sp hx hold)
  case popb => exact class1_eq_next_of_implicitWriteByte ha (popByte_of_fits s.postFetch_sp hx hold)

/-- Settles O30: a duplicate is its implicit write, made with the datum already stored at the new top. -/
theorem duplicatesComplete : Obligations.DuplicatesComplete := by
  intro s a S ha
  refine ⟨?words, ?bytes⟩
  case words =>
    rintro hold hnew v _ hv rfl
    refine ⟨fun x hx => ?dupi, fun x hx => ?dupf⟩
    case dupi | dupf =>
      exact class1_eq_next_of_implicitWriteWord ha (dupWord_of_fits s.postFetch_sp hx hold hnew hv)
  case bytes =>
    rintro hold hnew v _ hv rfl x hx
    exact class1_eq_next_of_implicitWriteByte ha (dupByte_of_fits s.postFetch_sp hx hold hnew hv)

/-! ### A pop undoes a push -/

section
variable {s : State} {a : Arg2} {S : Src} (hs : s.mem.wf = true) (ha : resolve2 a = .ok S)
include hs ha

/-- After PUSHI the top of the stack, four bytes lower, holds the word pushed, in either byte order. -/
theorem exec_pushi_top {v : Word} (hv : srcWord s.postFetch .int S = .ok v)
    (hnew : (s.sp - 4).toNat + 4 ≤ s.params.memSize) :
    ∃ t, exec (.pushi a) s = .next t ∧ t.status = s.status ∧ t.params = s.params ∧
      t.sp = s.sp - 4 ∧ t.mem.readWord t.params.byteOrder (s.sp - 4).toNat = v :=
  ⟨_, ((pushesComplete s a S ha).1 hnew).1 v hv, rfl, rfl, State.x_setX_self _ _ _,
    Memory.readWord_writeWord _ _ _ v hs⟩

/-- After PUSHB the top of the stack, one byte lower, holds the byte pushed. -/
theorem exec_pushb_top {v : Byte} (hv : srcByte s.postFetch S = .ok v)
    (hnew : (s.sp - 1).toNat + 1 ≤ s.params.memSize) :
    ∃ t, exec (.pushb a) s = .next t ∧ t.status = s.status ∧ t.params = s.params ∧
      t.sp = s.sp - 1 ∧ t.mem.read (s.sp - 1).toNat = v :=
  ⟨_, (pushesComplete s a S ha).2 hnew v hv, rfl, rfl, State.x_setX_self _ _ _,
    (Memory.read_write_of_wf _ hs _ v).trans (if_pos rfl)⟩

end

section
variable {t : State} {i : BitVec 19} {r : RegIdx} {p : Word} (hi : resolve2 (.reg i) = .ok (.reg r))
  (hr : r ≠ RegIdx.sp) (hp : t.sp = p)
include hi hr hp

/-- POPI into a register other than `sp` leaves the word at the old top in it, and `sp` past the word. -/
theorem exec_popi_reg (hold : p.toNat + 4 ≤ t.params.memSize) :
    ∃ u, exec (.popi (.reg i)) t = .next u ∧ u.status = t.status ∧
      u.x r = t.mem.readWord t.params.byteOrder p.toNat ∧ u.sp = p + 4 := by
  subst hp
  obtain ⟨hpopi, -⟩ := (popsComplete t (.reg i) (.reg r) hi).1 hold
  refine ⟨_, (hpopi _ rfl).2 (.reg r) rfl rfl, rfl, State.x_setX_self _ _ _, ?_⟩
  exact (State.x_setX_ne _ _ _ _ hr.symm).trans (State.x_setX_self _ _ _)

/-- POPB into a register other than `sp` leaves the byte at the old top in it, sign-extended, and `sp`
past the byte. -/
theorem exec_popb_reg (hold : p.toNat + 1 ≤ t.params.memSize) :
    ∃ u, exec (.popb (.reg i)) t = .next u ∧ u.status = t.status ∧
      u.x r = (t.mem.read p.toNat).signExtend 32 ∧ u.sp = p + 1 := by
  subst hp
  have hpopb := (popsComplete t (.reg i) (.reg r) hi).2 hold
  refine ⟨_, (hpopb _ rfl).2 (.reg r) rfl rfl, rfl, State.x_setX_self _ _ _, ?_⟩
  exact (State.x_setX_ne _ _ _ _ hr.symm).trans (State.x_setX_self _ _ _)

end

/-- Settles O31: the pop reads the slot the push wrote, and `sp` rises by the width it fell by. -/
theorem pushThenPopRestores : Obligations.PushThenPopRestores := by
  intro s a S i r hs ha hi hr
  refine ⟨fun v hv hnew => ?words, fun v hv hnew => ?bytes⟩
  case words =>
    obtain ⟨t, hpush, hstatus, hparams, hsp, htop⟩ := exec_pushi_top hs ha hv hnew
    obtain ⟨u, hpop, hstatus', hx, hsp'⟩ := exec_popi_reg hi hr hsp (hparams ▸ hnew)
    exact ⟨t, u, hpush, hpop, hstatus'.trans hstatus, hx.trans htop,
      hsp'.trans (BitVec.sub_add_cancel _ _)⟩
  case bytes =>
    obtain ⟨t, hpush, hstatus, hparams, hsp, htop⟩ := exec_pushb_top hs ha hv hnew
    obtain ⟨u, hpop, hstatus', hx, hsp'⟩ := exec_popb_reg hi hr hsp (hparams ▸ hnew)
    exact ⟨t, u, hpush, hpop, hstatus'.trans hstatus, htop ▸ hx,
      hsp'.trans (BitVec.sub_add_cancel _ _)⟩

end Sys2Proof.Machine
end

section
/-! The compare-skips, JMP, CALL and RET complete (43_control.md R210 to R218): what each leaves of the state
before the fetch increment, and the words of JMP, CALL and RET under the spec's opcode map. -/

namespace Sys2Proof

/-! ### The jump layout and the opcode field as bits of a word -/

/-- The jump layout is the opcode number above bit 26 joined with the target (R96). -/
theorem encJmp_eq_or (op : BitVec 6) (t : BitVec 24) :
    encJmp op t = op.setWidth 32 <<< 26 ||| t.setWidth 32 := by
  have hop := op.isLt
  have ht := t.isLt
  have hhigh : (op.setWidth 32 <<< 26).toNat = op.toNat <<< 26 := by
    rw [BitVec.toNat_shiftLeft, BitVec.toNat_setWidth, Nat.shiftLeft_eq, Nat.shiftLeft_eq]
    omega
  have hlow : (t.setWidth 32).toNat = t.toNat := BitVec.toNat_setWidth_of_le (by decide)
  apply BitVec.eq_of_toNat_eq
  rw [encJmp_toNat, BitVec.toNat_or, hhigh, hlow, ← Nat.shiftLeft_add_eq_or_of_lt (by omega),
    Nat.shiftLeft_eq]

/-- The opcode bits of a word, at their place, give its opcode whatever stands below them (R88). -/
theorem decOpcode_of_and_opcode {w : Word} {n : BitVec 6}
    (h : w &&& 0xFC000000#32 = n.setWidth 32 <<< 26) : decOpcode w = n := by
  have hn := n.isLt
  have hw := w.isLt
  have hnat := congrArg BitVec.toNat h
  rw [and_opcode_toNat, BitVec.toNat_shiftLeft, BitVec.toNat_setWidth, Nat.shiftLeft_eq] at hnat
  apply BitVec.eq_of_toNat_eq
  rw [decOpcode_toNat]
  omega

/-- A word decodes by its opcode bits and by the operands its row's class reads, so the bits that class
leaves unused are ignored (R102). -/
theorem decode_of_and_opcode {m : OpcodeMap} {w : Word} {n : BitVec 6} {row : OpcodeRow} {i : Instr}
    (hat : m.rowAt n = some row) (h : w &&& 0xFC000000#32 = n.setWidth 32 <<< 26)
    (hop : row.op = i.op) (hcls : row.cls = i.op.cls) (hargs : decOperands row.cls w = i.operands) :
    decode m w = .ok i := by
  rw [← decOpcode_of_and_opcode h] at hat
  exact (decode_eq_ok m w i).2 ⟨row, hat, hop, hcls, hargs⟩

/-- An instruction of the jump class is written as its base, the row's number alone, with the target in the
low bits (R96, R97). -/
theorem encode_jump {m : OpcodeMap} {row : OpcodeRow} {i : Instr} {t : BitVec 24} {base : Word}
    (hof : m.rowOf i.op = some row) (hcls : row.cls = i.op.cls) (hargs : i.operands = .jump t)
    (hbase : row.number.setWidth 32 <<< 26 = base) :
    encode m i = some (base ||| t.setWidth 32) := by
  rw [encode_of_rowOf hof hcls, hargs, ← hbase, ← encJmp_eq_or]
  rfl

/-! ### JMP, CALL and RET in the spec's opcode map (R100), by number and by instruction -/

theorem OpcodeMap.standard_rowAt_jmp :
    OpcodeMap.standard.rowAt 23#6 = some ⟨23, "JMP".toList, .jmp, .jump⟩ := rfl

theorem OpcodeMap.standard_rowAt_call :
    OpcodeMap.standard.rowAt 24#6 = some ⟨24, "CALL".toList, .call, .jump⟩ := rfl

theorem OpcodeMap.standard_rowAt_ret :
    OpcodeMap.standard.rowAt 25#6 = some ⟨25, "RET".toList, .ret, .zero⟩ := rfl

theorem OpcodeMap.standard_rowOf_jmp :
    OpcodeMap.standard.rowOf .jmp = some ⟨23, "JMP".toList, .jmp, .jump⟩ := rfl

theorem OpcodeMap.standard_rowOf_call :
    OpcodeMap.standard.rowOf .call = some ⟨24, "CALL".toList, .call, .jump⟩ := rfl

end Sys2Proof

namespace Sys2Proof.Machine

/-! ### A new `pc` after the fetch increment -/

/-- The write of `pc` replaces the fetch increment. -/
theorem State.postFetch_setPc (s : State) (v : Word) : s.postFetch.setPc v = s.setPc v :=
  s.setX_setX RegIdx.pc _ v

/-- Writes of two cells commute. -/
theorem State.setX_comm (s : State) {i j : RegIdx} (h : i ≠ j) (v w : Word) :
    (s.setX i v).setX j w = (s.setX j w).setX i v := by
  simp only [State.setX, Vector.set_comm v w (Fin.val_ne_of_ne h)]

/-- The write of `pc` replaces the fetch increment, also across a write of another cell. -/
theorem State.postFetch_setX_setPc (s : State) {i : RegIdx} (h : i ≠ RegIdx.pc) (v w : Word) :
    (s.postFetch.setX i v).setPc w = (s.setX i v).setPc w := by
  calc (s.postFetch.setX i v).setPc w
    _ = (s.postFetch.setPc w).setX i v := State.setX_comm _ h v w
    _ = (s.setPc w).setX i v := by rw [s.postFetch_setPc]
    _ = (s.setX i v).setPc w := (State.setX_comm _ h v w).symm

/-! ### The comparisons -/

theorem gtWord_iff {x y : Word} : gtWord x y = true ↔ y.toInt < x.toInt := decide_eq_true_iff
theorem geWord_iff {x y : Word} : geWord x y = true ↔ y.toInt ≤ x.toInt := decide_eq_true_iff
theorem gtByte_iff {x y : Byte} : gtByte x y = true ↔ y.toInt < x.toInt := decide_eq_true_iff
theorem geByte_iff {x y : Byte} : geByte x y = true ↔ y.toInt ≤ x.toInt := decide_eq_true_iff

/-- After the fetch increment a comparison that holds leaves `k + 1`, and one that does not `k + 2`
(R219 (b)). -/
theorem skipUnless_postFetch (s : State) {holds : Bool} {p : Prop} [Decidable p]
    (hp : holds = true ↔ p) :
    skipUnless s.postFetch holds = s.setPc (if p then s.pc + 1 else s.pc + 2) := by
  cases holds with
  | true =>
    rw [if_pos (hp.1 rfl)]
    rfl
  | false =>
    have htwo : s.pc + 1 + 1 = s.pc + 2 := BitVec.add_assoc _ _ _
    rw [if_neg fun h => Bool.false_ne_true (hp.2 h), ← htwo, ← s.postFetch_pc]
    exact s.postFetch_setPc _

section
variable {s : State} {d : Arg1} {a : Arg2} {D : Dst} {S : Src} (hd : resolve1 d = .ok D)
  (ha : resolve2 a = .ok S) {p : Prop} [Decidable p]
include hd ha

/-- A compare-skip of words that reads both operands changes `pc` alone, by the comparison of arg1 with
arg2. -/
theorem class2_compareWord {lane : WordLane} {f : Word → Word → Bool} {b c : Word}
    (hb : srcWord s.postFetch lane S = .ok b) (hc : dstReadWord s.postFetch D = .ok c)
    (hp : f c b = true ↔ p) :
    class2 s d a (compareWord lane f) = .next (s.setPc (if p then s.pc + 1 else s.pc + 2)) :=
  class2_eq_next_of_ok hd ha (compareWord_ok.2 ⟨b, c, hb, hc, (skipUnless_postFetch s hp).symm⟩)

/-- A compare-skip of bytes that reads both operands changes `pc` alone, by the comparison of arg1 with
arg2. -/
theorem class2_compareByte {f : Byte → Byte → Bool} {b c : Byte}
    (hb : srcByte s.postFetch S = .ok b) (hc : dstReadByte s.postFetch D = .ok c)
    (hp : f c b = true ↔ p) :
    class2 s d a (compareByte f) = .next (s.setPc (if p then s.pc + 1 else s.pc + 2)) :=
  class2_eq_next_of_ok hd ha (compareByte_ok.2 ⟨b, c, hb, hc, (skipUnless_postFetch s hp).symm⟩)

end

/-! ### The instructions -/

/-- Settles O32: a skip is the fetch increment made twice, and each comparison is the one of its lane. -/
theorem compareSkipsComplete : Obligations.CompareSkipsComplete := by
  intro s d a D S hd ha
  refine ⟨fun b c hb hc => ⟨?ifi, ?ifei⟩, fun b c hb hc => ⟨?iff, ?ifef⟩,
    fun b c hb hc => ⟨?ifb, ?ifeb⟩⟩
  case ifi => exact class2_compareWord hd ha hb hc gtWord_iff
  case ifei => exact class2_compareWord hd ha hb hc geWord_iff
  case iff | ifef => exact class2_compareWord hd ha hb hc Iff.rfl
  case ifb => exact class2_compareByte hd ha hb hc gtByte_iff
  case ifeb => exact class2_compareByte hd ha hb hc geByte_iff

/-- JMP leaves nothing of the fetch increment (R216). -/
theorem exec_jmp_completes (s : State) (t : BitVec 24) :
    exec (.jmp t) s = .next (s.setPc (t.setWidth 32)) := by
  rw [exec_jmp, ← s.postFetch_setPc]
  exact transact_next.2 (.inl rfl)

/-- CALL keeps the fetch increment in `r` alone (R217). -/
theorem exec_call_completes (s : State) (t : BitVec 24) :
    exec (.call t) s = .next ((s.setX RegIdx.ra (s.pc + 1)).setPc (t.setWidth 32)) := by
  rw [exec_call, ← s.postFetch_setX_setPc (by decide), ← s.postFetch_pc]
  exact transact_next.2 (.inl rfl)

/-- RET reads an `r` the fetch increment left as it was (R218). -/
theorem exec_ret_completes (s : State) : exec .ret s = .next (s.setPc (s.x RegIdx.ra)) := by
  rw [exec_ret, ← s.postFetch_setPc, ← s.postFetch_ra]
  exact transact_next.2 (.inl rfl)

/-- Settles O33: none of the three reads an operand that could fault, and the opcode's row alone says how
the words are written and read. -/
theorem jumpCallReturnComplete : Obligations.JumpCallReturnComplete := by
  intro s w t
  refine ⟨exec_jmp_completes s t, exec_call_completes s t, exec_ret_completes s, ?encJmp, ?encCall,
    rfl, fun h => ?decJmp, fun h => ?decCall, fun h => ?decRet⟩
  case encJmp => exact encode_jump OpcodeMap.standard_rowOf_jmp rfl rfl rfl
  case encCall => exact encode_jump OpcodeMap.standard_rowOf_call rfl rfl rfl
  case decJmp => exact decode_of_and_opcode OpcodeMap.standard_rowAt_jmp h rfl rfl rfl
  case decCall => exact decode_of_and_opcode OpcodeMap.standard_rowAt_call h rfl rfl rfl
  case decRet => exact decode_of_and_opcode OpcodeMap.standard_rowAt_ret h rfl rfl rfl

end Sys2Proof.Machine
end

section
/-! The prints complete (44_print.md R231 to R234): with the operand readable, the event of its value joins the
output stream, over the fetch increment alone. -/

namespace Sys2Proof.Machine

/-- After the fetch increment, a print leaves `pc` advanced and the stream longer by its event (R230). -/
theorem State.postFetch_emit (s : State) (e : OutEvent) :
    s.postFetch.emit e = { s.setPc (s.pc + 1) with out := s.out ++ [e] } := rfl

section
variable {s : State} {a : Arg2} {S : Src} (ha : resolve2 a = .ok S)
include ha

/-- A print in a word lane that reads its operand appends the event of the word (R231, R232). -/
theorem class1_printWord {lane : WordLane} (event : Word → OutEvent) {v : Word}
    (hv : srcWord s.postFetch lane S = .ok v) :
    class1 s a (printWord lane event) =
      .next { s.setPc (s.pc + 1) with out := s.out ++ [event v] } :=
  class1_eq_next_of_ok ha (printWord_ok.2 ⟨v, hv, (s.postFetch_emit _).symm⟩)

/-- A print in the byte lane that reads its operand appends the event of the byte (R233, R234). -/
theorem class1_printByte (event : Byte → OutEvent) {v : Byte}
    (hv : srcByte s.postFetch S = .ok v) :
    class1 s a (printByte event) = .next { s.setPc (s.pc + 1) with out := s.out ++ [event v] } :=
  class1_eq_next_of_ok ha (printByte_ok.2 ⟨v, hv, (s.postFetch_emit _).symm⟩)

end

/-! ### The instructions -/

/-- Settles O34: each print is the print body of its lane, with the event of its kind. -/
theorem printsAppendOneEvent : Obligations.PrintsAppendOneEvent := by
  intro s a S ha
  refine ⟨fun v hv => ?printi, fun v hv => ?printf, fun v hv => ⟨?printb, ?printc⟩⟩
  case printi => exact (exec_printi ..).trans (class1_printWord ha .outI hv)
  case printf => exact (exec_printf ..).trans (class1_printWord ha .outF hv)
  case printb => exact (exec_printb ..).trans (class1_printByte ha .outB hv)
  case printc => exact (exec_printc ..).trans (class1_printByte ha .outC hv)

end Sys2Proof.Machine
end

section
/-! Arithmetic completes (45_arithmetic.md R240 to R259): with both operands readable, and a divisor that is
not zero, the destination holds the result of its lane, with the destination's old value as left operand. -/

namespace Sys2Proof.Machine

/-! ### Divisors and remainders -/

theorem zeroWord_eq_false {b : Word} : zeroWord b = false ↔ b ≠ 0#32 := beq_eq_false_iff_ne

theorem zeroByte_eq_false {b : Byte} : zeroByte b = false ↔ b ≠ 0#8 := beq_eq_false_iff_ne

/-- A float divisor passes the test when it is neither zero (R259). -/
theorem zeroFloat_eq_false {b : Word} :
    zeroFloat b = false ↔ b ≠ 0x00000000#32 ∧ b ≠ 0x80000000#32 := by
  simp [zeroFloat, fIsZero]

/-- What `mod_I` leaves is the remainder of the truncated division (R241). -/
theorem modI_eq_tmod (a b : Word) : modI a b = BitVec.ofInt 32 (a.toInt.tmod b.toInt) := by
  rw [modI, Int.tmod_def]

/-- What `mod_B` leaves is the remainder of the truncated division (R243). -/
theorem modB_eq_tmod (a b : Byte) : modB a b = BitVec.ofInt 8 (a.toInt.tmod b.toInt) := by
  rw [modB, Int.tmod_def]

/-! ### The pattern of a NaN result (R242 (d)) -/

/-- Bits joined with a mask of all exponent bits are a NaN when some fraction bit is left. -/
theorem fIsNan_or {v m : Word} (hexp : m.extractLsb' 23 8 = 0xFF#8)
    (hfrac : v.extractLsb' 0 23 ||| m.extractLsb' 0 23 ≠ 0#23) : fIsNan (v ||| m) = true := by
  rw [← BitVec.extractLsb'_or] at hfrac
  have hexp' : fExp (v ||| m) = 255 := by
    rw [fExp, BitVec.extractLsb'_or, hexp]
    exact congrArg BitVec.toNat BitVec.or_allOnes
  have hfrac' : fFrac (v ||| m) ≠ 0 := fun h => hfrac (BitVec.eq_of_toNat_eq h)
  simp [fIsNan, hexp', hfrac']

/-- Whatever the free bits, the exponent is all ones; the fraction is theirs when it is not zero, and the
canonical NaN's otherwise. -/
theorem fIsNan_nanPattern (v : Word) : fIsNan (nanPattern v) = true := by
  unfold nanPattern
  split
  case isTrue hzero => exact fIsNan_or rfl (by rw [hzero]; decide)
  case isFalse hne =>
    have hmask : (0x7F800000#32).extractLsb' 0 23 = 0#23 := rfl
    exact fIsNan_or rfl (by rwa [hmask, BitVec.or_zero])

/-- A float result stored after the fetch increment is the outcome asked for: the result itself, the
canonical NaN, or a drawn one. -/
theorem floatOutcome_storedWord (s : State) (D : Dst) (r : Option Word) :
    floatOutcome s D r
      (.next (storedWord (floatResult s.postFetch r).2 D (floatResult s.postFetch r).1)) := by
  cases r with
  | some v => rfl
  | none =>
    cases hn : s.params.nanResult with
    | canonical =>
      simp only [floatOutcome, hn, floatResult, s.postFetch.drawNan_canonical hn]
      rfl
    | any =>
      simp only [floatOutcome, hn, floatResult, s.postFetch.drawNan_any hn]
      exact ⟨_, fIsNan_nanPattern _, rfl⟩

/-! ### The arithmetic bodies, on operands that can be read -/

section
variable {s : State} {d : Arg1} {a : Arg2} {D : Dst} {S : Src} (hd : resolve1 d = .ok D)
  (ha : resolve2 a = .ok S)
include hd ha

section
variable {b c : Word} (hb : srcWord s.postFetch .int S = .ok b) (hc : dstReadWord s.postFetch D = .ok c)
include hb hc

/-- A read-modify-write in the integer lane stores its operation's result (R240). -/
theorem class2_modifyWord (f : Word → Word → Word) :
    class2 s d a (modifyWord f) = .next (storedWord s.postFetch D (f c b)) :=
  class2_eq_next_of_ok hd ha (modifyWord_ok.2 ⟨b, c, hb, hc, rfl⟩)

/-- A division in the integer lane completes for a divisor that is not zero (R259). -/
theorem class2_divideWord (f : Word → Word → Word) (hne : b ≠ 0#32) :
    class2 s d a (divideWord f) = .next (storedWord s.postFetch D (f c b)) :=
  class2_eq_next_of_ok hd ha (divideWord_ok.2 ⟨b, c, hb, hc, zeroWord_eq_false.2 hne, rfl⟩)

end

section
variable {b c : Byte} (hb : srcByte s.postFetch S = .ok b) (hc : dstReadByte s.postFetch D = .ok c)
include hb hc

/-- A read-modify-write in the byte lane stores its operation's result (R240). -/
theorem class2_modifyByte (f : Byte → Byte → Byte) :
    class2 s d a (modifyByte f) = .next (storedByte s.postFetch D (f c b)) :=
  class2_eq_next_of_ok hd ha (modifyByte_ok.2 ⟨b, c, hb, hc, rfl⟩)

/-- A division in the byte lane completes for a divisor that is not zero (R259). -/
theorem class2_divideByte (f : Byte → Byte → Byte) (hne : b ≠ 0#8) :
    class2 s d a (divideByte f) = .next (storedByte s.postFetch D (f c b)) :=
  class2_eq_next_of_ok hd ha (divideByte_ok.2 ⟨b, c, hb, hc, zeroByte_eq_false.2 hne, rfl⟩)

end

section
variable {b c : Word} (hb : srcWord s.postFetch .float S = .ok b)
  (hc : dstReadWord s.postFetch D = .ok c)
include hb hc

/-- A float operation stores its result, or the NaN that stands for it (R240, R242 (d)). -/
theorem class2_modifyFloat (f : Word → Word → Option Word) :
    floatOutcome s D (f c b) (class2 s d a (modifyFloat f)) := by
  rw [class2_eq_next_of_ok hd ha (modifyFloat_ok.2 ⟨b, c, hb, hc, rfl⟩)]
  exact floatOutcome_storedWord s D (f c b)

/-- A float division completes for a divisor that is neither zero (R259). -/
theorem class2_divideFloat (f : Word → Word → Option Word) (hpos : b ≠ 0x00000000#32)
    (hneg : b ≠ 0x80000000#32) : floatOutcome s D (f c b) (class2 s d a (divideFloat f)) := by
  have hz : zeroFloat b = false := zeroFloat_eq_false.2 ⟨hpos, hneg⟩
  rw [class2_eq_next_of_ok hd ha (divideFloat_ok.2 ⟨b, c, hb, hc, hz, rfl⟩)]
  exact floatOutcome_storedWord s D (f c b)

end

end

/-! ### The instructions -/

/-- Settles O35: each instruction is the read-modify-write of its lane, by the lane's own operation. -/
theorem addSubMulComplete : Obligations.AddSubMulComplete := by
  intro s d a D S hd ha
  refine ⟨fun b c hb hc => ⟨?addi, ?subi, ?muli⟩, fun b c hb hc => ⟨?addb, ?subb, ?mulb⟩⟩
  case addi => exact class2_modifyWord hd ha hb hc addI
  case subi => exact class2_modifyWord hd ha hb hc subI
  case muli => exact class2_modifyWord hd ha hb hc mulI
  case addb => exact class2_modifyByte hd ha hb hc addB
  case subb => exact class2_modifyByte hd ha hb hc subB
  case mulb => exact class2_modifyByte hd ha hb hc mulB

/-- Settles O36: a divisor that is not zero passes the test, and the remainder is the truncated one. -/
theorem divModComplete : Obligations.DivModComplete := by
  intro s d a D S hd ha
  refine ⟨fun b c hb hc hne => ⟨?divi, ?modi⟩, fun b c hb hc hne => ⟨?divb, ?modb⟩⟩
  case divi => exact class2_divideWord hd ha hb hc divI hne
  case modi =>
    rw [← modI_eq_tmod]
    exact class2_divideWord hd ha hb hc modI hne
  case divb => exact class2_divideByte hd ha hb hc divB hne
  case modb =>
    rw [← modB_eq_tmod]
    exact class2_divideByte hd ha hb hc modB hne

/-- Settles O39: each instruction stores its float result, whose NaN is the one NAN_RESULT asks for. -/
theorem floatArithmeticCompletes : Obligations.FloatArithmeticCompletes := by
  intro s d a D S b c hd ha hb hc
  refine ⟨?addf, ?subf, ?mulf, fun hpos hneg => ⟨?divf, ?modf⟩⟩
  case addf => exact class2_modifyFloat hd ha hb hc fadd
  case subf => exact class2_modifyFloat hd ha hb hc fsub
  case mulf => exact class2_modifyFloat hd ha hb hc fmul
  case divf => exact class2_divideFloat hd ha hb hc fdiv hpos hneg
  case modf => exact class2_divideFloat hd ha hb hc frem hpos hneg

end Sys2Proof.Machine
end

section
/-! The bitwise instructions and the shifts complete (46_bitwise.md R270 to R285): OR, AND, XOR and the shifts
are the read-modify-write of their lane, and NOT, which reads no destination, needs only one that fits. -/

namespace Sys2Proof.Machine

/-! ### The shift amount: the low 5 bits of arg2 are its remainder by 32 (the spec's own decision D16) -/

theorem amtWord_eq_mod (b : Word) : amtWord b = b.toNat % 32 := BitVec.extractLsb'_toNat 0 5 b

theorem amtByte_eq_mod (b : Byte) : amtByte b = b.toNat % 32 := BitVec.extractLsb'_toNat 0 5 b

/-! ### The complement, on an operand that can be read and a destination that fits -/

section
variable {s : State} {d : Arg1} {a : Arg2} {D : Dst} {S : Src} (hd : resolve1 d = .ok D)
  (ha : resolve2 a = .ok S)
include hd ha

/-- NOT in the integer lane stores arg2's complement (R278). -/
theorem class2_complementWord {b : Word} (hb : srcWord s.postFetch .int S = .ok b)
    (hD : dstFits s.postFetch D 4 = true) :
    class2 s d a complementWord = .next (storedWord s.postFetch D (~~~b)) :=
  class2_eq_next_of_ok hd ha (complementWord_ok.2 ⟨b, hb, hD, rfl⟩)

/-- NOT in the byte lane stores arg2's complement (R279). -/
theorem class2_complementByte {b : Byte} (hb : srcByte s.postFetch S = .ok b)
    (hD : dstFits s.postFetch D 1 = true) :
    class2 s d a complementByte = .next (storedByte s.postFetch D (~~~b)) :=
  class2_eq_next_of_ok hd ha (complementByte_ok.2 ⟨b, hb, hD, rfl⟩)

end

/-! ### The instructions -/

/-- Settles O44: OR, AND and XOR are the read-modify-write of their lane, and NOT its complement. -/
theorem bitwiseComplete : Obligations.BitwiseComplete := by
  intro s d a D S hd ha
  refine ⟨fun b c hb hc => ⟨?ori, ?andi, ?xori⟩, fun b c hb hc => ⟨?orb, ?andb, ?xorb⟩,
    fun b hb hD => ?noti, fun b hb hD => ?notb⟩
  case ori => exact class2_modifyWord hd ha hb hc (· ||| ·)
  case andi => exact class2_modifyWord hd ha hb hc (· &&& ·)
  case xori => exact class2_modifyWord hd ha hb hc (· ^^^ ·)
  case orb => exact class2_modifyByte hd ha hb hc (· ||| ·)
  case andb => exact class2_modifyByte hd ha hb hc (· &&& ·)
  case xorb => exact class2_modifyByte hd ha hb hc (· ^^^ ·)
  case noti => exact class2_complementWord hd ha hb hD
  case notb => exact class2_complementByte hd ha hb hD

/-- Settles O45: each shift is the read-modify-write of its lane, by the amount arg2's low 5 bits give. -/
theorem shiftsComplete : Obligations.ShiftsComplete := by
  intro s d a D S hd ha
  refine ⟨fun b c hb hc => ?word, fun b c hb hc => ?byte⟩
  case word =>
    rw [← amtWord_eq_mod]
    exact ⟨class2_modifyWord hd ha hb hc shruI, class2_modifyWord hd ha hb hc shrsI,
      class2_modifyWord hd ha hb hc shlI⟩
  case byte =>
    rw [← amtByte_eq_mod]
    exact ⟨class2_modifyByte hd ha hb hc shruB, class2_modifyByte hd ha hb hc shrsB,
      class2_modifyByte hd ha hb hc shlB⟩

end Sys2Proof.Machine
end

section
/-! The fetch that gives no instruction: a `pc` with bit 31 set, a `pc` past the end of the program, and a word
whose opcode the map assigns to no instruction (40_operands.md R140, R141, 30_encoding.md R103). -/

namespace Sys2Proof.Machine

section
variable {s : State}

theorem fetchInstr_of_msb (hm : s.pc.msb = true) :
    s.fetchInstr = .error (s.raise (.fetchOutOfRange s.pc)) := by
  simp [State.fetchInstr, hm]

theorem fetchInstr_of_pastEnd (hm : s.pc.msb = false) (hl : s.prog.imem.length ≤ s.pc.toNat) :
    s.fetchInstr = .error s.halt := by
  simp [State.fetchInstr, hm, List.getElem?_eq_none hl]

theorem fetchInstr_of_unassigned {w : Word} (hm : s.pc.msb = false)
    (hw : s.prog.imem[s.pc.toNat]? = some w) (ho : s.params.opcodes.opAt (decOpcode w) = none) :
    s.fetchInstr = .error (s.raise (.unrecognizedOpcode w)) := by
  have hd := (decode_eq_error s.params.opcodes w).2 ho
  simp only [State.fetchInstr, hm, hw, hd]
  rfl

end

/-- Settles O7: the sign of `pc` is its bit 31, and a `pc` that is not negative is its own number. -/
theorem fetchOutsideProgramHaltsOrFaults : Obligations.FetchOutsideProgramHaltsOrFaults := by
  intro s hs
  refine ⟨fun hneg => ?below, fun hlen => ?pastEnd⟩
  case below =>
    have hm : s.pc.msb = true := by simpa only [BitVec.msb_eq_toInt, decide_eq_true_eq] using hneg
    exact step_of_fetchInstr_error hs (fetchInstr_of_msb hm)
  case pastEnd =>
    have hm : s.pc.msb = false := by
      simp only [BitVec.msb_eq_toInt, decide_eq_false_iff_not]
      omega
    rw [BitVec.toInt_eq_toNat_of_msb hm] at hlen
    exact step_of_fetchInstr_error hs (fetchInstr_of_pastEnd hm (Int.ofNat_le.1 hlen))

/-- The spec's table assigns the numbers 0 to 58 and no others (R103). -/
theorem standard_opAt_eq_none (n : BitVec 6) : OpcodeMap.standard.opAt n = none ↔ 59 ≤ n.toNat := by
  revert n
  decide

/-- Settles O8: the fetch of a word that decodes to no instruction raises the fault. -/
theorem unassignedOpcodeFaults : Obligations.UnassignedOpcodeFaults :=
  ⟨fun _ _ hs hm hw ho => step_of_fetchInstr_error hs (fetchInstr_of_unassigned hm hw ho),
    fun w => standard_opAt_eq_none (decOpcode w)⟩

end Sys2Proof.Machine
end

section
/-! What a launch asks for, and the invariant it starts from (70_reset_and_hazards.md R331, 20_memory.md R66). -/

namespace Sys2Proof.Machine

/-- Settles O57: an accepted launch passes each check in turn. -/
theorem launchRequirements : Obligations.LaunchRequirements := by
  intro p a
  simp only [launch_ok, exists_and_left, exists_eq, and_true, and_assoc]

theorem writeBytes_wf {m : Memory} (hm : m.wf = true) (a : Nat) (bs : List Byte) :
    (writeBytes m a bs).wf = true := by
  induction bs generalizing m a with
  | nil => exact hm
  | cons b bs ih => exact ih (Memory.write_wf m a b hm) (a + 1)

theorem writeBytes_below {m : Memory} {n a : Nat} (hm : m.below n) {bs : List Byte}
    (hn : a + bs.length ≤ n) : (writeBytes m a bs).below n := by
  induction bs generalizing m a with
  | nil => exact hm
  | cons b bs ih =>
    simp only [List.length_cons] at hn
    exact ih (Memory.write_below b hm (by omega)) (by omega)

/-- Memory that lists nothing is canonical. -/
theorem Memory.wf_nil : Memory.wf [] = true := rfl

theorem Artifact.image_wf (p : Artifact) (o : ByteOrder) : (p.image o).wf = true := by
  rw [p.image_eq_writeBytes]
  exact writeBytes_wf Memory.wf_nil _ _

/-- The image lists no address from HEAP_START on (R66). -/
theorem Artifact.image_below (p : Artifact) (o : ByteOrder) {n : Nat} (hn : p.heapStart ≤ n) :
    (p.image o).below n := by
  rw [p.image_eq_writeBytes]
  exact writeBytes_below (fun _ hc => by cases hc) (by rw [p.length_imageBytes]; omega)

/-- Settles O49: the image is written byte by byte below HEAP_START, which an accepted launch has in memory. -/
theorem launchHasInvariant : Obligations.LaunchHasInvariant := by
  intro p a s h
  obtain ⟨hsized, hfit, -, -, -, -, -, rfl⟩ := launch_ok.1 h
  exact State.inv_of_running rfl (a.image_wf _) (a.image_below _ hfit) hsized

end Sys2Proof.Machine
end

section
/-! Faults are precise and terminal (60_exceptions.md R301, R312). -/

namespace Sys2Proof.Machine

/-- A faulted state answers the model's own fault, and so no next state. -/
theorem step_ne_next_of_faulted {t : State} {c : Cause} {k : Word} (ht : t.status = .faulted c k)
    (u : State) : step t ≠ .next u := by
  simp [step, ht]

/-- A step that ends in a fault is the raising of that fault: its updates and a halt leave other statuses. -/
theorem eq_raise_of_step_faulted {s t : State} {c : Cause} {k : Word} (h : step s = .next t)
    (ht : t.status = .faulted c k) : t = s.raise c ∧ k = s.pc := by
  obtain ⟨hs, hu | ⟨c', rfl⟩ | ⟨rfl, -, -⟩⟩ := step_cases h
  · rw [hu.status_eq, State.postFetch_status, hs] at ht
    cases ht
  · cases ht
    exact ⟨rfl, rfl⟩
  · cases ht

/-- Settles O10: the fault is raised from the state before the step, and its status lets no step follow. -/
theorem faultsArePrecise : Obligations.FaultsArePrecise := by
  intro s t c k h ht
  obtain ⟨hraise, hk⟩ := eq_raise_of_step_faulted h ht
  exact ⟨hk, hraise, step_ne_next_of_faulted ht⟩

end Sys2Proof.Machine
end

section
/-! The unused bits of a word (the spec's own decision D4): a class uses the opcode and the low bits of its
operand fields, and the encoder's layouts write exactly those bits of a word back. -/

namespace Sys2Proof

/-- How many low bits of a word the operand fields of a class take up. -/
def OpClass.operandBits : OpClass → Nat
  | .zero => 0
  | .one => 21
  | .two => 26
  | .jump => 24

/-- The used bits of a class are those of the opcode and of its operand fields (R102). -/
theorem usedBits_eq (c : OpClass) :
    Machine.usedBits c = 0xFC000000#32 ||| BitVec.ofNat 32 (2 ^ c.operandBits - 1) := by
  cases c <;> decide

theorem toNat_and_usedBits (w : Word) (c : OpClass) :
    (w &&& Machine.usedBits c).toNat = w.toNat / 2 ^ 26 * 2 ^ 26 + w.toNat % 2 ^ c.operandBits := by
  rw [usedBits_eq, and_opcode_or_toNat w _ (by cases c <;> decide),
    and_low_toNat w _ (by cases c <;> decide)]

@[simp] theorem addrFlag_mkArg1 (a : Bool) (i : BitVec 4) : (mkArg1 a i).addrFlag = a := by
  cases a <;> rfl

@[simp] theorem value_mkArg1 (a : Bool) (i : BitVec 4) : (mkArg1 a i).value = i := by
  cases a <;> rfl

@[simp] theorem regFlag_mkArg2 (g f : Bool) (v : BitVec 19) : (mkArg2 g f v).regFlag = g := by
  cases g <;> cases f <;> rfl

@[simp] theorem addrFlag_mkArg2 (g f : Bool) (v : BitVec 19) : (mkArg2 g f v).addrFlag = f := by
  cases g <;> cases f <;> rfl

@[simp] theorem value_mkArg2 (g f : Bool) (v : BitVec 19) : (mkArg2 g f v).value = v := by
  cases g <;> cases f <;> rfl

/-- A word's opcode and the operands of its class, encoded again, are the word without its unused bits. -/
theorem encOperands_decOperands (w : Word) (c : OpClass) :
    encOperands (decOpcode w) (decOperands c w) = w &&& Machine.usedBits c := by
  apply BitVec.eq_of_toNat_eq
  have hw := w.isLt
  rw [toNat_and_usedBits]
  cases c with
  | zero =>
    simp only [encOperands, decOperands, encStd_toNat, decOpcode_toNat, OpClass.operandBits,
      Bool.toNat_false, BitVec.ofNat_eq_ofNat, BitVec.toNat_zero]
    omega
  | one =>
    simp only [encOperands, decOperands, decArg2, regFlag_mkArg2, addrFlag_mkArg2, value_mkArg2,
      encStd_toNat, decOpcode_toNat, decArg2Reg_toNat, decArg2Addr_toNat, decArg2Value_toNat,
      OpClass.operandBits, Bool.toNat_false, BitVec.ofNat_eq_ofNat, BitVec.toNat_zero]
    omega
  | two =>
    simp only [encOperands, decOperands, decArg1, decArg2, addrFlag_mkArg1, value_mkArg1, regFlag_mkArg2,
      addrFlag_mkArg2, value_mkArg2, encStd_fields, OpClass.operandBits]
    omega
  | jump =>
    simp only [encOperands, decOperands, encJmp_toNat, decOpcode_toNat, decImm24_toNat,
      OpClass.operandBits]
    omega

/-- A row found for a number is a row of the map and has that number. -/
theorem OpcodeMap.rowAt_eq_some {m : OpcodeMap} {n : BitVec 6} {row : OpcodeRow}
    (h : m.rowAt n = some row) : row ∈ m ∧ row.number = n :=
  ⟨List.mem_of_find?_eq_some h, eq_of_beq (List.find?_some h :)⟩

/-- Under an injective map a decoded instruction is encoded as the used bits of its word. -/
theorem encode_of_decode {m : OpcodeMap} {w : Word} {i : Instr} (hm : m.injective = true)
    (h : decode m w = .ok i) : encode m i = some (w &&& Machine.usedBits i.op.cls) := by
  obtain ⟨row, hat, hop, hcls, hargs⟩ := (decode_eq_ok m w i).1 h
  obtain ⟨hmem, hnum⟩ := OpcodeMap.rowAt_eq_some hat
  have hof : m.rowOf i.op = some row := hop ▸ OpcodeMap.rowOf_op (m.injective_iff.1 hm).2 hmem
  refine encode_eq_some.2 ⟨row, hof, hcls, ?_⟩
  rw [hnum, ← hargs, hcls, encOperands_decOperands]

/-- Settles O3: the canonical word is the instruction's encoding, which decodes to it. -/
theorem unusedBitsAreIgnored : Obligations.UnusedBitsAreIgnored := by
  intro m w i hm h
  have henc := encode_of_decode hm h
  exact ⟨henc, decode_of_encode hm henc⟩

end Sys2Proof
end

section
/-! The source operand in its four forms (40_operands.md R146): a constant is the datum at its address, or the
fault of an index the table does not hold. -/

namespace Sys2Proof.Machine

section
variable {u : State} {k : BitVec 19}

theorem State.constAddr_of_beyond (hk : u.prog.cat.length ≤ k.toNat) :
    u.constAddr k = .error (.constantIndexOutOfRange k) := by
  simp only [State.constAddr, List.getElem?_eq_none hk]

theorem srcWord_const {p : Word} (hp : u.prog.cat[k.toNat]? = some p) (lane : WordLane) :
    srcWord u lane (.const k) = u.memReadWord p := by
  simp only [srcWord, State.constAddr_of_getElem? hp, bind, Except.bind]

theorem srcByte_const {p : Word} (hp : u.prog.cat[k.toNat]? = some p) :
    srcByte u (.const k) = u.memReadByte p := by
  simp only [srcByte, State.constAddr_of_getElem? hp, bind, Except.bind]

theorem srcWord_const_of_beyond (hk : u.prog.cat.length ≤ k.toNat) (lane : WordLane) :
    srcWord u lane (.const k) = .error (.constantIndexOutOfRange k) :=
  bind_eq_error.2 (.inl (State.constAddr_of_beyond hk))

theorem srcByte_const_of_beyond (hk : u.prog.cat.length ≤ k.toNat) :
    srcByte u (.const k) = .error (.constantIndexOutOfRange k) :=
  bind_eq_error.2 (.inl (State.constAddr_of_beyond hk))

end

/-- Settles O23: the form CONST looks its address up in the table, and the others read as they stand. -/
theorem sourceOperandForms : Obligations.SourceOperandForms :=
  fun _ lane _ _ _ => ⟨rfl, rfl, rfl, rfl, rfl, rfl, fun _ hp => ⟨srcWord_const hp lane, srcByte_const hp⟩,
    fun hk => ⟨srcWord_const_of_beyond hk lane, srcByte_const_of_beyond hk⟩⟩

/-- A source that reads memory faults with its address when the word does not fit (R307). -/
theorem srcWord_error_of_addr {u : State} {S : Src} {p : Word} (hS : srcAddr u S = some p)
    (hp : u.inRange p 4 = false) (lane : WordLane) :
    srcWord u lane S = .error (.memoryAccessOutOfRange p) := by
  cases S with
  | reg r | imm v => cases hS
  | ind r =>
    cases hS
    exact State.memReadWord_error.2 ⟨hp, rfl⟩
  | const k =>
    rw [srcWord_const hS]
    exact State.memReadWord_error.2 ⟨hp, rfl⟩

/-- A source that reads memory faults with its address when the byte does not fit (R307). -/
theorem srcByte_error_of_addr {u : State} {S : Src} {p : Word} (hS : srcAddr u S = some p)
    (hp : u.inRange p 1 = false) : srcByte u S = .error (.memoryAccessOutOfRange p) := by
  cases S with
  | reg r | imm v => cases hS
  | ind r =>
    cases hS
    exact State.memReadByte_error.2 ⟨hp, rfl⟩
  | const k =>
    rw [srcByte_const hS]
    exact State.memReadByte_error.2 ⟨hp, rfl⟩

end Sys2Proof.Machine
end

section
/-! The faults of an instruction's operands, in the order they are met (40_operands.md R145, R151): the register
numbers, the form of a load-constant's arg2, the read of arg2, the access of arg1, and the divisor. -/

namespace Sys2Proof.Machine

/-! ### A transaction whose body faults (60_exceptions.md R301) -/

section
variable {s : State} {d : Arg1} {a : Arg2} {D : Dst} {S : Src} {c : Cause}

theorem transact_of_error {body : State → Except Cause State} (h : body s.postFetch = .error c) :
    transact s body = .next (s.raise c) :=
  transact_next.2 (.inr ⟨c, h, rfl⟩)

section
variable {body : State → Src → Except Cause State}

theorem class1_of_resolve2_error (ha : resolve2 a = .error c) : class1 s a body = .next (s.raise c) :=
  transact_of_error (bind_eq_error.2 (.inl ha))

theorem class1_of_error (ha : resolve2 a = .ok S) (h : body s.postFetch S = .error c) :
    class1 s a body = .next (s.raise c) := by
  rw [class1_resolved ha]
  exact transact_of_error h

end

section
variable {body : State → Dst → Src → Except Cause State}

theorem class2_of_resolve1_error (hd : resolve1 d = .error c) :
    class2 s d a body = .next (s.raise c) :=
  transact_of_error (bind_eq_error.2 (.inl hd))

theorem class2_of_resolve2_error (hd : resolve1 d = .ok D) (ha : resolve2 a = .error c) :
    class2 s d a body = .next (s.raise c) :=
  transact_of_error (bind_eq_error.2 (.inr ⟨D, hd, bind_eq_error.2 (.inl ha)⟩))

theorem class2_of_error (hd : resolve1 d = .ok D) (ha : resolve2 a = .ok S)
    (h : body s.postFetch D S = .error c) : class2 s d a body = .next (s.raise c) := by
  rw [class2_resolved hd ha]
  exact transact_of_error h

end

end

/-! ### Register numbers (R145) -/

theorem regIdx_of_gt {i : BitVec 19} (h : 11 < i.toNat) : regIdx i = .error (.illegalRegister i) :=
  dif_neg (by omega)

theorem resolve1_of_gt {d : Arg1} (h : 11 < d.value.toNat) :
    resolve1 d = .error (.illegalRegister (d.value.setWidth 19)) := by
  have hi : regIdx (d.value.setWidth 19) = .error (.illegalRegister (d.value.setWidth 19)) :=
    regIdx_of_gt (by rwa [BitVec.toNat_setWidth_of_le (by decide)])
  cases d with
  | reg i | ind i => exact congrArg (Except.map _) hi

theorem resolve1_of_le {d : Arg1} (h : d.value.toNat ≤ 11) : ∃ D, resolve1 d = .ok D := by
  have hi := regIdx_setWidth_of_lt (i := d.value) (by omega)
  cases d with
  | reg i | ind i => exact ⟨_, congrArg (Except.map _) hi⟩

theorem resolve2_of_gt {a : Arg2} (ha : a.regFlag = true) (h : 11 < a.value.toNat) :
    resolve2 a = .error (.illegalRegister a.value) := by
  cases a with
  | reg i | ind i => exact congrArg (Except.map _) (regIdx_of_gt h)
  | imm v | const k => cases ha

/-! ### The order of a body's accesses (R151) -/

/-- The body reads arg2 with `src` before it touches anything, and then reads or writes the `n` bytes of
arg1: the first access that faults is the fault of the instruction. -/
structure AccessesInOrder {α : Type} (src : State → Src → Except Cause α) (n : Nat)
    (body : State → Dst → Src → Except Cause State) : Prop where
  src_error : ∀ {u D S c}, src u S = .error c → body u D S = .error c
  dst_error : ∀ {u S v r}, src u S = .ok v → u.inRange (u.x r) n = false →
    body u (.ind r) S = .error (.memoryAccessOutOfRange (u.x r))

/-- A read of arg2 followed by something that starts with an access of arg1. -/
theorem AccessesInOrder.of_bind {α : Type} {src : State → Src → Except Cause α} {n : Nat}
    {body : State → Dst → Src → Except Cause State} {rest : State → Dst → α → Except Cause State}
    (hbody : ∀ u D S, body u D S = src u S >>= rest u D)
    (hrest : ∀ {u r} v, u.inRange (u.x r) n = false →
      rest u (.ind r) v = .error (.memoryAccessOutOfRange (u.x r))) :
    AccessesInOrder src n body where
  src_error h := by
    rw [hbody]
    exact bind_eq_error.2 (.inl h)
  dst_error h hr := by
    rw [hbody]
    exact bind_eq_error.2 (.inr ⟨_, h, hrest _ hr⟩)

section
variable {lane : WordLane} {body : State → Dst → Src → Except Cause State}

theorem AccessesInOrder.of_readWord {f : State → Dst → Word → Word → Except Cause State}
    (hbody : ∀ u D S, body u D S = srcWord u lane S >>= fun b => dstReadWord u D >>= f u D b) :
    AccessesInOrder (srcWord · lane) 4 body :=
  .of_bind hbody fun _ hr => bind_eq_error.2 (.inl (State.memReadWord_error.2 ⟨hr, rfl⟩))

theorem AccessesInOrder.of_writeWord {f : Word → Word}
    (hbody : ∀ u D S, body u D S = srcWord u lane S >>= fun b => dstWriteWord u D (f b)) :
    AccessesInOrder (srcWord · lane) 4 body :=
  .of_bind hbody fun _ hr => State.memWriteWord_error.2 ⟨hr, rfl⟩

theorem AccessesInOrder.of_readByte {f : State → Dst → Byte → Byte → Except Cause State}
    (hbody : ∀ u D S, body u D S = srcByte u S >>= fun b => dstReadByte u D >>= f u D b) :
    AccessesInOrder srcByte 1 body :=
  .of_bind hbody fun _ hr => bind_eq_error.2 (.inl (State.memReadByte_error.2 ⟨hr, rfl⟩))

theorem AccessesInOrder.of_writeByte {f : Byte → Byte}
    (hbody : ∀ u D S, body u D S = srcByte u S >>= fun b => dstWriteByte u D (f b)) :
    AccessesInOrder srcByte 1 body :=
  .of_bind hbody fun _ hr => State.memWriteByte_error.2 ⟨hr, rfl⟩

end

theorem modifyWord_inOrder (f : Word → Word → Word) :
    AccessesInOrder (srcWord · .int) 4 (modifyWord f) := .of_readWord fun _ _ _ => rfl

theorem modifyByte_inOrder (f : Byte → Byte → Byte) : AccessesInOrder srcByte 1 (modifyByte f) :=
  .of_readByte fun _ _ _ => rfl

theorem divideWord_inOrder (f : Word → Word → Word) :
    AccessesInOrder (srcWord · .int) 4 (divideWord f) := .of_readWord fun _ _ _ => rfl

theorem divideByte_inOrder (f : Byte → Byte → Byte) : AccessesInOrder srcByte 1 (divideByte f) :=
  .of_readByte fun _ _ _ => rfl

theorem modifyFloat_inOrder (f : Word → Word → Option Word) :
    AccessesInOrder (srcWord · .float) 4 (modifyFloat f) := .of_readWord fun _ _ _ => rfl

theorem divideFloat_inOrder (f : Word → Word → Option Word) :
    AccessesInOrder (srcWord · .float) 4 (divideFloat f) := .of_readWord fun _ _ _ => rfl

theorem compareWord_inOrder (lane : WordLane) (f : Word → Word → Bool) :
    AccessesInOrder (srcWord · lane) 4 (compareWord lane f) := .of_readWord fun _ _ _ => rfl

theorem compareByte_inOrder (f : Byte → Byte → Bool) : AccessesInOrder srcByte 1 (compareByte f) :=
  .of_readByte fun _ _ _ => rfl

theorem moveWord_inOrder (lane : WordLane) : AccessesInOrder (srcWord · lane) 4 (moveWord lane) :=
  .of_writeWord fun _ _ _ => rfl

theorem moveByte_inOrder : AccessesInOrder srcByte 1 moveByte := .of_writeByte fun _ _ _ => rfl

theorem complementWord_inOrder : AccessesInOrder (srcWord · .int) 4 complementWord :=
  .of_writeWord fun _ _ _ => rfl

theorem complementByte_inOrder : AccessesInOrder srcByte 1 complementByte :=
  .of_writeByte fun _ _ _ => rfl

/-! ### The instructions of each lane -/

/-- The two-operand instruction runs a body that makes its accesses in order. -/
def RunsInOrder {α : Type} (src : State → Src → Except Cause α) (n : Nat)
    (f : Arg1 → Arg2 → Instr) : Prop :=
  ∃ body, AccessesInOrder src n body ∧ ∀ d a s, exec (f d a) s = class2 s d a body

theorem AccessesInOrder.runs {α : Type} {src : State → Src → Except Cause α} {n : Nat}
    {f : Arg1 → Arg2 → Instr} {body : State → Dst → Src → Except Cause State}
    (hb : AccessesInOrder src n body) (hf : ∀ d a s, exec (f d a) s = class2 s d a body) :
    RunsInOrder src n f :=
  ⟨body, hb, hf⟩

theorem wordClass2_runsInOrder (lane : WordLane) :
    ∀ f ∈ wordClass2 lane, RunsInOrder (srcWord · lane) 4 f := by
  cases lane with
  | int =>
    simp only [wordClass2, List.forall_mem_cons]
    exact ⟨(moveWord_inOrder _).runs exec_movi, (compareWord_inOrder _ _).runs exec_ifi,
      (compareWord_inOrder _ _).runs exec_ifei, (modifyWord_inOrder _).runs exec_addi,
      (modifyWord_inOrder _).runs exec_subi, (modifyWord_inOrder _).runs exec_muli,
      (divideWord_inOrder _).runs exec_divi, (divideWord_inOrder _).runs exec_modi,
      (modifyWord_inOrder _).runs exec_ori, (modifyWord_inOrder _).runs exec_andi,
      (modifyWord_inOrder _).runs exec_xori, complementWord_inOrder.runs exec_noti,
      (modifyWord_inOrder _).runs exec_szrli, (modifyWord_inOrder _).runs exec_srli,
      (modifyWord_inOrder _).runs exec_slli, List.forall_mem_nil _⟩
  | float =>
    simp only [wordClass2, List.forall_mem_cons]
    exact ⟨(moveWord_inOrder _).runs exec_movf, (compareWord_inOrder _ _).runs exec_iff,
      (compareWord_inOrder _ _).runs exec_ifef, (modifyFloat_inOrder _).runs exec_addf,
      (modifyFloat_inOrder _).runs exec_subf, (modifyFloat_inOrder _).runs exec_mulf,
      (divideFloat_inOrder _).runs exec_divf, (divideFloat_inOrder _).runs exec_modf,
      List.forall_mem_nil _⟩

theorem byteClass2_runsInOrder : ∀ f ∈ byteClass2, RunsInOrder srcByte 1 f := by
  simp only [byteClass2, List.forall_mem_cons]
  exact ⟨moveByte_inOrder.runs exec_movb, (compareByte_inOrder _).runs exec_ifb,
    (compareByte_inOrder _).runs exec_ifeb, (modifyByte_inOrder _).runs exec_addb,
    (modifyByte_inOrder _).runs exec_subb, (modifyByte_inOrder _).runs exec_mulb,
    (divideByte_inOrder _).runs exec_divb, (divideByte_inOrder _).runs exec_modb,
    (modifyByte_inOrder _).runs exec_orb, (modifyByte_inOrder _).runs exec_andb,
    (modifyByte_inOrder _).runs exec_xorb, complementByte_inOrder.runs exec_notb,
    (modifyByte_inOrder _).runs exec_szrlb, (modifyByte_inOrder _).runs exec_srlb,
    (modifyByte_inOrder _).runs exec_sllb, List.forall_mem_nil _⟩

/-- The one-operand instruction reads its operand with `src` before anything else. -/
def ReadsFirst {α : Type} (src : State → Src → Except Cause α) (f : Arg2 → Instr) : Prop :=
  ∃ body, (∀ {u S c}, src u S = .error c → body u S = .error c) ∧
    ∀ a s, exec (f a) s = class1 s a body

theorem ReadsFirst.of_bind {α : Type} {src : State → Src → Except Cause α} {f : Arg2 → Instr}
    {body : State → Src → Except Cause State} {rest : State → Src → α → Except Cause State}
    (hf : ∀ a s, exec (f a) s = class1 s a body) (hbody : ∀ u S, body u S = src u S >>= rest u S) :
    ReadsFirst src f :=
  ⟨body, fun h => (hbody _ _).trans (bind_eq_error.2 (.inl h)), hf⟩

theorem wordClass1_readsFirst (lane : WordLane) :
    ∀ f ∈ wordClass1 lane, ReadsFirst (srcWord · lane) f := by
  cases lane with
  | int =>
    simp only [wordClass1, List.forall_mem_cons]
    exact ⟨.of_bind exec_pushi fun _ _ => rfl, .of_bind exec_popi fun _ _ => rfl,
      .of_bind exec_dupi fun _ _ => rfl, .of_bind exec_printi fun _ _ => rfl, List.forall_mem_nil _⟩
  | float =>
    simp only [wordClass1, List.forall_mem_cons]
    exact ⟨.of_bind exec_pushf fun _ _ => rfl, .of_bind exec_popf fun _ _ => rfl,
      .of_bind exec_dupf fun _ _ => rfl, .of_bind exec_printf fun _ _ => rfl, List.forall_mem_nil _⟩

theorem byteClass1_readsFirst : ∀ f ∈ byteClass1, ReadsFirst srcByte f := by
  simp only [byteClass1, List.forall_mem_cons]
  exact ⟨.of_bind exec_pushb fun _ _ => rfl, .of_bind exec_popb fun _ _ => rfl,
    .of_bind exec_dupb fun _ _ => rfl, .of_bind exec_printb fun _ _ => rfl,
    .of_bind exec_printc fun _ _ => rfl, List.forall_mem_nil _⟩

section
variable {α : Type} {src : State → Src → Except Cause α} {s : State} {a : Arg2} {S : Src} {c : Cause}

theorem ReadsFirst.of_src_error {f : Arg2 → Instr} (hf : ReadsFirst src f) (ha : resolve2 a = .ok S)
    (h : src s.postFetch S = .error c) : exec (f a) s = .next (s.raise c) := by
  obtain ⟨body, hb, hexec⟩ := hf
  rw [hexec]
  exact class1_of_error ha (hb h)

theorem RunsInOrder.of_src_error {n : Nat} {f : Arg1 → Arg2 → Instr} {d : Arg1} {D : Dst}
    (hf : RunsInOrder src n f) (hd : resolve1 d = .ok D) (ha : resolve2 a = .ok S)
    (h : src s.postFetch S = .error c) : exec (f d a) s = .next (s.raise c) := by
  obtain ⟨body, hb, hexec⟩ := hf
  rw [hexec]
  exact class2_of_error hd ha (hb.src_error h)

theorem RunsInOrder.of_dst_error {n : Nat} {f : Arg1 → Arg2 → Instr} {d : Arg1} {D : Dst} {v : α}
    {p : Word} (hf : RunsInOrder src n f) (hd : resolve1 d = .ok D) (ha : resolve2 a = .ok S)
    (h : src s.postFetch S = .ok v) (hp : D.addr s.postFetch = some p)
    (hr : s.params.memSize < p.toNat + n) :
    exec (f d a) s = .next (s.raise (.memoryAccessOutOfRange p)) := by
  obtain ⟨body, hb, hexec⟩ := hf
  rw [hexec]
  cases D with
  | reg r => cases hp
  | ind r =>
    cases hp
    exact class2_of_error hd ha (hb.dst_error h (State.inRange_eq_false hr))

end

/-! ### The instructions by their operands -/

/-- A one-operand instruction belongs to a lane. -/
theorem operands_one_cases {i : Instr} {a : Arg2} (h : i.operands = .one a) :
    (∃ lane, ∃ f ∈ wordClass1 lane, i = f a) ∨ ∃ f ∈ byteClass1, i = f a := by
  cases i with
  | pushi | popi | dupi | printi =>
    cases h
    exact .inl ⟨.int, _, by simp [wordClass1], rfl⟩
  | pushf | popf | dupf | printf =>
    cases h
    exact .inl ⟨.float, _, by simp [wordClass1], rfl⟩
  | pushb | popb | dupb | printb | printc =>
    cases h
    exact .inr ⟨_, by simp [byteClass1], rfl⟩
  | _ => cases h

/-- A two-operand instruction belongs to a lane, or is a load-constant. -/
theorem operands_two_cases {i : Instr} {d : Arg1} {a : Arg2} (h : i.operands = .two d a) :
    (∃ lane, ∃ f ∈ wordClass2 lane, i = f d a) ∨ (∃ f ∈ byteClass2, i = f d a) ∨
      i ∈ [Instr.ldci d a, .ldcf d a, .ldcb d a, .ldca d a] := by
  cases i with
  | ldci | ldcf | ldcb | ldca =>
    cases h
    exact .inr (.inr (by simp))
  | movi | ifi | ifei | addi | subi | muli | divi | modi | ori | andi | xori | noti | szrli | srli | slli =>
    cases h
    exact .inl ⟨.int, _, by simp [wordClass2], rfl⟩
  | movf | iff | ifef | addf | subf | mulf | divf | modf =>
    cases h
    exact .inl ⟨.float, _, by simp [wordClass2], rfl⟩
  | movb | ifb | ifeb | addb | subb | mulb | divb | modb | orb | andb | xorb | notb | szrlb | srlb | sllb =>
    cases h
    exact .inr (.inl ⟨_, by simp [byteClass2], rfl⟩)
  | _ => cases h

/-! ### The load-constants (41_move_load.md R178) -/

theorem requireConst_error (w : Word) {S : Src} (hS : ∀ k, S ≠ .const k) :
    requireConst w S = .error (.illegalOperandForm w) := by
  cases S with
  | const k => exact absurd rfl (hS k)
  | reg r | ind r | imm v => rfl

/-- Only the form CONST resolves to a constant. -/
theorem eq_const_of_resolve2 {a : Arg2} {k : BitVec 19} (ha : resolve2 a = .ok (.const k)) :
    a = .const k := by
  cases a with
  | const j =>
    cases ha
    rfl
  | imm v => cases ha
  | reg i | ind i =>
    rw [resolve2] at ha
    cases hi : regIdx i <;> rw [hi] at ha <;> cases ha

section
variable (d : Arg1) (k : BitVec 19) (s : State)

/-- With CONST, LDCI is the move of its lane. -/
theorem exec_ldci_const : exec (.ldci d (.const k)) s = exec (.movi d (.const k)) s := rfl
theorem exec_ldcf_const : exec (.ldcf d (.const k)) s = exec (.movf d (.const k)) s := rfl
theorem exec_ldcb_const : exec (.ldcb d (.const k)) s = exec (.movb d (.const k)) s := rfl

end

/-- Settles O12: the form check comes first in each body, and with CONST what follows it is the move. -/
theorem loadConstantTakesOnlyConstants : Obligations.LoadConstantTakesOnlyConstants := by
  refine ⟨fun s d a D S hd ha hc => ?form,
    fun s d k => ⟨exec_ldci_const d k s, exec_ldcf_const d k s, exec_ldcb_const d k s⟩,
    fun s w hw => by rw [State.fetchedWord, hw, Option.getD_some]⟩
  have hS (k : BitVec 19) : S ≠ .const k := by
    rintro rfl
    rw [eq_const_of_resolve2 ha] at hc
    cases hc
  have hform := requireConst_error s.fetchedWord hS
  have hfault {body : BitVec 19 → Except Cause State} :
      (requireConst s.fetchedWord S >>= body) = .error (.illegalOperandForm s.fetchedWord) :=
    bind_eq_error.2 (.inl hform)
  exact ⟨class2_of_error hd ha hfault, class2_of_error hd ha hfault, class2_of_error hd ha hfault,
    class2_of_error hd ha hfault⟩

/-! ### The obligations over every instruction -/

/-- A one-operand instruction is a class-1 instruction. -/
theorem exec_one {i : Instr} {a : Arg2} (h : i.operands = .one a) (s : State) :
    ∃ body, exec i s = class1 s a body := by
  obtain ⟨lane, f, hf, rfl⟩ | ⟨f, hf, rfl⟩ := operands_one_cases h
  · exact (wordClass1_readsFirst lane f hf).imp fun _ ⟨_, hexec⟩ => hexec a s
  · exact (byteClass1_readsFirst f hf).imp fun _ ⟨_, hexec⟩ => hexec a s

/-- A two-operand instruction is a class-2 instruction. -/
theorem exec_two {i : Instr} {d : Arg1} {a : Arg2} (h : i.operands = .two d a) (s : State) :
    ∃ body, exec i s = class2 s d a body := by
  obtain ⟨lane, f, hf, rfl⟩ | ⟨f, hf, rfl⟩ | hi := operands_two_cases h
  · exact (wordClass2_runsInOrder lane f hf).imp fun _ ⟨_, hexec⟩ => hexec d a s
  · exact (byteClass2_runsInOrder f hf).imp fun _ ⟨_, hexec⟩ => hexec d a s
  · simp only [List.mem_cons, List.not_mem_nil, or_false] at hi
    obtain rfl | rfl | rfl | rfl := hi
    all_goals exact ⟨_, rfl⟩

/-- Settles O11: the checks of the register numbers come before the body of either class. -/
theorem registerIndexIsCheckedFirst : Obligations.RegisterIndexIsCheckedFirst := by
  intro i s
  refine ⟨fun d a h hd => ?arg1, fun d a h hd ha hi => ?arg2, fun a h ha hi => ?one⟩
  case arg1 =>
    obtain ⟨body, hexec⟩ := exec_two h s
    exact hexec.trans (class2_of_resolve1_error (resolve1_of_gt hd))
  case arg2 =>
    obtain ⟨body, hexec⟩ := exec_two h s
    obtain ⟨D, hD⟩ := resolve1_of_le hd
    exact hexec.trans (class2_of_resolve2_error hD (resolve2_of_gt ha hi))
  case one =>
    obtain ⟨body, hexec⟩ := exec_one h s
    exact hexec.trans (class1_of_resolve2_error (resolve2_of_gt ha hi))

/-- Settles O13: every lane reads a constant through the table, and so does LDCA its address. -/
theorem constantIndexBeyondTableFaults : Obligations.ConstantIndexBeyondTableFaults := by
  intro i s k hk
  have hk' : s.postFetch.prog.cat.length ≤ k.toNat := hk
  have ha : resolve2 (.const k) = .ok (.const k) := rfl
  have hword (lane : WordLane) := srcWord_const_of_beyond hk' lane
  have hbyte := srcByte_const_of_beyond hk'
  refine ⟨fun h => ?one, fun d h hd => ?two⟩
  case one =>
    obtain ⟨lane, f, hf, rfl⟩ | ⟨f, hf, rfl⟩ := operands_one_cases h
    · exact (wordClass1_readsFirst lane f hf).of_src_error ha (hword lane)
    · exact (byteClass1_readsFirst f hf).of_src_error ha hbyte
  case two =>
    obtain ⟨D, hD⟩ := resolve1_of_le hd
    obtain ⟨lane, f, hf, rfl⟩ | ⟨f, hf, rfl⟩ | hi := operands_two_cases h
    · exact (wordClass2_runsInOrder lane f hf).of_src_error hD ha (hword lane)
    · exact (byteClass2_runsInOrder f hf).of_src_error hD ha hbyte
    · simp only [List.mem_cons, List.not_mem_nil, or_false] at hi
      obtain rfl | rfl | rfl | rfl := hi
      · exact class2_of_error hD ha ((moveWord_inOrder .int).src_error (hword .int))
      · exact class2_of_error hD ha ((moveWord_inOrder .float).src_error (hword .float))
      · exact class2_of_error hD ha (moveByte_inOrder.src_error hbyte)
      · exact class2_of_error hD ha (bind_eq_error.2 (.inr ⟨k, rfl, bind_eq_error.2
          (.inl (State.constAddr_of_beyond hk'))⟩))

/-! ### Divisors (45_arithmetic.md R259) -/

section
variable {u : State} {D : Dst} {S : Src}

theorem divideWord_zero (f : Word → Word → Word) {b c : Word} (hb : srcWord u .int S = .ok b)
    (hc : dstReadWord u D = .ok c) (hz : zeroWord b = true) :
    divideWord f u D S = .error .divideByZero := by
  simp only [divideWord, hb, hc, hz, divisorCheck, bind, Except.bind, if_true]

theorem divideByte_zero (f : Byte → Byte → Byte) {b c : Byte} (hb : srcByte u S = .ok b)
    (hc : dstReadByte u D = .ok c) (hz : zeroByte b = true) :
    divideByte f u D S = .error .divideByZero := by
  simp only [divideByte, hb, hc, hz, divisorCheck, bind, Except.bind, if_true]

theorem divideFloat_zero (f : Word → Word → Option Word) {b c : Word}
    (hb : srcWord u .float S = .ok b) (hc : dstReadWord u D = .ok c) (hz : zeroFloat b = true) :
    divideFloat f u D S = .error .divideByZero := by
  simp only [divideFloat, hb, hc, hz, divisorCheck, bind, Except.bind, if_true]

end

/-- Settles O14: with both operands read, the divisor test of each lane raises the fault. -/
theorem zeroDivisorFaults : Obligations.ZeroDivisorFaults := by
  intro s d a D S hd ha
  refine ⟨fun c hb hc => ?int, fun c hb hc => ?byte, fun b c hb hc hz => ?float⟩
  case int =>
    exact ⟨class2_of_error hd ha (divideWord_zero divI hb hc rfl),
      class2_of_error hd ha (divideWord_zero modI hb hc rfl)⟩
  case byte =>
    exact ⟨class2_of_error hd ha (divideByte_zero divB hb hc rfl),
      class2_of_error hd ha (divideByte_zero modB hb hc rfl)⟩
  case float =>
    have hzero : zeroFloat b = true := by
      obtain rfl | rfl := hz
      · rfl
      · rfl
    exact ⟨class2_of_error hd ha (divideFloat_zero fdiv hb hc hzero),
      class2_of_error hd ha (divideFloat_zero frem hb hc hzero)⟩

/-! ### Accesses outside memory (20_memory.md R51, 60_exceptions.md R307) -/

/-- LDCA reads no data memory: with its constant in the table only the store can fault. -/
theorem loadConstAddr_dst_error {w : Word} {u : State} {k : BitVec 19} {q : Word} {r : RegIdx}
    (hq : u.prog.cat[k.toNat]? = some q) (hr : u.inRange (u.x r) 4 = false) :
    loadConstAddr w u (.ind r) (.const k) = .error (.memoryAccessOutOfRange (u.x r)) :=
  bind_eq_error.2 (.inr ⟨k, rfl, bind_eq_error.2 (.inr ⟨q, State.constAddr_of_getElem? hq,
    State.memWriteWord_error.2 ⟨hr, rfl⟩⟩)⟩)

/-- Settles O15: each lane's instructions read arg2 and then access arg1, and the load-constants with them. -/
theorem accessOutsideMemoryFaults : Obligations.AccessOutsideMemoryFaults := by
  intro s d a D S p hd ha
  refine ⟨fun lane hS hp => ?word, fun hS hp => ?byte, fun lane v hv hD hp f hf => ?wordDst,
    fun v hv hD hp f hf => ?byteDst, ?loadConst⟩
  case word =>
    have hv := srcWord_error_of_addr hS (State.inRange_eq_false hp) lane
    exact ⟨fun f hf => (wordClass2_runsInOrder lane f hf).of_src_error hd ha hv,
      fun f hf => (wordClass1_readsFirst lane f hf).of_src_error ha hv⟩
  case byte =>
    have hv := srcByte_error_of_addr hS (State.inRange_eq_false hp)
    exact ⟨fun f hf => (byteClass2_runsInOrder f hf).of_src_error hd ha hv,
      fun f hf => (byteClass1_readsFirst f hf).of_src_error ha hv⟩
  case wordDst => exact (wordClass2_runsInOrder lane f hf).of_dst_error hd ha hv hD hp
  case byteDst => exact (byteClass2_runsInOrder f hf).of_dst_error hd ha hv hD hp
  case loadConst =>
    rintro k q rfl hq
    obtain rfl := eq_const_of_resolve2 ha
    have hq' : s.postFetch.prog.cat[k.toNat]? = some q := hq
    have hsrc : srcAddr s.postFetch (.const k) = some q := hq
    have hmovi := (moveWord_inOrder .int).runs exec_movi
    have hmovf := (moveWord_inOrder .float).runs exec_movf
    have hmovb := moveByte_inOrder.runs exec_movb
    refine ⟨fun hfit => ⟨?ldci, ?ldcf⟩, fun hfit => ?ldcb,
      fun hD hp => ⟨?ldca, fun hfit => ⟨?ldciDst, ?ldcfDst⟩⟩, fun hD hp hfit => ?ldcbDst⟩
    case ldci =>
      exact hmovi.of_src_error hd ha (srcWord_error_of_addr hsrc (State.inRange_eq_false hfit) _)
    case ldcf =>
      exact hmovf.of_src_error hd ha (srcWord_error_of_addr hsrc (State.inRange_eq_false hfit) _)
    case ldcb => exact hmovb.of_src_error hd ha (srcByte_error_of_addr hsrc (State.inRange_eq_false hfit))
    case ldca =>
      cases D with
      | reg r => cases hD
      | ind r =>
        cases hD
        exact class2_of_error hd ha (loadConstAddr_dst_error hq' (State.inRange_eq_false hp))
    case ldciDst => exact hmovi.of_dst_error hd ha (srcWord_const_of_fits hq' _ hfit) hD hp
    case ldcfDst => exact hmovf.of_dst_error hd ha (srcWord_const_of_fits hq' _ hfit) hD hp
    case ldcbDst => exact hmovb.of_dst_error hd ha (srcByte_const_of_fits hq' hfit) hD hp

end Sys2Proof.Machine
end

section
/-! The faults of the stack instructions (42_stack.md R190 to R199): the slot under the old or the new top, and
last the implicit destination, which fits where its operand was read unless it is the memory at `sp`. -/

namespace Sys2Proof.Machine

/-! ### The implicit destination after a move of `sp` -/

section
variable {u : State} {S : Src} {D : Dst}

/-- An operand that was read as a word is a destination that fits one. -/
theorem dstFits_of_srcWord {lane : WordLane} {x : Word} (hx : srcWord u lane S = .ok x)
    (hD : S.implicitDst = some D) : dstFits u D 4 = true := by
  cases S with
  | reg r =>
    cases hD
    rfl
  | ind r =>
    cases hD
    exact (State.memReadWord_ok.1 hx).1
  | imm v | const k => cases hD

/-- An operand that was read as a byte is a destination that fits one. -/
theorem dstFits_of_srcByte {x : Byte} (hx : srcByte u S = .ok x) (hD : S.implicitDst = some D) :
    dstFits u D 1 = true := by
  cases S with
  | reg r =>
    cases hD
    rfl
  | ind r =>
    cases hD
    exact (State.memReadByte_ok.1 hx).1
  | imm v | const k => cases hD

/-- With another `sp`, a destination fits as before, but for the memory at `sp`, which is at the new one. -/
theorem dstFits_setSp {n : Nat} {p : Word} (hD : dstFits u D n = true)
    (hsp : D = .ind RegIdx.sp → u.inRange p n = true) : dstFits (u.setSp p) D n = true := by
  cases D with
  | reg r => rfl
  | ind r =>
    rw [dstFits, State.setX_inRange, State.x_setX]
    split
    case isTrue hr => exact hsp (hr ▸ rfl)
    case isFalse => exact hD

theorem eq_ind_of_implicitDst {r : RegIdx} (hD : S.implicitDst = some (.ind r)) : S = .ind r := by
  cases S with
  | ind q =>
    cases hD
    rfl
  | reg q | imm v | const k => cases hD

theorem implicitWriteWord_of_fits (v : Word) (h : ∀ D, S.implicitDst = some D → dstFits u D 4 = true) :
    ∃ t, implicitWriteWord u S v = .ok t := by
  cases hD : S.implicitDst with
  | none => exact ⟨u, implicitWriteWord_ok.2 (.inl ⟨hD, rfl⟩)⟩
  | some D => exact ⟨_, implicitWriteWord_ok.2 (.inr ⟨D, hD, h D hD, rfl⟩)⟩

theorem implicitWriteByte_of_fits (v : Byte) (h : ∀ D, S.implicitDst = some D → dstFits u D 1 = true) :
    ∃ t, implicitWriteByte u S v = .ok t := by
  cases hD : S.implicitDst with
  | none => exact ⟨u, implicitWriteByte_ok.2 (.inl ⟨hD, rfl⟩)⟩
  | some D => exact ⟨_, implicitWriteByte_ok.2 (.inr ⟨D, hD, h D hD, rfl⟩)⟩

end

/-! ### A store at the `sp` just moved -/

section
variable {u : State} {p : Word}

theorem memWriteWord_setSp_error (v : Word) (hp : u.params.memSize < p.toNat + 4) :
    (u.setSp p).memWriteWord (u.setSp p).sp v = .error (.memoryAccessOutOfRange p) := by
  have hsp : (u.setSp p).sp = p := State.x_setX_self _ _ _
  rw [hsp]
  exact State.memWriteWord_error.2 ⟨State.inRange_eq_false hp, rfl⟩

theorem memWriteByte_setSp_error (v : Byte) (hp : u.params.memSize < p.toNat + 1) :
    (u.setSp p).memWriteByte (u.setSp p).sp v = .error (.memoryAccessOutOfRange p) := by
  have hsp : (u.setSp p).sp = p := State.x_setX_self _ _ _
  rw [hsp]
  exact State.memWriteByte_error.2 ⟨State.inRange_eq_false hp, rfl⟩

end

/-! ### The stack bodies, with `p` the stack pointer they start from -/

section
variable {u : State} {S : Src} {p : Word} (hp : u.sp = p)
include hp

section
variable {lane : WordLane} {x : Word} (hx : srcWord u lane S = .ok x)
include hx

theorem pushWord_error (hnew : u.params.memSize < (p - 4).toNat + 4) :
    pushWord lane u S = .error (.memoryAccessOutOfRange (p - 4)) := by
  subst hp
  exact bind_eq_error.2 (.inr ⟨x, hx, memWriteWord_setSp_error x hnew⟩)

theorem popWord_error (hold : u.params.memSize < p.toNat + 4) :
    popWord lane u S = .error (.memoryAccessOutOfRange p) := by
  subst hp
  exact bind_eq_error.2 (.inr ⟨x, hx, bind_eq_error.2
    (.inl (State.memReadWord_error.2 ⟨State.inRange_eq_false hold, rfl⟩))⟩)

theorem dupWord_error_old (hold : u.params.memSize < p.toNat + 4) :
    dupWord lane u S = .error (.memoryAccessOutOfRange p) := by
  subst hp
  exact bind_eq_error.2 (.inr ⟨x, hx, bind_eq_error.2
    (.inl (State.memReadWord_error.2 ⟨State.inRange_eq_false hold, rfl⟩))⟩)

theorem dupWord_error_new (hold : p.toNat + 4 ≤ u.params.memSize)
    (hnew : u.params.memSize < (p - 4).toNat + 4) :
    dupWord lane u S = .error (.memoryAccessOutOfRange (p - 4)) := by
  subst hp
  have hv := State.memReadWord_ok.2 ⟨State.inRange_iff.2 hold, rfl⟩
  exact bind_eq_error.2 (.inr ⟨x, hx, bind_eq_error.2 (.inr ⟨_, hv, bind_eq_error.2
    (.inl (memWriteWord_setSp_error _ hnew))⟩)⟩)

theorem dupWord_completes (hold : p.toNat + 4 ≤ u.params.memSize)
    (hnew : (p - 4).toNat + 4 ≤ u.params.memSize) : ∃ t, dupWord lane u S = .ok t := by
  rw [dupWord_of_fits hp hx hold hnew rfl]
  exact implicitWriteWord_of_fits _ fun D hD =>
    dstFits_setSp (dstFits_of_srcWord hx hD) fun _ => State.inRange_iff.2 hnew

/-- A pop through `&sp` stores at the raised `sp`. -/
theorem popWord_error_sp (hS : S = .ind RegIdx.sp) (hold : p.toNat + 4 ≤ u.params.memSize)
    (hnew : u.params.memSize < (p + 4).toNat + 4) :
    popWord lane u S = .error (.memoryAccessOutOfRange (p + 4)) := by
  rw [popWord_of_fits hp hx hold, hS]
  exact memWriteWord_setSp_error _ hnew

theorem popWord_completes (hS : S ≠ .ind RegIdx.sp) (hold : p.toNat + 4 ≤ u.params.memSize) :
    ∃ t, popWord lane u S = .ok t := by
  rw [popWord_of_fits hp hx hold]
  exact implicitWriteWord_of_fits _ fun D hD =>
    dstFits_setSp (dstFits_of_srcWord hx hD) fun hsp => absurd (eq_ind_of_implicitDst (hsp ▸ hD)) hS

end

section
variable {x : Byte} (hx : srcByte u S = .ok x)
include hx

theorem pushByte_error (hnew : u.params.memSize < (p - 1).toNat + 1) :
    pushByte u S = .error (.memoryAccessOutOfRange (p - 1)) := by
  subst hp
  exact bind_eq_error.2 (.inr ⟨x, hx, memWriteByte_setSp_error x hnew⟩)

theorem popByte_error (hold : u.params.memSize < p.toNat + 1) :
    popByte u S = .error (.memoryAccessOutOfRange p) := by
  subst hp
  exact bind_eq_error.2 (.inr ⟨x, hx, bind_eq_error.2
    (.inl (State.memReadByte_error.2 ⟨State.inRange_eq_false hold, rfl⟩))⟩)

theorem dupByte_error_old (hold : u.params.memSize < p.toNat + 1) :
    dupByte u S = .error (.memoryAccessOutOfRange p) := by
  subst hp
  exact bind_eq_error.2 (.inr ⟨x, hx, bind_eq_error.2
    (.inl (State.memReadByte_error.2 ⟨State.inRange_eq_false hold, rfl⟩))⟩)

theorem dupByte_error_new (hold : p.toNat + 1 ≤ u.params.memSize)
    (hnew : u.params.memSize < (p - 1).toNat + 1) :
    dupByte u S = .error (.memoryAccessOutOfRange (p - 1)) := by
  subst hp
  have hv := State.memReadByte_ok.2 ⟨State.inRange_iff.2 hold, rfl⟩
  exact bind_eq_error.2 (.inr ⟨x, hx, bind_eq_error.2 (.inr ⟨_, hv, bind_eq_error.2
    (.inl (memWriteByte_setSp_error _ hnew))⟩)⟩)

theorem dupByte_completes (hold : p.toNat + 1 ≤ u.params.memSize)
    (hnew : (p - 1).toNat + 1 ≤ u.params.memSize) : ∃ t, dupByte u S = .ok t := by
  rw [dupByte_of_fits hp hx hold hnew rfl]
  exact implicitWriteByte_of_fits _ fun D hD =>
    dstFits_setSp (dstFits_of_srcByte hx hD) fun _ => State.inRange_iff.2 hnew

/-- A pop through `&sp` stores at the raised `sp`. -/
theorem popByte_error_sp (hS : S = .ind RegIdx.sp) (hold : p.toNat + 1 ≤ u.params.memSize)
    (hnew : u.params.memSize < (p + 1).toNat + 1) :
    popByte u S = .error (.memoryAccessOutOfRange (p + 1)) := by
  rw [popByte_of_fits hp hx hold, hS]
  exact memWriteByte_setSp_error _ hnew

theorem popByte_completes (hS : S ≠ .ind RegIdx.sp) (hold : p.toNat + 1 ≤ u.params.memSize) :
    ∃ t, popByte u S = .ok t := by
  rw [popByte_of_fits hp hx hold]
  exact implicitWriteByte_of_fits _ fun D hD =>
    dstFits_setSp (dstFits_of_srcByte hx hD) fun hsp => absurd (eq_ind_of_implicitDst (hsp ▸ hD)) hS

end

end

/-! ### The instructions -/

theorem exec_pushOf (lane : WordLane) (a : Arg2) (s : State) :
    exec (pushOf lane a) s = class1 s a (pushWord lane) := by
  cases lane <;> rfl

theorem exec_popOf (lane : WordLane) (a : Arg2) (s : State) :
    exec (popOf lane a) s = class1 s a (popWord lane) := by
  cases lane <;> rfl

theorem exec_dupOf (lane : WordLane) (a : Arg2) (s : State) :
    exec (dupOf lane a) s = class1 s a (dupWord lane) := by
  cases lane <;> rfl

/-- A class-1 instruction whose body completes with primitive updates keeps the status. -/
theorem class1_keeps_status {s : State} {a : Arg2} {S : Src} {body : State → Src → Except Cause State}
    (ha : resolve2 a = .ok S) (hu : ∀ {t}, body s.postFetch S = .ok t → Updates s.postFetch t)
    (h : ∃ t, body s.postFetch S = .ok t) : ∃ t, class1 s a body = .next t ∧ t.status = s.status := by
  obtain ⟨t, ht⟩ := h
  exact ⟨t, class1_eq_next_of_ok ha ht, (hu ht).status_eq⟩

/-- Settles O16: each stack body meets its slots in the order of the pseudocode, and the implicit write last. -/
theorem stackAccessOutsideMemoryFaults : Obligations.StackAccessOutsideMemoryFaults := by
  intro s a S ha
  have hsp : s.postFetch.sp = s.sp := s.postFetch_sp
  refine ⟨fun lane v hv => ?word, fun v hv => ?byte⟩
  case word =>
    rw [exec_pushOf, exec_popOf, exec_dupOf]
    exact ⟨fun hnew => class1_of_error ha (pushWord_error hsp hv hnew),
      fun hold => ⟨class1_of_error ha (popWord_error hsp hv hold),
        class1_of_error ha (dupWord_error_old hsp hv hold)⟩,
      fun hold => ⟨fun hnew => class1_of_error ha (dupWord_error_new hsp hv hold hnew),
        fun hnew => class1_keeps_status ha dupWord_updates (dupWord_completes hsp hv hold hnew),
        fun hS hnew => class1_of_error ha (popWord_error_sp hsp hv hS hold hnew),
        fun hS => class1_keeps_status ha popWord_updates (popWord_completes hsp hv hS hold)⟩⟩
  case byte =>
    rw [exec_pushb, exec_popb, exec_dupb]
    exact ⟨fun hnew => class1_of_error ha (pushByte_error hsp hv hnew),
      fun hold => ⟨class1_of_error ha (popByte_error hsp hv hold),
        class1_of_error ha (dupByte_error_old hsp hv hold)⟩,
      fun hold => ⟨fun hnew => class1_of_error ha (dupByte_error_new hsp hv hold hnew),
        fun hnew => class1_keeps_status ha dupByte_updates (dupByte_completes hsp hv hold hnew),
        fun hS hnew => class1_of_error ha (popByte_error_sp hsp hv hS hold hnew),
        fun hS => class1_keeps_status ha popByte_updates (popByte_completes hsp hv hS hold)⟩⟩

end Sys2Proof.Machine
end

section
/-! The laws of the integer and the byte lane (45_arithmetic.md R241, R243, 46_bitwise.md R271), proved once for
every width: a lane's remainder is the signed remainder of its width, and its shifts divide and multiply. -/

namespace Sys2Proof.Machine

/-! ### Division in every width -/

section
variable {w : Nat}

theorem natCast_toNat_ofInt (n : Int) : ((BitVec.ofInt w n).toNat : Int) = n % 2 ^ w := by
  rw [BitVec.toNat_ofInt, Int.toNat_of_nonneg (Int.emod_nonneg _ (by positivity))]
  push_cast
  rfl

variable (a b : BitVec w)

theorem natCast_toNat_sub : ((a - b).toNat : Int) = ((a.toNat : Int) - b.toNat) % 2 ^ w := by
  have hb := b.isLt
  rw [BitVec.toNat_sub]
  push_cast [hb.le]
  rw [show (2 : Int) ^ w - b.toNat + a.toNat = a.toNat - b.toNat + 2 ^ w by ring, Int.add_emod_right]

theorem ofInt_tmod_toInt : BitVec.ofInt w (a.toInt.tmod b.toInt) = a.srem b := by
  rw [← BitVec.toInt_srem, BitVec.ofInt_toInt]

/-- Quotient times divisor plus remainder is the dividend, whatever wraps. -/
theorem ofInt_tdiv_mul_add_srem : BitVec.ofInt w (a.toInt.tdiv b.toInt) * b + a.srem b = a := by
  calc BitVec.ofInt w (a.toInt.tdiv b.toInt) * b + a.srem b
    _ = BitVec.ofInt w (a.toInt.tdiv b.toInt * b.toInt + a.toInt.tmod b.toInt) := by
      rw [BitVec.ofInt_add, BitVec.ofInt_mul, ofInt_tmod_toInt, BitVec.ofInt_toInt]
    _ = a := by rw [Int.tdiv_mul_add_tmod, BitVec.ofInt_toInt]

variable {a b}

theorem toInt_ne_zero (hb : b ≠ 0#w) : b.toInt ≠ 0 := fun h =>
  hb (BitVec.toInt_inj.1 (h.trans BitVec.toInt_zero.symm))

theorem abs_toInt_srem_lt (hb : b ≠ 0#w) : |(a.srem b).toInt| < |b.toInt| := by
  have hpos : 0 < b.toInt.natAbs := Int.natAbs_pos.2 (toInt_ne_zero hb)
  rw [BitVec.toInt_srem, Int.abs_eq_natAbs, Int.abs_eq_natAbs, Int.natAbs_tmod]
  exact Int.ofNat_lt.2 (Nat.mod_lt _ hpos)

/-- A remainder that is not zero has the sign of the dividend. -/
theorem toInt_srem_sign : (a.srem b).toInt = 0 ∨ ((a.srem b).toInt < 0 ↔ a.toInt < 0) := by
  rw [BitVec.toInt_srem]
  rcases le_or_gt 0 a.toInt with ha | ha
  · have := Int.tmod_nonneg b.toInt ha
    omega
  · have := Int.tmod_nonneg b.toInt (show 0 ≤ -a.toInt by omega)
    rw [Int.neg_tmod] at this
    omega

end

theorem modI_eq_srem (a b : Word) : modI a b = a.srem b := by
  rw [modI_eq_tmod, ofInt_tmod_toInt]

theorem modB_eq_srem (a b : Byte) : modB a b = a.srem b := by
  rw [modB_eq_tmod, ofInt_tmod_toInt]

/-- Settles O37, by the laws of division in every width; the sign table is evaluated. -/
theorem integerLaneLaws : Obligations.IntegerLaneLaws := by
  refine ⟨fun a b => ⟨BitVec.toNat_add a b, natCast_toNat_sub a b, BitVec.toNat_mul a b, fun hb => ?_⟩,
    by decide⟩
  refine ⟨natCast_toNat_ofInt _, natCast_toNat_ofInt _, ?_⟩
  rw [modI_eq_srem]
  exact ⟨ofInt_tdiv_mul_add_srem a b, abs_toInt_srem_lt hb, toInt_srem_sign⟩

/-- Settles O38, by the laws of division in every width; the corner -128 / -1 is evaluated. -/
theorem byteLaneLaws : Obligations.ByteLaneLaws := by
  refine ⟨fun a b => ⟨BitVec.toNat_add a b, natCast_toNat_sub a b, BitVec.toNat_mul a b, fun hb => ?_⟩,
    by decide⟩
  refine ⟨natCast_toNat_ofInt _, natCast_toNat_ofInt _, ?_⟩
  rw [modB_eq_srem]
  exact ⟨ofInt_tdiv_mul_add_srem a b, abs_toInt_srem_lt hb⟩

/-! ### Shifts in every width -/

section
variable {w : Nat} (a : BitVec w) (n : Nat)

theorem toNat_shiftLeft_eq_mul : (a <<< n).toNat = a.toNat * 2 ^ n % 2 ^ w := by
  rw [BitVec.toNat_shiftLeft, Nat.shiftLeft_eq]

theorem toNat_ushiftRight_eq_div : (a >>> n).toNat = a.toNat / 2 ^ n := by
  rw [BitVec.toNat_ushiftRight, Nat.shiftRight_eq_div_pow]

/-- An arithmetic shift is the floor division of the signed value. -/
theorem toNat_sshiftRight_eq_div : ((a.sshiftRight n).toNat : Int) = a.toInt / 2 ^ n % 2 ^ w := by
  rw [BitVec.sshiftRight, natCast_toNat_ofInt, Int.shiftRight_eq_div_pow]
  push_cast
  rfl

end

/-- From the width on, an arithmetic shift leaves copies of the sign alone. -/
theorem sshiftRight_of_width_le {w : Nat} (a : BitVec w) {n : Nat} (hn : w ≤ n) :
    a.sshiftRight n = if a.msb then BitVec.allOnes w else 0#w := by
  apply BitVec.eq_of_getLsbD_eq
  intro i hi
  rw [BitVec.getLsbD_sshiftRight, if_neg (by omega)]
  cases a.msb <;> simp [hi]

/-- In the byte lane an amount of 8 or more shifts every bit out, or leaves the sign alone (R271). -/
theorem byte_shift_out (a : Byte) {n : Nat} (hn : 8 ≤ n) :
    a <<< n = 0x00#8 ∧ a >>> n = 0x00#8 ∧ a.sshiftRight n = if a.msb then 0xFF#8 else 0x00#8 :=
  ⟨BitVec.shiftLeft_eq_zero hn, BitVec.ushiftRight_eq_zero hn, sshiftRight_of_width_le a hn⟩

/-- Settles O46: the amount is the remainder by 32, and each shift is its arithmetic in every width. -/
theorem shiftLaws : Obligations.ShiftLaws :=
  ⟨fun a b => ⟨amtWord_eq_mod b, toNat_shiftLeft_eq_mul a _, toNat_ushiftRight_eq_div a _,
      toNat_sshiftRight_eq_div a _⟩,
    fun a b => ⟨amtByte_eq_mod b, toNat_shiftLeft_eq_mul a _, toNat_ushiftRight_eq_div a _,
      toNat_sshiftRight_eq_div a _, byte_shift_out a⟩⟩

end Sys2Proof.Machine
end

section
/-! The fields of a binary32 pattern as arithmetic on numbers, and its value: an integer significand below 2^24
times a power of two (45_arithmetic.md R242). -/

namespace Sys2Proof.Machine

/-! ### The three fields -/

theorem fExp_eq (w : Word) : fExp w = w.toNat / 2 ^ 23 % 256 := by
  rw [fExp, BitVec.extractLsb'_toNat, Nat.shiftRight_eq_div_pow]

theorem fFrac_eq (w : Word) : fFrac w = w.toNat % 2 ^ 23 := by
  rw [fFrac, BitVec.extractLsb'_toNat, Nat.shiftRight_zero]

theorem fSign_toNat (w : Word) : (fSign w).toNat = w.toNat / 2 ^ 31 := by
  have hw := w.isLt
  rw [fSign, getLsbD_toNat]
  omega

/-- A pattern is its sign over its exponent over its fraction. -/
theorem toNat_eq_fields (w : Word) :
    w.toNat = (fSign w).toNat * 2 ^ 31 + (fExp w * 2 ^ 23 + fFrac w) := by
  rw [fSign_toNat, fExp_eq, fFrac_eq]
  omega

theorem fExp_lt (w : Word) : fExp w < 256 := (w.extractLsb' 23 8).isLt

theorem fFrac_lt (w : Word) : fFrac w < 2 ^ 23 := (w.extractLsb' 0 23).isLt

theorem toNat_withSign (neg : Bool) {p : Nat} (hp : p < 2 ^ 31) :
    (withSign neg p).toNat = neg.toNat * 2 ^ 31 + p := by
  have := neg.toNat_le
  rw [withSign, BitVec.toNat_ofNat]
  omega

/-- A pattern is its sign over its magnitude pattern. -/
theorem withSign_fields (w : Word) : withSign (fSign w) (fExp w * 2 ^ 23 + fFrac w) = w := by
  have := fExp_lt w
  have := fFrac_lt w
  apply BitVec.eq_of_toNat_eq
  rw [toNat_withSign _ (by omega), ← toNat_eq_fields]

section
variable (neg : Bool) {p : Nat} (hp : p < 2 ^ 31)
include hp

theorem fSign_withSign : fSign (withSign neg p) = neg := by
  have := neg.toNat_le
  apply bool_eq_of_toNat_eq
  rw [fSign_toNat, toNat_withSign neg hp]
  omega

theorem fExp_withSign : fExp (withSign neg p) = p / 2 ^ 23 := by
  rw [fExp_eq, toNat_withSign neg hp]
  omega

theorem fFrac_withSign : fFrac (withSign neg p) = p % 2 ^ 23 := by
  rw [fFrac_eq, toNat_withSign neg hp]
  omega

/-- The last bit of a pattern is the parity of its magnitude pattern. -/
theorem getLsbD_zero_withSign (heven : p % 2 = 0) : (withSign neg p).getLsbD 0 = false := by
  apply bool_eq_of_toNat_eq
  rw [getLsbD_toNat, toNat_withSign neg hp, Bool.toNat_false]
  omega

end

/-! ### The kinds of patterns -/

section
variable {w : Word}

theorem fIsNan_of_finite (h : fExp w ≠ 255) : fIsNan w = false := by
  simp [fIsNan, h]

theorem fIsInf_of_finite (h : fExp w ≠ 255) : fIsInf w = false := by
  simp [fIsInf, h]

theorem fIsInf_iff : fIsInf w = true ↔ fExp w = 255 ∧ fFrac w = 0 := by
  simp [fIsInf]

theorem fIsNan_of_inf (h : fIsInf w = true) : fIsNan w = false := by
  simp [fIsNan, (fIsInf_iff.1 h).2]

theorem fIsNan_fInf (neg : Bool) : fIsNan (fInf neg) = false := by
  cases neg <;> rfl

/-- An infinity is the one of its sign. -/
theorem eq_fInf_of_inf (h : fIsInf w = true) : w = fInf (fSign w) := by
  obtain ⟨he, hf⟩ := fIsInf_iff.1 h
  have hw := withSign_fields w
  rw [he, hf] at hw
  exact hw.symm

theorem withSign_zero (neg : Bool) : withSign neg 0 = if neg then 0x80000000#32 else 0x00000000#32 := by
  cases neg <;> rfl

/-- The zeros are the patterns with exponent and fraction 0. -/
theorem fIsZero_iff : fIsZero w = true ↔ fExp w = 0 ∧ fFrac w = 0 := by
  constructor
  · intro h
    simp only [fIsZero, Bool.or_eq_true, beq_iff_eq] at h
    obtain rfl | rfl := h
    · decide
    · decide
  · rintro ⟨he, hf⟩
    rw [← withSign_fields w, he, hf]
    cases fSign w <;> rfl

theorem finite_of_zero (h : fIsZero w = true) : fExp w ≠ 255 := by
  rw [(fIsZero_iff.1 h).1]
  decide

end

/-! ### Negation -/

section
variable (w : Word)

@[simp] theorem fExp_fneg : fExp (fneg w) = fExp w := by
  rw [fExp, fneg, BitVec.extractLsb'_xor]
  exact congrArg BitVec.toNat BitVec.xor_zero

@[simp] theorem fFrac_fneg : fFrac (fneg w) = fFrac w := by
  rw [fFrac, fneg, BitVec.extractLsb'_xor]
  exact congrArg BitVec.toNat BitVec.xor_zero

@[simp] theorem fSign_fneg : fSign (fneg w) = !fSign w := by
  rw [fSign, fneg, BitVec.getLsbD_xor]
  exact Bool.xor_true _

@[simp] theorem fIsNan_fneg : fIsNan (fneg w) = fIsNan w := by
  simp [fIsNan]

@[simp] theorem fIsInf_fneg : fIsInf (fneg w) = fIsInf w := by
  simp [fIsInf]

@[simp] theorem fMag_fneg : fMag (fneg w) = fMag w := by
  simp [fMag]

end

/-! ### Values -/

/-- A magnitude with a sign. -/
def signed (neg : Bool) (n : Nat) : Int := if neg then -(n : Int) else n

@[simp] theorem natAbs_signed (neg : Bool) (n : Nat) : (signed neg n).natAbs = n := by
  cases neg <;> simp [signed]

@[simp] theorem signed_zero (neg : Bool) : signed neg 0 = 0 := by
  cases neg <;> rfl

theorem signed_not (neg : Bool) (n : Nat) : signed (!neg) n = -signed neg n := by
  cases neg <;> simp [signed]

theorem signed_mul (s t : Bool) (m n : Nat) : signed (s != t) (m * n) = signed s m * signed t n := by
  cases s <;> cases t <;> simp [signed]

/-- The truncated remainder of signed magnitudes is theirs, with the dividend's sign. -/
theorem signed_tmod (s t : Bool) (m n : Nat) :
    (signed s m).tmod (signed t n) = signed s (m % n) := by
  cases s <;> cases t <;> simp [signed, Int.neg_tmod, Int.tmod_neg, ← Int.ofNat_tmod]

theorem fInt_eq (w : Word) : fInt w = signed (fSign w) (fMag w) := rfl

theorem fInt_fneg (w : Word) : fInt (fneg w) = -fInt w := by
  rw [fInt_eq, fInt_eq, fSign_fneg, fMag_fneg, signed_not]

theorem natAbs_fInt (w : Word) : (fInt w).natAbs = fMag w := natAbs_signed _ _

/-- The significand of a pattern: the fraction, with the hidden bit of a normal number. -/
def fSig (w : Word) : Nat := if fExp w = 0 then fFrac w else 2 ^ 23 + fFrac w

theorem fMag_eq (w : Word) : fMag w = fSig w * 2 ^ (fExp w - 1) := by
  unfold fMag fSig
  split
  case isTrue h => simp [h]
  case isFalse => rfl

theorem fSig_lt (w : Word) : fSig w < 2 ^ 24 := by
  have := fFrac_lt w
  unfold fSig
  split <;> omega

/-- A pattern whose last place is above the unit has the hidden bit. -/
theorem le_fSig {w : Word} (h : 0 < fExp w - 1) : 2 ^ 23 ≤ fSig w := by
  rw [fSig, if_neg (by omega)]
  omega

theorem fMag_eq_zero {w : Word} : fMag w = 0 ↔ fIsZero w = true := by
  rw [fIsZero_iff, fMag_eq, Nat.mul_eq_zero, or_iff_left (by positivity)]
  unfold fSig
  split
  case isTrue h => simp [h]
  case isFalse h => simp [h]

theorem fInt_eq_zero {w : Word} : fInt w = 0 ↔ fIsZero w = true := by
  rw [← Int.natAbs_eq_zero, natAbs_fInt, fMag_eq_zero]

/-- A finite value lies below the place of the infinities, 2^277 units. -/
theorem fMag_lt {w : Word} (h : fExp w ≠ 255) : fMag w < 2 ^ 24 * 2 ^ 253 := by
  have he := fExp_lt w
  calc fMag w = fSig w * 2 ^ (fExp w - 1) := fMag_eq w
    _ < 2 ^ 24 * 2 ^ (fExp w - 1) := Nat.mul_lt_mul_of_pos_right (fSig_lt w) (by positivity)
    _ ≤ 2 ^ 24 * 2 ^ 253 := Nat.mul_le_mul_left _ (Nat.pow_le_pow_right (by decide) (by omega))

theorem fInt_fInf (neg : Bool) : fInt (fInf neg) = signed neg (2 ^ 24 * 2 ^ 253) := by
  cases neg <;> rfl

/-- Every finite value is between the two infinities. -/
theorem fInt_between {w : Word} (h : fExp w ≠ 255) :
    fInt (fInf true) < fInt w ∧ fInt w < fInt (fInf false) := by
  have hlt := fMag_lt h
  have hw := natAbs_fInt w
  rw [fInt_fInf, fInt_fInf]
  simp only [signed, if_true, if_false, Bool.false_eq_true]
  omega

/-! ### Comparisons (R242, the spec's own decision D17) -/

section
variable {a b : Word}

theorem fgt_of_nan (h : fIsNan a = true ∨ fIsNan b = true) : fgt a b = false ∧ fge a b = false := by
  obtain h | h := h
  · simp [fgt, fge, h]
  · simp [fgt, fge, h]

theorem fgt_iff (ha : fIsNan a = false) (hb : fIsNan b = false) : fgt a b = true ↔ fInt b < fInt a := by
  rw [fgt, ha, hb]
  exact decide_eq_true_iff

theorem fge_iff (ha : fIsNan a = false) (hb : fIsNan b = false) : fge a b = true ↔ fInt b ≤ fInt a := by
  rw [fge, ha, hb]
  exact decide_eq_true_iff

end

/-- Settles O43: a comparison without a NaN is that of the places on the number line. -/
theorem floatComparisonsAreOrdered : Obligations.FloatComparisonsAreOrdered := by
  intro a b
  have hself : fgt a a = false := by simp [fgt]
  refine ⟨fgt_of_nan, fun ha hb => ?zeros, fun ha hb => ?finite, fun hb => ?infinite,
    ⟨by decide, hself⟩, fun ha => (fge_iff ha ha).2 le_rfl⟩
  case zeros =>
    have hna := fIsNan_of_finite (finite_of_zero ha)
    have hnb := fIsNan_of_finite (finite_of_zero hb)
    rw [← Bool.not_eq_true, fgt_iff hna hnb, fge_iff hna hnb, fInt_eq_zero.2 ha, fInt_eq_zero.2 hb]
    exact ⟨lt_irrefl _, le_rfl⟩
  case finite =>
    have hna := fIsNan_of_finite ha
    have hnb := fIsNan_of_finite hb
    exact ⟨fgt_iff hna hnb, fge_iff hna hnb⟩
  case infinite =>
    have hnb := fIsNan_of_finite hb
    obtain ⟨hlow, hhigh⟩ := fInt_between hb
    exact ⟨(fgt_iff (fIsNan_fInf _) hnb).2 hhigh, (fge_iff (fIsNan_fInf _) hnb).2 hhigh.le,
      (fgt_iff hnb (fIsNan_fInf _)).2 hlow, (fge_iff hnb (fIsNan_fInf _)).2 hlow.le⟩

end Sys2Proof.Machine
end

section
/-! Rounding to nearest, ties to even (45_arithmetic.md R242, the spec's own decision D15): first to an integer,
then to a pattern, whose values are the multiples of the last place and coarser ones. -/

namespace Sys2Proof.Machine

/-! ### To an integer -/

section
variable {num den : Nat}

/-- The rounded quotient is the quotient or the next integer: the nearer one, and of a tie the even one. -/
theorem roundHalfEven_cases :
    (roundHalfEven num den = num / den ∧
      (2 * (num % den) < den ∨ 2 * (num % den) = den ∧ num / den % 2 = 0)) ∨
    (roundHalfEven num den = num / den + 1 ∧
      (den < 2 * (num % den) ∨ 2 * (num % den) = den ∧ num / den % 2 = 1)) := by
  simp only [roundHalfEven]
  split_ifs <;> omega

theorem roundHalfEven_zero (den : Nat) : roundHalfEven 0 den = 0 := by
  simp [roundHalfEven]

/-- `d` places of `den`: negative ones, none, one, or at least two. -/
theorem mul_place_cases (d : Int) (den : Nat) :
    (d < 0 ∧ d * den ≤ -den) ∨ (d = 0 ∧ d * den = 0) ∨ (d = 1 ∧ d * den = den) ∨
      (1 < d ∧ 2 * den ≤ d * den) := by
  rcases lt_trichotomy d 0 with h | rfl | h
  · exact .inl ⟨h, by nlinarith⟩
  · exact .inr (.inl ⟨rfl, by ring⟩)
  · rcases eq_or_lt_of_le (show 1 ≤ d by omega) with rfl | h
    · exact .inr (.inr (.inl ⟨rfl, by ring⟩))
    · exact .inr (.inr (.inr ⟨h, by nlinarith⟩))

/-- No integer is nearer, and of two as near the rounded one is even. -/
theorem roundHalfEven_nearest (hden : 0 < den) (m : Int) :
    (roundHalfEven num den * den - num : Int).natAbs ≤ (m * den - num).natAbs ∧
      ((m * den - num).natAbs = (roundHalfEven num den * den - num : Int).natAbs →
        m = roundHalfEven num den ∨ roundHalfEven num den % 2 = 0) := by
  have hnum : (num : Int) = (num / den : Nat) * den + (num % den : Nat) := by
    exact_mod_cast (Nat.div_add_mod' num den).symm
  have hr := Nat.mod_lt num hden
  have hround := roundHalfEven_cases (num := num) (den := den)
  generalize num / den = q at *
  generalize num % den = r at *
  have hoff (n : Int) : n * den - num = (n - q) * den - r := by
    rw [hnum]
    ring
  have hm := mul_place_cases (m - q) den
  have hn := mul_place_cases (roundHalfEven num den - q) den
  rw [hoff, hoff]
  generalize (m - q) * (den : Int) = x at *
  generalize (roundHalfEven num den - q : Int) * den = y at *
  omega

/-- An even integer is reached from half a place below it on. -/
theorem le_roundHalfEven_iff (hden : 0 < den) {c : Nat} (hc : c % 2 = 0) :
    c ≤ roundHalfEven num den ↔ (2 * c - 1 : Int) * den ≤ 2 * num := by
  have hnum : (num : Int) = (num / den : Nat) * den + (num % den : Nat) := by
    exact_mod_cast (Nat.div_add_mod' num den).symm
  have hr := Nat.mod_lt num hden
  have hround := roundHalfEven_cases (num := num) (den := den)
  generalize num / den = q at *
  generalize num % den = r at *
  have hplaces := mul_place_cases (q - (c - 1)) den
  have hgap : (2 * num : Int) - (2 * c - 1) * den = 2 * ((q - (c - 1)) * den) + 2 * r - den := by
    rw [hnum]
    ring
  generalize (q - (c - 1) : Int) * den = x at *
  generalize (2 * c - 1 : Int) * den = y at *
  omega

end

/-! ### The last place of a value of `num / den` units -/

/-- The significand keeps at most 24 bits. -/
theorem div_place_lt (num den : Nat) : num / (den * 2 ^ ulpShift num den) < 2 ^ 24 := by
  rw [← Nat.div_div_eq_div_mul]
  refine Nat.div_lt_of_lt_mul ?_
  calc num / den < 2 ^ (Nat.log2 (num / den) + 1) := Nat.lt_log2_self
    _ ≤ 2 ^ (ulpShift num den + 24) := Nat.pow_le_pow_right (by decide) (by unfold ulpShift; omega)
    _ = 2 ^ ulpShift num den * 2 ^ 24 := Nat.pow_add ..

/-- A last place above the unit leaves 24 bits. -/
theorem place_le {num den : Nat} (hden : 0 < den) (hk : 0 < ulpShift num den) :
    2 ^ 23 * (den * 2 ^ ulpShift num den) ≤ num := by
  have hlog : Nat.log2 (num / den) = 23 + ulpShift num den := by
    unfold ulpShift at *
    omega
  have hne : num / den ≠ 0 := by
    intro h
    rw [h, Nat.log2_zero] at hlog
    omega
  have hle : 2 ^ (23 + ulpShift num den) ≤ num / den := (Nat.le_log2 hne).1 hlog.ge
  calc 2 ^ 23 * (den * 2 ^ ulpShift num den) = 2 ^ (23 + ulpShift num den) * den := by ring
    _ ≤ num := (Nat.le_div_iff_mul_le hden).1 hle

/-- The rounded significand of `num / den`, in its last places. -/
def roundedSig (num den : Nat) : Nat := roundHalfEven num (den * 2 ^ ulpShift num den)

theorem roundMag_eq (num den : Nat) :
    roundMag num den = min (ulpShift num den * 2 ^ 23 + roundedSig num den) (255 * 2 ^ 23) := rfl

section
variable {num den : Nat}

theorem roundedSig_le : roundedSig num den ≤ 2 ^ 24 := by
  have := div_place_lt num den
  have := roundHalfEven_cases (num := num) (den := den * 2 ^ ulpShift num den)
  unfold roundedSig
  omega

section
variable (hden : 0 < den)
include hden

theorem le_roundedSig (hk : 0 < ulpShift num den) : 2 ^ 23 ≤ roundedSig num den := by
  have hle := (Nat.le_div_iff_mul_le (by positivity)).2 (place_le hden hk)
  have := roundHalfEven_cases (num := num) (den := den * 2 ^ ulpShift num den)
  unfold roundedSig
  omega

/-- No value `m * 2 ^ j` with a significand below 2^24 is nearer than the rounded one: a coarser place is a
multiple of the last place, and with a finer one the value lies below 2^23 last places, which do not exceed
`num / den`. -/
theorem roundedSig_nearest {m j : Nat} (hm : m < 2 ^ 24) :
    (roundedSig num den * 2 ^ ulpShift num den * den - num : Int).natAbs ≤
        (m * 2 ^ j * den - num : Int).natAbs ∧
      ((m * 2 ^ j * den - num : Int).natAbs =
          (roundedSig num den * 2 ^ ulpShift num den * den - num : Int).natAbs →
        m * 2 ^ j = roundedSig num den * 2 ^ ulpShift num den ∨ roundedSig num den % 2 = 0) := by
  have hplace : 0 < den * 2 ^ ulpShift num den := by positivity
  have hnearest (n : Int) := roundHalfEven_nearest (num := num) hplace n
  rw [← roundedSig] at hnearest
  have hround : (roundedSig num den * 2 ^ ulpShift num den * den : Int) =
      roundedSig num den * (den * 2 ^ ulpShift num den : Nat) := by
    push_cast
    ring
  rw [hround]
  rcases le_or_gt (ulpShift num den) j with hj | hj
  · obtain ⟨i, rfl⟩ := Nat.exists_eq_add_of_le hj
    have hval : (m * 2 ^ (ulpShift num den + i) * den : Int) =
        (m * 2 ^ i : Nat) * (den * 2 ^ ulpShift num den : Nat) := by
      push_cast
      ring
    rw [hval]
    refine ⟨(hnearest _).1, fun heq => ((hnearest _).2 heq).imp_left fun h => ?_⟩
    rw [← Int.ofNat_inj.1 h]
    ring
  · have hle := place_le hden (by omega : 0 < ulpShift num den)
    have hlt : m * 2 ^ j * den < 2 ^ 23 * (den * 2 ^ ulpShift num den) := by
      calc m * 2 ^ j * den < 2 ^ 24 * 2 ^ j * den := by gcongr
        _ = 2 ^ 23 * (den * 2 ^ (j + 1)) := by ring
        _ ≤ 2 ^ 23 * (den * 2 ^ ulpShift num den) := by gcongr <;> omega
    have hnear := (hnearest (2 ^ 23 : Nat)).1
    zify at hle hlt
    push_cast at hnear ⊢
    omega

/-- The magnitude rounds to an infinity exactly from half a last place above the largest finite one on. -/
theorem overflow_iff :
    (den : Int) * ((2 ^ 25 - 1) * 2 ^ 253) ≤ 2 * num ↔
      255 * 2 ^ 23 ≤ ulpShift num den * 2 ^ 23 + roundedSig num den := by
  have hsig := roundedSig_le (num := num) (den := den)
  rcases lt_trichotomy (ulpShift num den) 253 with hk | hk | hk
  · refine iff_of_false ?_ (by omega)
    have hplace : den * 2 ^ ulpShift num den * 2 ≤ den * 2 ^ 253 := by
      rw [mul_assoc, ← pow_succ]
      gcongr <;> omega
    have hlt : num < 2 ^ 24 * (den * 2 ^ ulpShift num den) :=
      (Nat.div_lt_iff_lt_mul (by positivity)).1 (div_place_lt num den)
    zify at hplace hlt
    nlinarith
  · have hround := le_roundHalfEven_iff (num := num) (den := den * 2 ^ ulpShift num den) (by positivity)
      (c := 2 ^ 24) (by decide)
    rw [← roundedSig] at hround
    rw [show 255 * 2 ^ 23 ≤ ulpShift num den * 2 ^ 23 + roundedSig num den ↔ 2 ^ 24 ≤ roundedSig num den
      by omega, hround, hk]
    push_cast
    ring_nf
  · refine iff_of_true ?_ ?_
    · have hplace : den * 2 ^ 254 ≤ den * 2 ^ ulpShift num den := by
        gcongr <;> omega
      have hle := place_le hden (by omega : 0 < ulpShift num den)
      zify at hplace hle
      nlinarith
    · have := le_roundedSig hden (by omega : 0 < ulpShift num den)
      omega

end

end

/-! ### To a pattern -/

/-- The pattern of `n` last places, `k` of them counted by the exponent, has that value (R242). -/
theorem fMag_withSign (neg : Bool) {k n : Nat} (hn : n ≤ 2 ^ 24) (hk : k = 0 ∨ 2 ^ 23 ≤ n)
    (hp : k * 2 ^ 23 + n < 2 ^ 31) : fMag (withSign neg (k * 2 ^ 23 + n)) = n * 2 ^ k := by
  rw [fMag, fExp_withSign neg hp, fFrac_withSign neg hp]
  rcases lt_trichotomy n (2 ^ 24) with hlt | rfl | hgt
  · rcases le_or_gt (2 ^ 23) n with hle | hsub
    · have hexp : (k * 2 ^ 23 + n) / 2 ^ 23 = k + 1 := by omega
      have hfrac : 2 ^ 23 + (k * 2 ^ 23 + n) % 2 ^ 23 = n := by omega
      rw [hexp, hfrac, if_neg (by omega), Nat.add_sub_cancel]
    · obtain rfl : k = 0 := by omega
      rw [if_pos (by omega), pow_zero]
      omega
  · have hexp : (k * 2 ^ 23 + 2 ^ 24) / 2 ^ 23 = k + 2 := by omega
    have hfrac : (k * 2 ^ 23 + 2 ^ 24) % 2 ^ 23 = 0 := by omega
    rw [hexp, hfrac, if_neg (by omega), show k + 2 - 1 = k + 1 by omega]
    ring
  · omega

theorem roundMag_lt (num den : Nat) : roundMag num den < 2 ^ 31 := by
  rw [roundMag_eq]
  omega

@[simp] theorem fSign_roundTo (neg : Bool) (num den : Nat) : fSign (roundTo neg num den) = neg :=
  fSign_withSign neg (roundMag_lt num den)

theorem roundTo_zero (neg : Bool) (den : Nat) : roundTo neg 0 den = withSign neg 0 := by
  rw [roundTo, roundMag_eq, roundedSig, roundHalfEven_zero, ulpShift, Nat.zero_div, Nat.log2_zero]
  rfl

section
variable (neg : Bool) {num den : Nat} (hden : 0 < den)

theorem roundTo_of_overflow (h : 255 * 2 ^ 23 ≤ ulpShift num den * 2 ^ 23 + roundedSig num den) :
    roundTo neg num den = fInf neg := by
  rw [roundTo, roundMag_eq, min_eq_right h]
  rfl

section
variable (h : ulpShift num den * 2 ^ 23 + roundedSig num den < 255 * 2 ^ 23)
include h

theorem roundTo_of_finite :
    roundTo neg num den = withSign neg (ulpShift num den * 2 ^ 23 + roundedSig num den) := by
  rw [roundTo, roundMag_eq, min_eq_left h.le]

theorem fExp_roundTo : fExp (roundTo neg num den) ≠ 255 := by
  rw [roundTo_of_finite neg h, fExp_withSign neg (by omega)]
  omega

include hden in
theorem fMag_roundTo : fMag (roundTo neg num den) = roundedSig num den * 2 ^ ulpShift num den := by
  rw [roundTo_of_finite neg h]
  refine fMag_withSign neg roundedSig_le ?_ (by omega)
  have := le_roundedSig (num := num) hden
  omega

end

/-- A value with a significand below 2^24 and an exponent in range is not changed by rounding. -/
theorem roundTo_exact {m j : Nat} (hm : m < 2 ^ 24) (hj : j ≤ 253) (hnum : num = m * 2 ^ j) :
    fExp (roundTo neg num 1) ≠ 255 ∧ fMag (roundTo neg num 1) = num := by
  have hfinite : ulpShift num 1 * 2 ^ 23 + roundedSig num 1 < 255 * 2 ^ 23 := by
    rw [← not_le, ← overflow_iff one_pos, not_le, hnum]
    have hlt : m * 2 ^ j ≤ (2 ^ 24 - 1) * 2 ^ 253 :=
      Nat.mul_le_mul (by omega) (Nat.pow_le_pow_right (by decide) hj)
    zify at hlt
    push_cast at hlt ⊢
    omega
  have hzero : (m * 2 ^ j * (1 : Nat) - num : Int).natAbs = 0 := by
    rw [hnum]
    push_cast
    simp
  have hnear := (roundedSig_nearest (num := num) one_pos (j := j) hm).1
  rw [hzero] at hnear
  refine ⟨fExp_roundTo neg hfinite, ?_⟩
  rw [fMag_roundTo neg one_pos hfinite]
  zify
  push_cast at hnear
  omega

end

/-! ### The rounded result (R242) -/

theorem natAbs_signed_sub (neg : Bool) (x y den : Nat) :
    (signed neg x * den - signed neg y).natAbs = (x * den - y : Int).natAbs := by
  cases neg
  · rfl
  · rw [← Int.natAbs_neg]
    congr 1
    simp only [signed, if_true]
    ring

theorem natAbs_signed_sub_of_ne {s t : Bool} (hst : s ≠ t) (x y den : Nat) :
    (signed s x * den - signed t y).natAbs = x * den + y := by
  obtain rfl := Bool.eq_not_of_ne hst
  have hsum : signed (!t) x * den - signed t y = -signed t (x * den + y) := by
    cases t
    · show -(x : Int) * den - y = -((x * den + y : Nat) : Int)
      push_cast
      ring
    · show (x : Int) * den - -y = - -((x * den + y : Nat) : Int)
      push_cast
      ring
  rw [hsum, Int.natAbs_neg, natAbs_signed]

/-- A rounded magnitude that no other is nearer than, and of two as near the even one, is the rounded value for
either sign: a value of the other sign is no nearer than 0. -/
theorem signed_nearest {neg : Bool} {num den : Nat} (hden : 0 < den) (s : Bool) {m j : Nat}
    (hm : m < 2 ^ 24) :
    (signed neg (roundedSig num den * 2 ^ ulpShift num den) * den - signed neg num).natAbs ≤
        (signed s (m * 2 ^ j) * den - signed neg num).natAbs ∧
      ((signed s (m * 2 ^ j) * den - signed neg num).natAbs =
          (signed neg (roundedSig num den * 2 ^ ulpShift num den) * den - signed neg num).natAbs →
        signed s (m * 2 ^ j) = signed neg (roundedSig num den * 2 ^ ulpShift num den) ∨
          roundedSig num den % 2 = 0) := by
  by_cases hs : s = neg
  · obtain rfl := hs
    have hnear := roundedSig_nearest (num := num) hden (j := j) hm
    simp only [natAbs_signed_sub, Nat.cast_mul, Nat.cast_pow, Nat.cast_ofNat]
    exact ⟨hnear.1, fun heq => (hnear.2 heq).imp_left fun h => by rw [h]⟩
  · have hzero := roundedSig_nearest (num := num) hden (m := 0) (j := 0) (by decide)
    rw [natAbs_signed_sub, natAbs_signed_sub_of_ne hs]
    simp only [Nat.cast_mul, Nat.cast_pow, Nat.cast_ofNat, Nat.cast_zero, zero_mul, zero_sub, Int.natAbs_neg,
      Int.natAbs_natCast] at hzero ⊢
    refine ⟨by omega, fun heq => ?_⟩
    have hm0 : m * 2 ^ j * den = 0 := by omega
    have hval : m * 2 ^ j = 0 := (Nat.mul_eq_zero.1 hm0).resolve_right (by omega)
    rw [hval]
    refine (hzero.2 (by omega)).imp_left fun h => ?_
    rw [← h, signed_zero, signed_zero]

/-- The pattern of a signed ratio is the ratio rounded to nearest, ties to even. -/
theorem isRounded_roundTo (neg : Bool) (num : Nat) {den : Nat} (hden : 0 < den) :
    isRounded (roundTo neg num den) (signed neg num) den := by
  unfold isRounded
  rw [Int.abs_eq_natAbs, natAbs_signed]
  split
  case isTrue h =>
    have hneg : decide (signed neg num < 0) = neg := by
      have hpos : 0 < num := by
        by_contra hnum
        obtain rfl : num = 0 := by omega
        have : (0 : Int) < den := by exact_mod_cast hden
        omega
      cases neg <;> simp [signed, hpos]
    rw [roundTo_of_overflow neg ((overflow_iff hden).1 h), hneg]
  case isFalse h =>
    have hfinite := not_le.1 (mt (overflow_iff hden).2 h)
    refine ⟨fExp_roundTo neg hfinite, fun q _ => ?_⟩
    have hq : fInt q = signed (fSign q) (fSig q * 2 ^ (fExp q - 1)) := by rw [fInt_eq, fMag_eq]
    have hr : fInt (roundTo neg num den) = signed neg (roundedSig num den * 2 ^ ulpShift num den) := by
      rw [fInt_eq, fSign_roundTo, fMag_roundTo neg hden hfinite]
    have hnear := signed_nearest (neg := neg) (num := num) hden (fSign q) (j := fExp q - 1) (fSig_lt q)
    rw [hq, hr, Int.abs_eq_natAbs, Int.abs_eq_natAbs]
    refine ⟨Int.ofNat_le.2 hnear.1, fun heq => (hnear.2 (Int.ofNat_inj.1 heq)).imp_right fun heven => ?_⟩
    rw [roundTo_of_finite neg hfinite]
    exact getLsbD_zero_withSign neg (by omega) (by omega)

end Sys2Proof.Machine
end

section
/-! Float arithmetic by the kinds of its operands (45_arithmetic.md R242, the spec's own decision D15): finite
operands give a rounded result, an infinite one or a NaN a special value. -/

namespace Sys2Proof.Machine

/-! ### Finite operands -/

section
variable {a b : Word} (ha : fExp a ≠ 255) (hb : fExp b ≠ 255)
include ha hb

theorem fadd_of_finite : fadd a b = some (finiteSum (fSign a && fSign b) (fInt a + fInt b)) := by
  simp [fadd, fIsNan_of_finite ha, fIsNan_of_finite hb, fIsInf_of_finite ha, fIsInf_of_finite hb]

theorem fsub_of_finite : fsub a b = some (finiteSum (fSign a && !fSign b) (fInt a - fInt b)) := by
  rw [fsub, fadd_of_finite ha (by rwa [fExp_fneg]), fSign_fneg, fInt_fneg, Int.sub_eq_add_neg]

theorem fmul_of_finite : fmul a b = some (roundTo (fSign a != fSign b) (fMag a * fMag b) (2 ^ 149)) := by
  simp [fmul, fIsNan_of_finite ha, fIsNan_of_finite hb, fIsInf_of_finite ha, fIsInf_of_finite hb]

theorem fdiv_of_finite (hz : fIsZero b = false) :
    fdiv a b = some (roundTo (fSign a != fSign b) (fMag a * 2 ^ 149) (fMag b)) := by
  simp [fdiv, fIsNan_of_finite ha, fIsNan_of_finite hb, fIsInf_of_finite ha, fIsInf_of_finite hb, hz]

theorem frem_of_finite (hz : fIsZero b = false) :
    frem a b = some (roundTo (fSign a) (fMag a % fMag b) 1) := by
  simp [frem, fIsNan_of_finite ha, fIsNan_of_finite hb, fIsInf_of_finite ha, fIsInf_of_finite hb, hz]

end

theorem fMag_pos {w : Word} (h : fIsZero w = false) : 0 < fMag w :=
  Nat.pos_of_ne_zero fun h0 => by simp [fMag_eq_zero.1 h0] at h

/-- An exact sum rounded is the sum rounded to nearest; a zero sum is a zero of either sign. -/
theorem isRounded_finiteSum (negZero : Bool) (n : Int) : isRounded (finiteSum negZero n) n 1 := by
  have hsigned (neg : Bool) (h : signed neg n.natAbs = n) : isRounded (roundTo neg n.natAbs 1) n 1 := by
    have := isRounded_roundTo neg n.natAbs one_pos
    rwa [h] at this
  unfold finiteSum
  split
  case isTrue h =>
    subst h
    rw [← roundTo_zero negZero 1]
    exact hsigned negZero (signed_zero negZero)
  case isFalse h =>
    refine hsigned _ ?_
    simp only [signed, decide_eq_true_eq]
    split <;> omega

theorem isRounded_fmul (a b : Word) :
    isRounded (roundTo (fSign a != fSign b) (fMag a * fMag b) (2 ^ 149)) (fInt a * fInt b) (2 ^ 149) := by
  rw [fInt_eq, fInt_eq, ← signed_mul]
  exact isRounded_roundTo _ _ (by positivity)

theorem isRounded_fdiv (a : Word) {b : Word} (hb : fIsZero b = false) :
    isRounded (roundTo (fSign a != fSign b) (fMag a * 2 ^ 149) (fMag b))
      (fInt a * signed (fSign b) (2 ^ 149)) (fInt b).natAbs := by
  rw [fInt_eq a, ← signed_mul, natAbs_fInt]
  exact isRounded_roundTo _ _ (fMag_pos hb)

theorem fSign_of_fInt_pos {w : Word} (h : 0 < fInt w) : fSign w = false := by
  cases hs : fSign w with
  | false => rfl
  | true =>
    rw [fInt_eq, hs, signed, if_pos rfl] at h
    omega

theorem fSign_of_fInt_neg {w : Word} (h : fInt w < 0) : fSign w = true := by
  cases hs : fSign w with
  | true => rfl
  | false =>
    rw [fInt_eq, hs, signed, if_neg Bool.false_ne_true] at h
    omega

/-- Settles O40: each result is an exact sum or ratio, rounded. -/
theorem floatResultsAreRoundedToNearestEven : Obligations.FloatResultsAreRoundedToNearestEven := by
  intro a b ha hb
  have hdiv (h : fInt b ≠ 0) : ∃ r, fdiv a b = some r ∧
      isRounded r (fInt a * signed (fSign b) (2 ^ 149)) (fInt b).natAbs := by
    have hz : fIsZero b = false := Bool.not_eq_true _ ▸ mt fInt_eq_zero.2 h
    exact ⟨_, fdiv_of_finite ha hb hz, isRounded_fdiv a hz⟩
  refine ⟨⟨_, fadd_of_finite ha hb, isRounded_finiteSum _ _⟩,
    ⟨_, fsub_of_finite ha hb, isRounded_finiteSum _ _⟩, ⟨_, fmul_of_finite ha hb, isRounded_fmul a b⟩,
    fun hpos => ?pos, fun hneg => ?neg⟩
  case pos => simpa [fSign_of_fInt_pos hpos, signed] using hdiv hpos.ne'
  case neg => simpa [fSign_of_fInt_neg hneg, signed] using hdiv hneg.ne

/-! ### The remainder -/

/-- A remainder of magnitudes has a significand below 2^24: the dividend's place, where it is finer than the
divisor's, leaves the dividend below the divisor, and otherwise the remainder is a multiple of the divisor's. -/
theorem fMag_mod_form (a b : Word) (hb : fIsZero b = false) :
    ∃ m < 2 ^ 24, ∃ j ∈ [fExp a - 1, fExp b - 1], fMag a % fMag b = m * 2 ^ j := by
  have hsa := fSig_lt a
  have hsb := fSig_lt b
  rcases le_or_gt (fExp b - 1) (fExp a - 1) with h | h
  · obtain ⟨i, hi⟩ := Nat.exists_eq_add_of_le h
    have hpos : 0 < fSig b := Nat.pos_of_ne_zero fun h0 => by
      have := fMag_pos hb
      rw [fMag_eq, h0, zero_mul] at this
      omega
    refine ⟨fSig a * 2 ^ i % fSig b, (Nat.mod_lt _ hpos).trans hsb, fExp b - 1, by simp, ?_⟩
    rw [fMag_eq a, fMag_eq b, hi, Nat.pow_add, ← Nat.mul_mod_mul_right]
    congr 1
    ring
  · have hlt : fMag a < fMag b := by
      calc fMag a = fSig a * 2 ^ (fExp a - 1) := fMag_eq a
        _ < 2 ^ 24 * 2 ^ (fExp a - 1) := by gcongr
        _ = 2 ^ 23 * 2 ^ (fExp a - 1 + 1) := by ring
        _ ≤ fSig b * 2 ^ (fExp b - 1) := by
          gcongr
          · exact le_fSig (by omega)
          · decide
          · omega
        _ = fMag b := (fMag_eq b).symm
    exact ⟨fSig a, hsa, fExp a - 1, by simp, by rw [Nat.mod_eq_of_lt hlt, fMag_eq]⟩

/-- Settles O42: the remainder of the magnitudes is a pattern's value, so rounding does not change it. -/
theorem floatRemainderIsTruncatedAndExact : Obligations.FloatRemainderIsTruncatedAndExact := by
  intro a b ha hb hz
  have hea := fExp_lt a
  have heb := fExp_lt b
  obtain ⟨m, hm, j, hj, hmod⟩ := fMag_mod_form a b hz
  have hj' : j ≤ 253 := by
    simp only [List.mem_cons, List.not_mem_nil, or_false] at hj
    omega
  obtain ⟨hfin, hmag⟩ := roundTo_exact (fSign a) hm hj' hmod
  refine ⟨_, frem_of_finite ha hb hz, hfin, fSign_roundTo .., ?_, ?_⟩
  · rw [hmag]
    exact Nat.mod_lt _ (fMag_pos hz)
  · rw [fInt_eq, hmag, fSign_roundTo, fInt_eq, fInt_eq, signed_tmod]

/-! ### Immediates of the float lane (40_operands.md R147) -/

/-- A number below 2^24 is converted exactly (00_scope.md R13). -/
theorem i2f_exact {n : Nat} (hn : n < 2 ^ 24) :
    fExp (i2f n) ≠ 255 ∧ fSign (i2f n) = false ∧ fInt (i2f n) = n * 2 ^ 149 := by
  obtain ⟨hfin, hmag⟩ := roundTo_exact false hn (by decide : 149 ≤ 253) rfl
  refine ⟨hfin, fSign_roundTo .., ?_⟩
  rw [i2f, fInt_eq, fSign_roundTo, hmag]
  simp [signed]

/-- Settles O20: a 19-bit number fits the significand. -/
theorem immediatesEnterTheirLanes : Obligations.ImmediatesEnterTheirLanes := by
  intro s v
  refine ⟨rfl, rfl, fun h => ?reinterpret, fun h => ?convert⟩
  case reinterpret => simp only [srcWord, immWord, h]
  case convert =>
    have hv := v.isLt
    exact ⟨i2f v.toNat, by simp only [srcWord, immWord, h], i2f_exact (by omega)⟩

end Sys2Proof.Machine
end

section
/-! The special values of float arithmetic (45_arithmetic.md R242, the spec's own decision D15): NaN operands,
infinite ones, and the signs of zeros. -/

namespace Sys2Proof.Machine

/-! ### Infinite operands -/

section
variable {a b : Word}

theorem fIsZero_of_inf (h : fIsInf a = true) : fIsZero a = false := by
  rw [← Bool.not_eq_true, fIsZero_iff, (fIsInf_iff.1 h).1]
  simp

theorem fneg_of_inf (ha : fIsInf a = true) : fneg a = fInf (!fSign a) := by
  rw [eq_fInf_of_inf (w := fneg a) (by rwa [fIsInf_fneg]), fSign_fneg]

theorem fadd_of_nan (h : fIsNan a = true ∨ fIsNan b = true) : fadd a b = none := by
  simp [fadd, h]

theorem fadd_inf_left (ha : fIsInf a = true) (hb : fExp b ≠ 255) : fadd a b = some a := by
  simp [fadd, ha, fIsNan_of_inf ha, fIsNan_of_finite hb, fIsInf_of_finite hb]

theorem fadd_inf_right (ha : fExp a ≠ 255) (hb : fIsInf b = true) : fadd a b = some b := by
  simp [fadd, hb, fIsNan_of_inf hb, fIsNan_of_finite ha, fIsInf_of_finite ha]

theorem fadd_inf_inf (ha : fIsInf a = true) (hb : fIsInf b = true) :
    fadd a b = if fSign a = fSign b then some a else none := by
  simp [fadd, ha, hb, fIsNan_of_inf ha, fIsNan_of_inf hb]

/-- A NaN operand gives a NaN. -/
theorem arith_of_nan (h : fIsNan a = true ∨ fIsNan b = true) :
    fadd a b = none ∧ fsub a b = none ∧ fmul a b = none ∧ fdiv a b = none ∧ frem a b = none :=
  ⟨fadd_of_nan h, fadd_of_nan (by rwa [fIsNan_fneg]), by simp [fmul, h], by simp [fdiv, h],
    by simp [frem, h]⟩

theorem withSign_zero_of_ne (s t : Bool) :
    withSign (s != t) 0 = if s = t then 0x00000000#32 else 0x80000000#32 := by
  cases s <;> cases t <;> rfl

/-- An infinite operand beside a finite one decides a product, a quotient and a remainder. -/
theorem fmul_inf_finite (ha : fIsInf a = true) (hb : fExp b ≠ 255) :
    fmul a b = (if fIsZero b then none else some (fInf (fSign a != fSign b))) ∧
      fmul b a = if fIsZero b then none else some (fInf (fSign a != fSign b)) := by
  simp [fmul, ha, fIsNan_of_inf ha, fIsNan_of_finite hb, fIsInf_of_finite hb, bne_comm (a := fSign b)]

theorem fdiv_inf_finite (ha : fIsInf a = true) (hb : fExp b ≠ 255) :
    fdiv a b = some (fInf (fSign a != fSign b)) ∧
      fdiv b a = some (if fSign a = fSign b then 0x00000000#32 else 0x80000000#32) := by
  rw [← withSign_zero_of_ne]
  simp [fdiv, ha, fIsNan_of_inf ha, fIsNan_of_finite hb, fIsInf_of_finite hb, bne_comm (a := fSign b)]

theorem frem_inf_finite (ha : fIsInf a = true) (hb : fExp b ≠ 255) :
    frem a b = none ∧ frem b a = some b := by
  simp [frem, ha, fIsNan_of_inf ha, fIsZero_of_inf ha, fIsNan_of_finite hb, fIsInf_of_finite hb]

theorem fsub_inf_finite (ha : fIsInf a = true) (hb : fExp b ≠ 255) :
    fsub a b = some a ∧ fsub b a = some (fInf (!fSign a)) := by
  rw [fsub, fsub, fadd_inf_left ha (by rwa [fExp_fneg]), fadd_inf_right hb (by rwa [fIsInf_fneg]),
    fneg_of_inf ha]
  exact ⟨rfl, rfl⟩

/-- Two infinite operands: only the sum of like ones, the difference of unlike ones and the product are no
NaN. -/
theorem arith_inf_inf (ha : fIsInf a = true) (hb : fIsInf b = true) :
    fadd a b = (if fSign a = fSign b then some a else none) ∧
      fsub a b = (if fSign a = fSign b then none else some a) ∧
      fmul a b = some (fInf (fSign a != fSign b)) ∧ fdiv a b = none ∧ frem a b = none := by
  refine ⟨fadd_inf_inf ha hb, ?sub, ?mul, ?div, ?rem⟩
  case sub =>
    rw [fsub, fadd_inf_inf ha (by rwa [fIsInf_fneg]), fSign_fneg]
    cases fSign a <;> cases fSign b <;> rfl
  case mul => simp [fmul, ha, fIsNan_of_inf ha, fIsNan_of_inf hb, fIsZero_of_inf hb]
  case div => simp [fdiv, ha, hb, fIsNan_of_inf ha, fIsNan_of_inf hb]
  case rem => simp [frem, ha, fIsNan_of_inf ha, fIsNan_of_inf hb]

/-! ### Zeros and signs of finite results -/

theorem finiteSum_zero (negZero : Bool) :
    finiteSum negZero 0 = if negZero = true then 0x80000000#32 else 0x00000000#32 :=
  withSign_zero negZero

section
variable (ha : fExp a ≠ 255) (hb : fExp b ≠ 255)
include ha hb

theorem fadd_zero_sum (h : fInt a + fInt b = 0) :
    fadd a b = some (if fSign a = true ∧ fSign b = true then 0x80000000#32 else 0x00000000#32) := by
  rw [fadd_of_finite ha hb, h, finiteSum_zero]
  simp only [Bool.and_eq_true]

theorem fsub_zero_difference (h : fInt a = fInt b) :
    fsub a b = some (if fSign a = true ∧ fSign b = false then 0x80000000#32 else 0x00000000#32) := by
  rw [fsub_of_finite ha hb, h, Int.sub_self, finiteSum_zero]
  simp only [Bool.and_eq_true, Bool.not_eq_true']

theorem fSign_fmul {r : Word} (h : fmul a b = some r) : fSign r = (fSign a != fSign b) := by
  rw [fmul_of_finite ha hb, Option.some.injEq] at h
  rw [← h, fSign_roundTo]

theorem fmul_zero (h : fIsZero a = true ∨ fIsZero b = true) :
    fmul a b = some (if fSign a = fSign b then 0x00000000#32 else 0x80000000#32) := by
  have hmag : fMag a * fMag b = 0 := Nat.mul_eq_zero.2 (h.imp fMag_eq_zero.2 fMag_eq_zero.2)
  rw [fmul_of_finite ha hb, hmag, roundTo_zero, withSign_zero_of_ne]

section
variable (hz : fIsZero b = false)
include hz

theorem fSign_fdiv {r : Word} (h : fdiv a b = some r) : fSign r = (fSign a != fSign b) := by
  rw [fdiv_of_finite ha hb hz, Option.some.injEq] at h
  rw [← h, fSign_roundTo]

theorem fdiv_zero (h : fIsZero a = true) :
    fdiv a b = some (if fSign a = fSign b then 0x00000000#32 else 0x80000000#32) := by
  rw [fdiv_of_finite ha hb hz, fMag_eq_zero.2 h, Nat.zero_mul, roundTo_zero, withSign_zero_of_ne]

end

end

end

/-- Settles O41, by the kinds of the two operands. -/
theorem floatSpecialValues : Obligations.FloatSpecialValues := by
  intro a b
  refine ⟨arith_of_nan, fun ha => ?self, fun ha => ?infSelf, fun ha hb => ?infFinite, arith_inf_inf,
    fun ha hb => ⟨fadd_zero_sum ha hb, fsub_zero_difference ha hb, fun r => fSign_fmul ha hb,
      fmul_zero ha hb, fun hz => ⟨fun r => fSign_fdiv ha hb hz, fdiv_zero ha hb hz⟩⟩⟩
  case self =>
    rw [fsub_zero_difference ha ha rfl]
    cases fSign a <;> rfl
  case infSelf =>
    obtain ⟨-, hsub, -, hdiv, -⟩ := arith_inf_inf ha ha
    exact ⟨hsub.trans (if_pos rfl), hdiv⟩
  case infFinite =>
    obtain ⟨hmul, hmul'⟩ := fmul_inf_finite ha hb
    obtain ⟨hdiv, hdiv'⟩ := fdiv_inf_finite ha hb
    obtain ⟨hrem, hrem'⟩ := frem_inf_finite ha hb
    obtain ⟨hsub, hsub'⟩ := fsub_inf_finite ha hb
    refine ⟨fadd_inf_left ha hb, fadd_inf_right hb ha, hrem, hrem', hsub, hsub', hdiv', fun hz => ?_,
      fun hz => ?_⟩
    · rw [hmul, hmul', hz]
      exact ⟨rfl, rfl⟩
    · rw [hmul, hmul', hz]
      exact ⟨rfl, rfl, hdiv⟩

end Sys2Proof.Machine
end

section
/-! A disassembled line read back (30_encoding.md R111, R118 to R127, the spec's own decision D29): the line is
cut into the tokens it was put together from, and each token is parsed to the operand it shows. -/

namespace Sys2Proof.Machine

/-! ### Numerals -/

/-- A character that is a decimal digit. -/
def IsDecimal (c : Char) : Prop := ∃ d < 10, c = digitChar d

theorem digitVal_digitChar {d : Nat} (hd : d < 10) : digitVal (digitChar d) = some d := by
  interval_cases d <;> decide

theorem digitsFuel_decimal (fuel n : Nat) : ∀ c ∈ digitsFuel 10 fuel n, IsDecimal c := by
  induction fuel generalizing n with
  | zero => exact List.forall_mem_nil _
  | succ fuel ih =>
    rw [digitsFuel]
    split
    case isTrue h => exact List.forall_mem_singleton.2 ⟨n, h, rfl⟩
    case isFalse =>
      exact List.forall_mem_append.2
        ⟨ih _, List.forall_mem_singleton.2 ⟨n % 10, Nat.mod_lt _ (by decide), rfl⟩⟩

theorem showNat_decimal (n : Nat) : ∀ c ∈ showNat n, IsDecimal c := digitsFuel_decimal _ n

theorem readDigits_append (base : Nat) (xs ys : List Char) (acc : Nat) :
    readDigits base (xs ++ ys) acc = (readDigits base xs acc).bind (readDigits base ys) := by
  induction xs generalizing acc with
  | nil => rfl
  | cons c xs ih =>
    rw [List.cons_append, readDigits, readDigits]
    split
    · rfl
    · split
      · exact ih _
      · rfl

/-- With enough fuel the digits of a number are read back as it. -/
theorem readDigits_digitsFuel {fuel n : Nat} (h : n < fuel) :
    readDigits 10 (digitsFuel 10 fuel n) 0 = some n := by
  have hdigit {d : Nat} (hd : d < 10) (acc : Nat) :
      readDigits 10 [digitChar d] acc = some (acc * 10 + d) := by
    simp [readDigits, digitVal_digitChar hd, hd]
  induction fuel generalizing n with
  | zero => omega
  | succ fuel ih =>
    rw [digitsFuel]
    split
    case isTrue hn => rw [hdigit hn, Nat.zero_mul, Nat.zero_add]
    case isFalse hn =>
      rw [readDigits_append, ih (by omega), Option.bind_some, hdigit (Nat.mod_lt _ (by decide)),
        Nat.div_add_mod']

theorem showNat_ne_nil (n : Nat) : showNat n ≠ [] := by
  rw [showNat, digitsFuel]
  split <;> simp

/-- A decimal numeral is read back as its number. -/
theorem parseNat_showNat (n : Nat) : parseNat 10 (showNat n) = some n := by
  obtain ⟨c, ds, h⟩ := List.exists_cons_of_ne_nil (showNat_ne_nil n)
  rw [h, parseNat, ← h]
  exact readDigits_digitsFuel (Nat.lt_succ_self n)

/-- A character that a token takes as it is: no whitespace, no quote and no comment mark (R119). -/
def plainChar (c : Char) : Bool := !c.isWhitespace && c != '\x22' && c != ';'

theorem IsDecimal.plain {c : Char} (hc : IsDecimal c) : plainChar c = true := by
  obtain ⟨d, hd, rfl⟩ := hc
  interval_cases d <;> decide

/-- A decimal digit is neither a sign nor the letter that marks another base. -/
theorem IsDecimal.not_mark {c : Char} (hc : IsDecimal c) : c ∉ ['-', 'x', 'b'] := by
  obtain ⟨d, hd, rfl⟩ := hc
  interval_cases d <;> decide

theorem mark_not_mem_showNat {c : Char} (n : Nat) (hc : c ∈ ['-', 'x', 'b']) : c ∉ showNat n :=
  fun h => (showNat_decimal n c h).not_mark hc

/-- A numeral does not begin with the mark of another base. -/
theorem parseImmediate_showNat (n : Nat) : parseImmediate (showNat n) = some n := by
  unfold parseImmediate
  split
  next ds h => exact absurd (h ▸ by simp) (mark_not_mem_showNat (c := 'x') n (by decide))
  next ds h => exact absurd (h ▸ by simp) (mark_not_mem_showNat (c := 'b') n (by decide))
  next => exact parseNat_showNat n

/-! ### A line of plain tokens (R119) -/

/-- A token that stands in a line without quotes. -/
def PlainToken (t : Token) : Prop := t ≠ [] ∧ ∀ c ∈ t, plainChar c = true

/-- A line as the disassembler writes it: a token, and the others with one space before each. -/
def spaced (t : Token) (ts : List Token) : List Char := t ++ ts.flatMap (fun u => ' ' :: u)

theorem spaced_cons (t u : Token) (ts : List Token) :
    spaced t (u :: ts) = t ++ ' ' :: spaced u ts := by
  simp [spaced]

section
variable {c : Char} (hc : plainChar c = true)
include hc

theorem not_whitespace_of_plain : c.isWhitespace = false := by
  unfold plainChar at hc
  simp_all

theorem scan_plain_cons (started : Bool) (cur rest : List Char) :
    scan false started cur (c :: rest) = scan false true (c :: cur) rest := by
  have hspace : c ≠ ' ' := by
    rintro rfl
    revert hc
    decide
  have hmarks : c ≠ '\x22' ∧ c ≠ ';' := by
    unfold plainChar at hc
    simp_all
  rw [scan, if_neg hmarks.1, if_neg (by decide), if_neg hmarks.2, if_neg hspace]

end

/-- Plain characters join the token being read. -/
theorem scan_plain_append {t : Token} (ht : ∀ c ∈ t, plainChar c = true) (cur rest : List Char) :
    scan false true cur (t ++ rest) = scan false true (t.reverse ++ cur) rest := by
  induction t generalizing cur with
  | nil => rfl
  | cons c t ih =>
    obtain ⟨hc, ht⟩ := List.forall_mem_cons.1 ht
    rw [List.cons_append, scan_plain_cons hc, ih ht, List.reverse_cons, List.append_assoc]
    rfl

theorem scan_token {t : Token} (ht : PlainToken t) (rest : List Char) :
    scan false false [] (t ++ rest) = scan false true t.reverse rest := by
  obtain ⟨hne, hplain⟩ := ht
  obtain ⟨c, t, rfl⟩ := List.exists_cons_of_ne_nil hne
  obtain ⟨hc, ht⟩ := List.forall_mem_cons.1 hplain
  rw [List.cons_append, scan_plain_cons hc, scan_plain_append ht, List.reverse_cons]

/-- The scan cuts a line of plain tokens at the spaces. -/
theorem scan_spaced {t : Token} {ts : List Token} (ht : PlainToken t) (hts : ∀ u ∈ ts, PlainToken u) :
    scan false false [] (spaced t ts) = t :: ts := by
  induction ts generalizing t with
  | nil =>
    rw [spaced, scan_token ht]
    simp [scan]
  | cons u ts ih =>
    obtain ⟨hu, hts⟩ := List.forall_mem_cons.1 hts
    rw [spaced_cons, scan_token ht, ← ih hu hts]
    simp [scan]

theorem trim_eq_self {l : List Char} (hhead : ∀ c ∈ l.head?, c.isWhitespace = false)
    (hlast : ∀ c ∈ l.getLast?, c.isWhitespace = false) : trim l = l := by
  have hkeep {k : List Char} (hk : ∀ c ∈ k.head?, c.isWhitespace = false) :
      k.dropWhile Char.isWhitespace = k := by
    cases k with
    | nil => rfl
    | cons c k => exact List.dropWhile_cons_of_neg (by simp [hk c rfl])
  rw [trim, hkeep hhead, hkeep (by rwa [List.head?_reverse]), List.reverse_reverse]

/-- A line of plain tokens ends in a plain character. -/
theorem getLast?_spaced {t : Token} {ts : List Token} (ht : PlainToken t) (hts : ∀ u ∈ ts, PlainToken u) :
    ∀ c ∈ (spaced t ts).getLast?, plainChar c = true := by
  induction ts generalizing t with
  | nil =>
    intro c hc
    rw [spaced, List.flatMap_nil, List.append_nil] at hc
    exact ht.2 c (List.mem_of_getLast? hc)
  | cons u ts ih =>
    obtain ⟨hu, hts⟩ := List.forall_mem_cons.1 hts
    obtain ⟨c, u', hu'⟩ := List.exists_cons_of_ne_nil hu.1
    have hne : spaced u ts ≠ [] := by simp [spaced, hu']
    rw [spaced_cons, List.getLast?_append_of_ne_nil _ (by simp), List.getLast?_cons_of_ne_nil hne]
    exact ih hu hts

theorem tokenize_spaced {t : Token} {ts : List Token} (ht : PlainToken t) (hts : ∀ u ∈ ts, PlainToken u) :
    tokenize (spaced t ts) = t :: ts := by
  have htrim : trim (spaced t ts) = spaced t ts := by
    refine trim_eq_self (fun c hc => ?_) fun c hc =>
      not_whitespace_of_plain (getLast?_spaced ht hts c hc)
    rw [spaced, List.head?_append_of_ne_nil _ ht.1] at hc
    exact not_whitespace_of_plain (ht.2 c (List.mem_of_head? hc))
  rw [tokenize, htrim, scan_spaced ht hts]

theorem splitLines_of_not_mem {l : List Char} (hl : '\n' ∉ l) : splitLines l = [l] := by
  induction l with
  | nil => rfl
  | cons c l ih =>
    obtain ⟨hc, hl⟩ := not_or.1 (mt List.mem_cons.2 hl)
    have hne : (c == '\n') = false := beq_eq_false_iff_ne.2 (Ne.symm hc)
    rw [splitLines, hne, ih hl]

theorem newline_not_mem_spaced {t : Token} {ts : List Token} (ht : PlainToken t)
    (hts : ∀ u ∈ ts, PlainToken u) : '\n' ∉ spaced t ts := by
  have hplain {u : Token} (hu : PlainToken u) : '\n' ∉ u := fun h => by
    have := hu.2 _ h
    revert this
    decide
  simp only [spaced, List.mem_append, List.mem_flatMap, List.mem_cons, not_or, not_exists, not_and]
  exact ⟨hplain ht, fun u hu => ⟨by decide, hplain (hts u hu)⟩⟩

/-- A text of one line of plain tokens has those tokens on line 1. -/
theorem sourceLines_spaced {t : Token} {ts : List Token} (ht : PlainToken t)
    (hts : ∀ u ∈ ts, PlainToken u) : sourceLines (spaced t ts) = [(1, t :: ts)] := by
  simp [sourceLines, splitLines_of_not_mem (newline_not_mem_spaced ht hts), tokenize_spaced ht hts]

/-! ### The names of the spec's tables (10_state.md R21, 30_encoding.md R100) -/

theorem standard_names_valid : RegNames.standard.valid = true := by
  decide

theorem standard_row_name {row : OpcodeRow} (h : row ∈ OpcodeMap.standard) :
    PlainToken row.name ∧ row.name.head? ≠ some ':' ∧ row.name.head? ≠ some '.' := by
  have hall : OpcodeMap.standard.all (fun row => row.name.all plainChar && !row.name.isEmpty &&
      row.name.head? != some ':' && row.name.head? != some '.') = true := by
    decide
  have hrow := List.all_eq_true.1 hall row h
  simp only [Bool.and_eq_true, Bool.not_eq_true', List.isEmpty_eq_false_iff, bne_iff_ne] at hrow
  obtain ⟨⟨⟨hplain, hne⟩, hcolon⟩, hdot⟩ := hrow
  exact ⟨⟨hne, List.all_eq_true.1 hplain⟩, hcolon, hdot⟩

/-- A register's name is plain and begins with `$`, and finds its number. -/
theorem standard_reg_name {k : Nat} (hk : k ≤ 11) :
    (∃ t, RegNames.standard.name k = '$' :: t ∧ ∀ c ∈ t, plainChar c = true) ∧
      regNumber RegNames.standard (RegNames.standard.name k) = some k := by
  have hplain {t : Token} (h : t.all plainChar = true) : ∀ c ∈ t, plainChar c = true :=
    List.all_eq_true.1 h
  interval_cases k <;> exact ⟨⟨_, rfl, hplain (by decide)⟩, by decide⟩

/-- A token with another first letter names no register. -/
theorem regNumber_eq_none {c : Char} (hc : c.toUpper ≠ '$') (t : Token) :
    regNumber RegNames.standard (c :: t) = none := by
  have hall : ∀ name ∈ RegNames.standard, (name.map Char.toUpper).head? = some '$' := by
    decide
  rw [regNumber, List.findIdx?_eq_none_iff]
  intro name hname
  simp only [sameText, beq_eq_false_iff_ne]
  intro h
  have := hall name hname
  rw [← h] at this
  simp [hc] at this

theorem parseRegister_name {k : Nat} (hk : k ≤ 11) :
    parseRegister RegNames.standard (RegNames.standard.name k) = .ok k := by
  rw [parseRegister, (standard_reg_name hk).2]

/-! ### Operands shown and parsed -/

theorem fitting_toNat {n : Nat} (v : BitVec n) : fitting n v.toNat = .ok v := by
  rw [fitting, if_pos v.isLt, BitVec.ofNat_toNat, BitVec.setWidth_eq]

theorem parseArg1_showArg1 {d : Arg1} (hd : d.wf = true) :
    parseArg1 RegNames.standard (showArg1 RegNames.standard d) = .ok d := by
  cases d with
  | reg i =>
    have hi : i.toNat ≤ 11 := by simpa [Arg1.wf] using hd
    obtain ⟨⟨t, ht, -⟩, -⟩ := standard_reg_name hi
    have hreg := parseRegister_name hi
    rw [showArg1]
    rw [ht] at hreg ⊢
    simp [parseArg1, hreg, Except.map]
  | ind i =>
    have hi : i.toNat ≤ 11 := by simpa [Arg1.wf] using hd
    simp [showArg1, parseArg1, parseRegister_name hi, Except.map]

theorem parseArg2_showArg2 (p : Pools) {a : Arg2} (ha : a.wf = true) (hc : a.isConst = false) :
    parseArg2 RegNames.standard p (showArg2 RegNames.standard a) = .ok a := by
  cases a with
  | const k => cases hc
  | reg i =>
    have hi : i.toNat ≤ 11 := by simpa [Arg2.wf] using ha
    obtain ⟨⟨t, ht, -⟩, hreg⟩ := standard_reg_name hi
    rw [showArg2]
    rw [ht] at hreg ⊢
    simp [parseArg2, hreg]
  | ind i =>
    have hi : i.toNat ≤ 11 := by simpa [Arg2.wf] using ha
    simp [showArg2, parseArg2, parseRegister_name hi, Except.map]
  | imm v =>
    have hnone := regNumber_eq_none (c := '#') (by decide) (showNat v.toNat)
    have hnum := parseImmediate_showNat v.toNat
    have hsign := mark_not_mem_showNat (c := '-') v.toNat (by decide)
    obtain ⟨c, ds, h⟩ := List.exists_cons_of_ne_nil (showNat_ne_nil v.toNat)
    rw [showArg2]
    rw [h] at hnone hnum hsign ⊢
    have hc : c ≠ '-' := fun hc => hsign (by simp [hc])
    simp [parseArg2, hnone, hc, hnum, fitting_toNat, Except.map]

theorem parseTarget_shown (t : BitVec 24) : parseTarget ('#' :: showNat t.toNat) = .ok t := by
  simp only [parseTarget, parseNat_showNat]
  exact fitting_toNat t

/-- Every operand passes its register check (R145). -/
def operandsWf : Operands → Bool
  | .none => true
  | .one a => a.wf
  | .two d a => d.wf && a.wf
  | .jump _ => true

theorem operandsWf_of_wf {i : Instr} (h : i.wf = true) : operandsWf i.operands = true := by
  cases i with
  | noop | ret | jmp _ | call _ => rfl
  | ldci d a | ldcf d a | ldcb d a | ldca d a => exact (Bool.and_eq_true_iff.1 h).1
  | _ => exact h

section
variable {o : Operands} (hwf : operandsWf o = true)
include hwf

/-- Operands without a constant are parsed from the texts shown. -/
theorem parseOperands_showOperands (hc : noConstant o = true) (p : Pools) :
    parseOperands RegNames.standard p o.cls (showOperands RegNames.standard o) = .ok o := by
  cases o with
  | none => rfl
  | jump t => simp [Operands.cls, showOperands, parseOperands, parseTarget_shown, Except.map]
  | one a =>
    have ha : a.isConst = false := by simpa [noConstant] using hc
    simp [Operands.cls, showOperands, parseOperands, parseArg2_showArg2 p hwf ha, Except.map]
  | two d a =>
    have ha : a.isConst = false := by simpa [noConstant] using hc
    obtain ⟨hd, hwf⟩ := Bool.and_eq_true_iff.1 hwf
    simp [Operands.cls, showOperands, parseOperands, parseArg1_showArg1 hd, parseArg2_showArg2 p hwf ha,
      bind, Except.bind]

/-- The texts shown are plain tokens, and none of them is a label. -/
theorem showOperands_plain :
    ∀ u ∈ showOperands RegNames.standard o, PlainToken u ∧ u.head? ≠ some ':' := by
  have hmark {c : Char} {t : Token} (hc : plainChar c = true ∧ c ≠ ':')
      (ht : ∀ d ∈ t, plainChar d = true) : PlainToken (c :: t) ∧ (c :: t).head? ≠ some ':' :=
    ⟨⟨List.cons_ne_nil _ _, List.forall_mem_cons.2 ⟨hc.1, ht⟩⟩, by simp [hc.2]⟩
  have hname {k : Nat} (hk : k ≤ 11) : PlainToken (RegNames.standard.name k) ∧
      (RegNames.standard.name k).head? ≠ some ':' := by
    obtain ⟨⟨t, ht, hplain⟩, -⟩ := standard_reg_name hk
    exact ht ▸ hmark (by decide) hplain
  have hnum (n : Nat) : ∀ c ∈ showNat n, plainChar c = true := fun c h => (showNat_decimal n c h).plain
  have harg1 {d : Arg1} (hd : d.wf = true) : PlainToken (showArg1 RegNames.standard d) ∧
      (showArg1 RegNames.standard d).head? ≠ some ':' := by
    cases d with
    | reg i => exact hname (by simpa [Arg1.wf] using hd)
    | ind i => exact hmark (by decide) (hname (by simpa [Arg1.wf] using hd)).1.2
  have harg2 {a : Arg2} (ha : a.wf = true) : PlainToken (showArg2 RegNames.standard a) ∧
      (showArg2 RegNames.standard a).head? ≠ some ':' := by
    cases a with
    | reg i => exact hname (by simpa [Arg2.wf] using ha)
    | ind i => exact hmark (by decide) (hname (by simpa [Arg2.wf] using ha)).1.2
    | imm v | const v => exact hmark (by decide) (hnum _)
  cases o with
  | none => exact List.forall_mem_nil _
  | jump t => exact List.forall_mem_singleton.2 (hmark (by decide) (hnum _))
  | one a => exact List.forall_mem_singleton.2 (harg2 hwf)
  | two d a =>
    obtain ⟨hd, ha⟩ := Bool.and_eq_true_iff.1 hwf
    exact List.forall_mem_cons.2 ⟨harg1 hd, List.forall_mem_singleton.2 (harg2 ha)⟩

end

/-! ### The three passes over one instruction line -/

theorem lineKind_instruction {t : Token} (ts : List Token) (hcolon : t.head? ≠ some ':')
    (hdot : t.head? ≠ some '.') : lineKind (t :: ts) = .instruction t ts := by
  unfold lineKind
  split <;> simp_all

theorem mapM_substLabel (ls : Labels) {ts : List Token} (h : ∀ u ∈ ts, u.head? ≠ some ':') :
    ts.mapM (substLabel ls) = .ok ts := by
  have hsame {u : Token} (hu : u.head? ≠ some ':') : substLabel ls u = .ok u := by
    unfold substLabel
    split <;> simp_all
  induction ts with
  | nil => rfl
  | cons u ts ih =>
    obtain ⟨hu, h⟩ := List.forall_mem_cons.1 h
    rw [List.mapM_cons, hsame hu, ih h]
    rfl

/-- A text of one instruction line without labels is the artifact of its one word. -/
theorem assembleText_line {m : OpcodeMap} {names : RegNames} {t : Token} {ts : List Token} {w : Word}
    (ht : PlainToken t ∧ t.head? ≠ some ':' ∧ t.head? ≠ some '.')
    (hts : ∀ u ∈ ts, PlainToken u ∧ u.head? ≠ some ':')
    (hw : assembleTokens m names ⟨[], [], []⟩ t ts = .ok w) :
    assembleText m names (spaced t ts) =
      .ok { words := [w], entry := 0, len := 1, nums := [], strs := [] } := by
  obtain ⟨hplain, hcolon, hdot⟩ := ht
  have hlines := sourceLines_spaced hplain fun u hu => (hts u hu).1
  have hkind := lineKind_instruction ts hcolon hdot
  have hargs := mapM_substLabel [] fun u hu => (hts u hu).2
  simp [assembleText, hlines, passConstants, passLabels, passWords, hkind, hargs, hw]

/-- Settles O59: the line shown is one instruction line, whose mnemonic finds the row of the word and whose
operands are parsed back. -/
theorem disassemblyReassembles : Obligations.DisassemblyReassembles := by
  intro i w hwf hc henc
  obtain ⟨row, hof, hcls, rfl⟩ := encode_eq_some.1 henc
  obtain ⟨hrow, hop⟩ := OpcodeMap.rowOf_eq_some hof
  obtain ⟨hnum, -, hnames, -⟩ := OpcodeMap.standard.valid_iff.1 OpcodeMap.standard_valid
  have hops := operandsWf_of_wf hwf
  have hshow : disasm OpcodeMap.standard RegNames.standard (encOperands row.number i.operands) =
      spaced row.name (showOperands RegNames.standard i.operands) :=
    disasm_of_decodeRow _ (decodeRow_encOperands (OpcodeMap.rowAt_number hnum hrow) hop hcls)
  have hlookup : OpcodeMap.lookup OpcodeMap.standard row.name = some row :=
    OpcodeMap.lookup_spelling hnames hrow (beq_self_eq_true _)
  have hparse := parseOperands_showOperands hops hc ⟨[], [], []⟩
  rw [i.operands_cls, ← hcls] at hparse
  have hword : assembleTokens OpcodeMap.standard RegNames.standard ⟨[], [], []⟩ row.name
      (showOperands RegNames.standard i.operands) = .ok (encOperands row.number i.operands) := by
    simp only [assembleTokens, hlookup, hparse, Except.map]
  rw [hshow, assemble, OpcodeMap.standard_valid, standard_names_valid,
    assembleText_line (standard_row_name hrow) (showOperands_plain hops) hword]
  rfl

end Sys2Proof.Machine
end
